-- ==== Sys2Proof/Word.lean ====
section
/-! DEFINITION. The word, byte and element types of the R2FFT unit: 32-bit registers and command words (00_scope R10),
the byte as DMEM's unit, and the two element formats (20_memory R82). -/

namespace Sys2Proof

/-- A register or command word: 32 bits (R10). -/
abbrev Word := BitVec 32

/-- The unit DMEM is addressed in (R80). -/
abbrev Byte := BitVec 8

/-- Element precision (R3, R122): IEEE 754 binary32 (`.S`) or binary64 (`.D`). -/
inductive Prec where
  | binary32
  | binary64
  deriving DecidableEq, Repr

/-- `esize(P)` of R14: the bytes of one element. -/
def Prec.esize : Prec → Nat
  | .binary32 => 4
  | .binary64 => 8

/-- The bits of one element (R82). -/
abbrev Prec.bits : Prec → Nat
  | .binary32 => 32
  | .binary64 => 64

/-- An element of format P, as its bit pattern (R82). -/
abbrev Elem (P : Prec) := BitVec P.bits

/-- A complex value: a pair `(re, im)` of values of one kind (R17). -/
structure Cplx (α : Type) where
  re : α
  im : α
  deriving DecidableEq, Repr

end Sys2Proof
end

