-- ==== Sys2Proof/Config.lean ====
section
/-! DEFINITION. What an implementation or platform fixes (00_scope R7 to R9, 60_exceptions R249), and the free values: constants with no
body, about which nothing can be proved. -/

namespace Sys2Proof

/-- The parameters of a unit. "A model takes it as an argument" (R7, R8): a configuration is a field of State that no step changes,
so a statement about every state is about every configuration. -/
structure Config where
  /-- LOG2_NMAX (R7): log2 of the largest transform size. -/
  log2NMax : Nat
  /-- LOG2_DMEM_BYTES (R8): log2 of the bytes of DMEM. -/
  log2DmemBytes : Nat
  /-- UNIT_BASE (R9): the host physical address of the window. -/
  unitBase : Nat
  /-- IRQ_LINE (R249): the host's interrupt line the IRQ output drives. -/
  irqLine : Nat
  deriving DecidableEq, Repr

/-- The reference configuration of R7 and R8. DESIGN CHOICE (logs 1 and 2): UNIT_BASE and IRQ_LINE are OPEN in the spec, and 0 here. -/
def Config.reference : Config :=
  { log2NMax := 16, log2DmemBytes := 22, unitBase := 0, irqLine := 0 }

/-- DMEM_BYTES = 2^LOG2_DMEM_BYTES (R8). -/
def Config.dmemBytes (c : Config) : Nat := 2 ^ c.log2DmemBytes

/-- Free value (log 8): what a DMEM byte marked ⊥ reads as, "chosen afresh on each read" (93 I1): applied to State's draw counter. -/
opaque Config.freeByte : Nat → Byte

/-- Free value (log 6): how many port accesses may be performed between the acceptance of a command and its completion. The time is
"unspecified" and finite (R247); applied to State's draw counter. -/
opaque Config.latency : Nat → Nat

/-- Free value (log 10): the magnitude of a table entry whose enclosure [lo, hi] does not settle its rounding. -/
opaque Config.freeTwiddle (P : Prec) (lo hi : Nat) : Elem P

end Sys2Proof
end

