-- ==== Sys2Proof/Syntax.lean ====
section
/-! DEFINITION. The thirteen commands of the opcode map (30_encoding R121), one constructor a row. -/

namespace Sys2Proof

/-- A command word that decodes (30_encoding R121, R125). PREC is a field of every command; NOP, TWBUILD and TWFREE ignore it (R122).
The stage of a butterfly command is the value of its STAGE field, [12:8] (R123). -/
inductive Instr where
  | nop (P : Prec)
  | twbuild (P : Prec)
  | twfree (P : Prec)
  | bitrev (P : Prec)
  | bflyF (P : Prec) (stage : Nat)
  | bflyI (P : Prec) (stage : Nat)
  | fftF (P : Prec)
  | fftI (P : Prec)
  | rfftIp (P : Prec)
  | rfftOp (P : Prec)
  | pack (P : Prec)
  | unpack (P : Prec)
  | conv (P : Prec)
  deriving DecidableEq, Repr

/-- The PREC field of a command (R122). -/
def Instr.prec : Instr → Prec
  | .nop P | .twbuild P | .twfree P | .bitrev P | .bflyF P _ | .bflyI P _ | .fftF P | .fftI P
  | .rfftIp P | .rfftOp P | .pack P | .unpack P | .conv P => P

/-- The STAGE field of a command: 0 for every command but BFLY.F and BFLY.I (R123). -/
def Instr.stage : Instr → Nat
  | .bflyF _ s | .bflyI _ s => s
  | .nop _ | .twbuild _ | .twfree _ | .bitrev _ | .fftF _ | .fftI _ | .rfftIp _ | .rfftOp _
  | .pack _ | .unpack _ | .conv _ => 0

end Sys2Proof
end

