-- ==== Sys2Proof/Machine/State.lean ====
section
/-! DEFINITION. The architectural state (10_state), the host's accesses (20_memory section 5), the outcomes' reasons, and the state after
reset (10_state R57). -/

namespace Sys2Proof.Machine

/-- Why the machine stops. -/
inductive Fault where
  /-- Raised by `step` when a host access is, or was, at the port while the reset input is asserted. "Host accesses during reset get no
  response" (70_reset R280), and 93 I11 gives the treatment `fault`. Safe: the machine stops where hardware may go on (log 14). -/
  | hostAccessDuringReset
  deriving DecidableEq, Repr

/-- Why an instruction has no meaning. -/
inductive Refusal where
  /-- Raised by an arm of `exec` whose instruction has no meaning yet; no arm of this model does. Safe: nothing is said of such a run. -/
  | notModelled (mnemonic : String)
  deriving DecidableEq, Repr

/-- ENG (10_state R51), visible as STATUS.BUSY. -/
inductive Engine where
  | idle
  | busy
  deriving DecidableEq, Repr

/-- The error codes of 60_exceptions R240, 0 to 8 in this order. Codes 9 to 15 are never reported (93 I13). -/
inductive ErrCode where
  | success
  | illegalCmd
  | invalidSize
  | sizeMismatch
  | invalidStage
  | invalidStride
  | misaligned
  | addrRange
  | overlap
  deriving DecidableEq, Repr

/-- The region identifiers of 20_memory R86: 1 = X_RE, 2 = X_IM, 3 = Y_RE, 4 = Y_IM, 5 = F. -/
inductive RegionId where
  | xRe
  | xIm
  | yRe
  | yIm
  | filter
  deriving DecidableEq, Repr

/-- How a command fails: the code and the region ERRCODE.SRC reports (`none` is SRC = 0) (R240, R37). -/
structure CmdError where
  code : ErrCode
  src : Option RegionId
  deriving DecidableEq, Repr

/-- The operand registers (10_state R30, R39, R41 to R48). -/
structure OperandRegs where
  n : Word
  len : Word
  flen : Word
  xRe : Word
  xIm : Word
  xStride : Word
  yRe : Word
  yIm : Word
  yStride : Word
  fBase : Word
  fStride : Word
  deriving DecidableEq, Repr

/-- Every operand register at its reset value 0 (R57). -/
def OperandRegs.zero : OperandRegs :=
  { n := 0, len := 0, flen := 0, xRe := 0, xIm := 0, xStride := 0, yRe := 0, yIm := 0, yStride := 0, fBase := 0, fStride := 0 }

/-- The latch (10_state R50): the accepted word and the operand registers as they stood at acceptance. -/
structure Latch where
  cmd : Word
  ops : OperandRegs
  deriving DecidableEq, Repr

/-- DMEM (10_state R53): its bytes that hold a value, by rising DMEM offset; a byte not listed is marked ⊥. -/
abbrev Memory := List Host.Cell

/-- The canonical form of DMEM: addresses strictly rising. (No entry can equal what an unlisted address reads as: ⊥ is no byte.) -/
abbrev Memory.wf (m : Memory) : Prop := m.Pairwise (fun c d => c.1 < d.1)

/-- The width of a host access (20_memory R96, R97). -/
inductive Width where
  | w8
  | w16
  | w32
  | w64
  deriving DecidableEq, Repr

/-- A host access is a read or a write of a value; a write narrower than 64 bits carries its value in the low bits (log 20). -/
inductive AccessOp where
  | read
  | write (value : BitVec 64)
  deriving DecidableEq, Repr

/-- A host access (20_memory R95) at a byte offset in the unit's 32 MiB window (R80). -/
structure Access where
  op : AccessOp
  width : Width
  offset : BitVec 25
  deriving DecidableEq, Repr

/-- OK or ERROR (20_memory R95). -/
inductive BusStatus where
  | ok
  | error
  deriving DecidableEq, Repr

/-- The response to a host access (R95). `data` is `none` where the spec gives the response no data (log 5). -/
structure Response where
  status : BusStatus
  data : Option (BitVec 64)
  deriving DecidableEq, Repr

/-- The state of the unit, its port and its reset input. -/
structure State where
  /-- The parameters, readable in CAP (R34); no step changes them. -/
  config : Config
  /-- CTRL.IE_DONE (R35). -/
  ieDone : Bool
  /-- CTRL.IE_ERR (R35). -/
  ieErr : Bool
  /-- SRST_PENDING (R51), visible as CTRL.SRST. -/
  srstPending : Bool
  /-- ENG (R51), visible as STATUS.BUSY. -/
  eng : Engine
  /-- STATUS.DONE (R36). -/
  done : Bool
  /-- STATUS.ERR (R36). -/
  err : Bool
  /-- STATUS.OVR (R36). -/
  ovr : Bool
  /-- ERRCODE.CODE (R37). -/
  errCode : ErrCode
  /-- ERRCODE.SRC (R37); `none` is 0. -/
  errSrc : Option RegionId
  /-- LASTCMD (R38). -/
  lastCmd : Word
  /-- The operand registers (R39, R41 to R48). -/
  regs : OperandRegs
  /-- TW_N (R40), the whole of the twiddle state (R52). -/
  twN : Word
  /-- The latch of the running command (R50). -/
  latch : Latch
  /-- DMEM (R53). -/
  mem : Memory
  /-- Accesses that have arrived at the port and are not yet performed, oldest first (R95, R98). -/
  port : List Access
  /-- The responses given so far, oldest first (R95). -/
  responses : List Response
  /-- How many more port accesses may be performed before the command in flight completes (log 6). -/
  delay : Nat
  /-- How many free values have been drawn (log 7). -/
  fresh : Nat
  /-- The level of the reset input (70_reset R280). -/
  resetPin : Bool
  /-- A host access was at the port when the reset input was released, so it was there during reset (70_reset R280, log 14). -/
  accessInReset : Bool
  deriving DecidableEq, Repr

/-- The state after power-on of a unit of configuration c: every register as R57 says, every byte of DMEM ⊥ (70_reset R281).
DESIGN CHOICE: the latch is "unspecified, unobservable" and 0 here (log 3); nothing is at the port (log 4); the model's own
counters are 0 (logs 6, 7); the reset input is released, with no access made during reset (logs 14, 15). -/
def State.powerOn (c : Config) : State :=
  { config := c
    ieDone := false, ieErr := false, srstPending := false
    eng := .idle
    done := false, err := false, ovr := false
    errCode := .success, errSrc := none
    lastCmd := 0
    regs := OperandRegs.zero
    twN := 0
    latch := { cmd := 0, ops := OperandRegs.zero }
    mem := []
    port := [], responses := []
    delay := 0, fresh := 0
    resetPin := false, accessInReset := false }

/-- The machine right after reset at power-on, in the reference configuration (log 1). -/
def State.reset : State := State.powerOn Config.reference

end Sys2Proof.Machine
end

