-- ==== Sys2Proof/Machine/Flags.lean ====
section
/-! DEFINITION. The register views of the flag state: CTRL (10_state R35), STATUS (R36), ERRCODE (R37), CAP (R34), and the IRQ output (R54). -/

namespace Sys2Proof.Machine

/-- ID (R32): the ASCII codes of "R2FT". -/
def idValue : Word := 0x52324654#32

/-- VERSION (R33): MAJOR 1, MINOR 0. -/
def versionValue : Word := 0x00010000#32

/-- CAP (R34): LOG2_NMAX at [4:0], LOG2_DMEM_BYTES at [12:8], the rest 0. -/
def capValue (c : Config) : Word :=
  BitVec.ofNat 32 (c.log2NMax % 2 ^ 5 + c.log2DmemBytes % 2 ^ 5 * 2 ^ 8)

/-- A flag at bit position k. -/
def bitAt (b : Bool) (k : Nat) : Nat := if b then 2 ^ k else 0

/-- CTRL as read (R35): IE_DONE, IE_ERR, and SRST while a soft reset is pending. -/
def State.ctrl (s : State) : Word :=
  BitVec.ofNat 32 (bitAt s.ieDone 0 + bitAt s.ieErr 1 + bitAt s.srstPending 31)

/-- STATUS.BUSY (R36, R51). -/
def State.busy (s : State) : Bool := s.eng == .busy

/-- STATUS.TWV: 1 exactly when TW_N ≠ 0 (R36). -/
def State.twv (s : State) : Bool := s.twN != 0

/-- STATUS as read (R36). -/
def State.status (s : State) : Word :=
  BitVec.ofNat 32 (bitAt s.busy 0 + bitAt s.done 1 + bitAt s.err 2 + bitAt s.ovr 3 + bitAt s.twv 4)

/-- The code values of 60_exceptions R240. -/
def ErrCode.toNat : ErrCode → Nat
  | .success => 0
  | .illegalCmd => 1
  | .invalidSize => 2
  | .sizeMismatch => 3
  | .invalidStage => 4
  | .invalidStride => 5
  | .misaligned => 6
  | .addrRange => 7
  | .overlap => 8

/-- The identifiers of 20_memory R86. -/
def RegionId.toNat : RegionId → Nat
  | .xRe => 1
  | .xIm => 2
  | .yRe => 3
  | .yIm => 4
  | .filter => 5

/-- The SRC field: 0 where no region is reported (R37). -/
def srcField : Option RegionId → Nat
  | none => 0
  | some r => r.toNat

/-- ERRCODE as read (R37): CODE at [3:0], SRC at [10:8]. -/
def State.errcode (s : State) : Word :=
  BitVec.ofNat 32 (s.errCode.toNat + srcField s.errSrc * 2 ^ 8)

/-- The IRQ output (R54), recomputed from the current bits. -/
def State.irq (s : State) : Bool := (s.done && s.ieDone) || ((s.err || s.ovr) && s.ieErr)

/-- The level the unit drives on an interrupt line of the host: IRQ on line IRQ_LINE (60_exceptions R249), nothing on any other. -/
def State.irqLevel (s : State) (line : Nat) : Bool := line == s.config.irqLine && s.irq

/-- A STATUS write (R36): DONE, ERR and OVR are each cleared where the written bit is 1; every other written bit is ignored. -/
def State.writeStatus (v : Word) (s : State) : State :=
  { s with done := s.done && !v.getLsbD 1, err := s.err && !v.getLsbD 2, ovr := s.ovr && !v.getLsbD 3 }

end Sys2Proof.Machine
end

