-- ==== Sys2Proof/Machine/Ops.lean ====
section
/-! DEFINITION. The named operations over DMEM and the engine: bytes and little-endian values (20_memory R81), acceptance (60_exceptions
R245), completion (R246), which takes the place of exception entry on this unit (R251: there are no traps), and soft reset (70_reset R282). -/

namespace Sys2Proof.Machine

/-- The byte at DMEM offset a; `none` is ⊥ (10_state R53). -/
def Memory.readByte : Memory → Nat → Option Byte
  | [], _ => none
  | (b, v) :: m, a => if b = a then some v else Memory.readByte m a

/-- Store a byte, or ⊥, at DMEM offset a, keeping the canonical form. -/
def Memory.writeByte : Memory → Nat → Option Byte → Memory
  | [], a, some v => [(a, v)]
  | [], _, none => []
  | (b, w) :: m, a, v =>
    if b < a then (b, w) :: Memory.writeByte m a v
    else
      match v with
      | some x => if b = a then (a, x) :: m else (a, x) :: (b, w) :: m
      | none => if b = a then m else (b, w) :: m

/-- MemRead of R81: n bytes from offset a, little-endian; `none` if one of them is ⊥. -/
def Memory.readLE (m : Memory) (a : Nat) : Nat → Option Nat
  | 0 => some 0
  | n + 1 =>
    match m.readByte a, Memory.readLE m (a + 1) n with
    | some b, some v => some (b.toNat + 256 * v)
    | some _, none => none
    | none, some _ => none
    | none, none => none

/-- MemWrite of R81: the low n bytes of v to offsets a, a+1, …, little-endian. -/
def Memory.writeLE (m : Memory) (a : Nat) : Nat → Nat → Memory
  | 0, _ => m
  | n + 1, v => Memory.writeLE (m.writeByte a (some (BitVec.ofNat 8 v))) (a + 1) n (v / 256)

/-- Mark n bytes from offset a ⊥. -/
def Memory.undefine (m : Memory) (a : Nat) : Nat → Memory
  | 0 => m
  | n + 1 => Memory.undefine (m.writeByte a none) (a + 1) n

/-- n bytes from offset a, little-endian, as a host access reads them: a byte marked ⊥ gives an unspecified value, fresh on each read
(20_memory R99, 93 I1): the draw counter's value for byte t of the access is f + t. -/
def Memory.readFree (m : Memory) (a f : Nat) : Nat → Nat
  | 0 => 0
  | n + 1 =>
    (match m.readByte a with
     | some b => b.toNat
     | none => (Config.freeByte f).toNat) + 256 * Memory.readFree m (a + 1) (f + 1) n

/-- ElemRead_P (00_scope R14): `none` if a byte of the element is ⊥. -/
def readElem (P : Prec) (m : Memory) (a : Nat) : Option (Elem P) :=
  (m.readLE a P.esize).map (BitVec.ofNat P.bits)

/-- ElemWrite_P (R14); an unspecified value leaves the element's bytes ⊥ (20_memory R99, log 9). -/
def writeElem (P : Prec) (m : Memory) (a : Nat) : Option (Elem P) → Memory
  | some v => m.writeLE a P.esize v.toNat
  | none => m.undefine a P.esize

/-- The host gets a response (20_memory R95). -/
def State.respond (r : Response) (s : State) : State := { s with responses := s.responses ++ [r] }

/-- Acceptance of command word w (60_exceptions R245, 10_state R38): the latch is loaded, LASTCMD is w, the engine is BUSY. How many port
accesses may overtake the completion is a free value (R247, log 6). -/
def State.accept (w : Word) (s : State) : State :=
  { s with
    latch := { cmd := w, ops := s.regs }
    lastCmd := w
    eng := .busy
    delay := Config.latency s.fresh
    fresh := s.fresh + 1 }

/-- A write to CMD (10_state R38): accepted when IDLE; ignored, setting OVR, when BUSY. -/
def State.writeCmd (w : Word) (s : State) : State :=
  match s.eng with
  | .idle => s.accept w
  | .busy => { s with ovr := true }

/-- The soft reset (70_reset R282): every register and TW_N at the values of 10_state R57, the engine IDLE, DMEM retained. -/
def State.softReset (s : State) : State :=
  { s with
    ieDone := false, ieErr := false, srstPending := false
    eng := .idle
    done := false, err := false, ovr := false
    errCode := .success, errSrc := none
    lastCmd := 0
    regs := OperandRegs.zero
    twN := 0 }

/-- A write to CTRL (10_state R35): with bit 31 set it asks for a soft reset, done at once when IDLE and pending when BUSY (70_reset
R282), and its other bits are ignored; with bit 31 clear it sets IE_DONE and IE_ERR. -/
def State.writeCtrl (v : Word) (s : State) : State :=
  if v.getLsbD 31 then
    match s.eng with
    | .idle => s.softReset
    | .busy => { s with srstPending := true }
  else { s with ieDone := v.getLsbD 0, ieErr := v.getLsbD 1 }

/-- The bookkeeping of the completion step (60_exceptions R246): ERRCODE is written, ERR is set on an error, DONE is set, the engine is
IDLE, and a pending soft reset is performed in the same step. -/
def State.complete (e : Option CmdError) (s : State) : State :=
  let t : State :=
    match e with
    | none => { s with errCode := .success, errSrc := none, done := true, eng := .idle }
    | some e => { s with errCode := e.code, errSrc := e.src, err := true, done := true, eng := .idle }
  if s.srstPending then t.softReset else t

/-- A command ends with an error (R243): no DMEM byte and not TW_N, only the completion bookkeeping. -/
def finishError (e : CmdError) (s : State) : Host.Outcome State Fault Refusal :=
  .next (s.complete (some e))

/-- A command ends with success (R246): its effects on DMEM and TW_N, then the completion bookkeeping. -/
def finishOk (mem : Memory) (twN : Word) (s : State) : Host.Outcome State Fault Refusal :=
  .next (({ s with mem := mem, twN := twN } : State).complete none)

/-- A word that decodes to ILLEGAL completes with ILLEGAL_CMD and no other effect (30_encoding R125). -/
def completeIllegal (s : State) : Host.Outcome State Fault Refusal :=
  finishError { code := .illegalCmd, src := none } s

/-- The state in which command word w has just been accepted with the operand registers as they stand and is next to complete: what the
host does by writing CMD to an IDLE unit, with the free latency settled to "completes first", the reset input released and no access made during reset (log 4). -/
def State.placeCommand (w : Word) (s : State) : State :=
  { s with
    latch := { cmd := w, ops := s.regs }
    lastCmd := w
    eng := .busy
    delay := 0
    resetPin := false
    accessInReset := false }

end Sys2Proof.Machine
end

