-- ==== Sys2Proof/Machine/Operands.lean ====
section
/-! DEFINITION. The operand forms: effective addresses (20_memory R83), regions (R84 to R86), and the vectors a command loads and stores
(00_scope R18). -/

namespace Sys2Proof.Machine

/-- EA(B, S, i, P) of R83, in unbounded integers. -/
def ea (base stride : Word) (i : Nat) (P : Prec) : Int :=
  (base.toNat : Int) + (i : Int) * stride.toInt * (P.esize : Int)

/-- The DMEM offset an element access goes to. The checks of R87 to R90 have passed when it is used, so the EA is not negative. -/
def eaNat (base stride : Word) (i : Nat) (P : Prec) : Nat := (ea base stride i P).toNat

/-- The kinds of region of R84. -/
inductive SlotKind where
  | elem
  | pair
  deriving DecidableEq, Repr

/-- How a command uses a region (R86). -/
inductive Role where
  | read
  | write
  | readWrite
  deriving DecidableEq, Repr

/-- A region of a command (R84, R86). -/
structure Region where
  id : RegionId
  kind : SlotKind
  role : Role
  base : Word
  stride : Word
  count : Nat
  deriving DecidableEq, Repr

/-- A region with count 0 is empty: never accessed, never checked (R84). -/
def Region.nonempty (r : Region) : Bool := r.count != 0

/-- The bytes one index of a region occupies: an element, or the two of a pair (R84, R85). -/
def Region.slotBytes (r : Region) (P : Prec) : Nat :=
  match r.kind with
  | .elem => P.esize
  | .pair => 2 * P.esize

/-- `lo` of R84, in its closed form. -/
def Region.lo (r : Region) (P : Prec) : Int :=
  if 0 < r.stride.toInt then ea r.base r.stride 0 P else ea r.base r.stride (r.count - 1) P

/-- `hi` of R84, in its closed form. -/
def Region.hi (r : Region) (P : Prec) : Int :=
  (if 0 < r.stride.toInt then ea r.base r.stride (r.count - 1) P else ea r.base r.stride 0 P) + (r.slotBytes P : Int)

/-- The region is written by its command (R86). -/
def Region.written (r : Region) : Bool := r.role != .read

/-- The number of signal elements CONV reads, S_CNT of R86. -/
def signalCount (len flen : Nat) : Nat := if 1 ≤ len ∧ 1 ≤ flen then len + flen - 1 else 0

/-- The in-place complex vector X with n elements: regions 1 and 2, read-write (R86). -/
def inPlaceRegions (L : OperandRegs) (n : Nat) : List Region :=
  [{ id := .xRe, kind := .elem, role := .readWrite, base := L.xRe, stride := L.xStride, count := n },
   { id := .xIm, kind := .elem, role := .readWrite, base := L.xIm, stride := L.xStride, count := n }]

/-- The regions of each command, in ascending identifier (R86). -/
def regions (i : Instr) (L : OperandRegs) : List Region :=
  match i with
  | .nop _ | .twbuild _ | .twfree _ => []
  | .bitrev _ | .bflyF _ _ | .bflyI _ _ | .fftF _ | .fftI _ => inPlaceRegions L L.n.toNat
  | .rfftIp _ => inPlaceRegions L (L.n.toNat / 2)
  | .rfftOp _ =>
    [{ id := .xRe, kind := .elem, role := .read, base := L.xRe, stride := L.xStride, count := L.n.toNat / 2 },
     { id := .xIm, kind := .elem, role := .read, base := L.xIm, stride := L.xStride, count := L.n.toNat / 2 },
     { id := .yRe, kind := .elem, role := .write, base := L.yRe, stride := L.yStride, count := L.n.toNat / 2 },
     { id := .yIm, kind := .elem, role := .write, base := L.yIm, stride := L.yStride, count := L.n.toNat / 2 }]
  | .pack _ =>
    [{ id := .xRe, kind := .pair, role := .read, base := L.xRe, stride := L.xStride, count := L.len.toNat },
     { id := .yRe, kind := .elem, role := .write, base := L.yRe, stride := L.yStride, count := L.len.toNat },
     { id := .yIm, kind := .elem, role := .write, base := L.yIm, stride := L.yStride, count := L.len.toNat }]
  | .unpack _ =>
    [{ id := .xRe, kind := .elem, role := .read, base := L.xRe, stride := L.xStride, count := L.len.toNat },
     { id := .xIm, kind := .elem, role := .read, base := L.xIm, stride := L.xStride, count := L.len.toNat },
     { id := .yRe, kind := .pair, role := .write, base := L.yRe, stride := L.yStride, count := L.len.toNat }]
  | .conv _ =>
    [{ id := .xRe, kind := .elem, role := .read, base := L.xRe, stride := L.xStride,
       count := signalCount L.len.toNat L.flen.toNat },
     { id := .yRe, kind := .elem, role := .write, base := L.yRe, stride := L.yStride, count := L.len.toNat },
     { id := .filter, kind := .elem, role := .read, base := L.fBase, stride := L.fStride, count := L.flen.toNat }]

/-- The pairs tested for overlap, in order (R90). -/
def overlapPairs (i : Instr) : List (RegionId × RegionId) :=
  match i with
  | .nop _ | .twbuild _ | .twfree _ => []
  | .bitrev _ | .bflyF _ _ | .bflyI _ _ | .fftF _ | .fftI _ | .rfftIp _ => [(.xRe, .xIm)]
  | .rfftOp _ => [(.yRe, .yIm), (.yRe, .xRe), (.yRe, .xIm), (.yIm, .xRe), (.yIm, .xIm)]
  | .pack _ => [(.yRe, .yIm), (.yRe, .xRe), (.yIm, .xRe)]
  | .unpack _ => [(.yRe, .xRe), (.yRe, .xIm)]
  | .conv _ => [(.yRe, .xRe), (.yRe, .filter)]

/-- The values of a list all of whose elements are specified. -/
def allSome {α : Type} : List (Option α) → Option (List α)
  | [] => some []
  | some a :: l =>
    match allSome l with
    | some l' => some (a :: l')
    | none => none
  | none :: _ => none

/-- Element i of the real vector (base, stride) (R18). -/
def loadElem (P : Prec) (m : Memory) (base stride : Word) (i : Nat) : Option (Elem P) :=
  readElem P m (eaNat base stride i P)

/-- A split-complex vector's descriptor (R18). -/
structure SplitVec where
  re : Word
  im : Word
  stride : Word
  deriving DecidableEq, Repr

/-- The X vector of the latched operands (10_state R43, R44). -/
def OperandRegs.x (L : OperandRegs) : SplitVec := { re := L.xRe, im := L.xIm, stride := L.xStride }

/-- The Y vector of the latched operands (10_state R45, R46). -/
def OperandRegs.y (L : OperandRegs) : SplitVec := { re := L.yRe, im := L.yIm, stride := L.yStride }

/-- Element i of a split-complex vector; `none` if a byte of it is ⊥. -/
def loadCplx (P : Prec) (m : Memory) (v : SplitVec) (i : Nat) : Option (Cplx (Elem P)) :=
  match loadElem P m v.re v.stride i, loadElem P m v.im v.stride i with
  | some a, some b => some { re := a, im := b }
  | some _, none => none
  | none, some _ => none
  | none, none => none

/-- LoadX(L) and LoadY(L) of 42_fft: the snapshot of n elements, `none` if a byte of it is ⊥. -/
def loadSplit (P : Prec) (m : Memory) (v : SplitVec) (n : Nat) : Option (List (Cplx (Elem P))) :=
  allSome ((List.range n).map (loadCplx P m v))

/-- An element to be stored, `none` an unspecified value, and the DMEM offset it goes to. -/
structure Store (P : Prec) where
  addr : Nat
  value : Option (Elem P)
  deriving DecidableEq, Repr

/-- The stores of a command, in order: "a later write to the same byte replaces an earlier one" (00_scope R19). -/
def storeAll (P : Prec) (m : Memory) (ws : List (Store P)) : Memory :=
  ws.foldl (fun m w => writeElem P m w.addr w.value) m

/-- The stores of a split-complex vector's elements i, i+1, …, in ascending index (42_fft, StoreX and StoreY). -/
def splitStores (P : Prec) (v : SplitVec) : Nat → List (Option (Cplx (Elem P))) → List (Store P)
  | _, [] => []
  | i, z :: zs =>
    { addr := eaNat v.re v.stride i P, value := z.map Cplx.re } ::
    { addr := eaNat v.im v.stride i P, value := z.map Cplx.im } ::
    splitStores P v (i + 1) zs

/-- StoreX(z) and StoreY(z) of 42_fft. -/
def storeSplit (P : Prec) (m : Memory) (v : SplitVec) (zs : List (Option (Cplx (Elem P)))) : Memory :=
  storeAll P m (splitStores P v 0 zs)

/-- The DMEM offsets of index i of a region: its slot's bytes (R84). -/
def Region.slotAddrs (r : Region) (P : Prec) (i : Nat) : List Nat :=
  (List.range (r.slotBytes P)).map (fun t => eaNat r.base r.stride i P + t)

/-- The DMEM offsets of all bytes of a region's element slots (R84). The bytes between strided elements are not among them. -/
def Region.addrs (r : Region) (P : Prec) : List Nat :=
  (List.range r.count).flatMap (r.slotAddrs P)

/-- The bytes a command may write: the element slots of its write and read-write regions (R92). -/
def writtenAddrs (i : Instr) (L : OperandRegs) : List Nat :=
  ((regions i L).filter Region.written).flatMap (fun r => r.addrs i.prec)

end Sys2Proof.Machine
end

