-- ==== Sys2Proof/Machine/Checks.lean ====
section
/-! DEFINITION. The checks of a command, in the order of 60_exceptions R244: size, table, stage, then stride, alignment, bounds and overlap
over its nonempty regions. (ILLEGAL_CMD, the first of the order, is the decoder's.) -/

namespace Sys2Proof.Machine

/-- "n is a power of two and 2 <= n <= 2^LOG2_NMAX" (41_control R181, 42_fft R195). -/
def validSize (c : Config) (n : Nat) : Bool :=
  n == 2 ^ n.log2 && decide (1 ≤ n.log2) && decide (n.log2 ≤ c.log2NMax)

/-- The commands of 42_fft.md, which require TW_N = N (41_control R183). -/
def Instr.isFft : Instr → Bool
  | .bitrev _ | .bflyF _ _ | .bflyI _ _ | .fftF _ | .fftI _ | .rfftIp _ | .rfftOp _ => true
  | .nop _ | .twbuild _ | .twfree _ | .pack _ | .unpack _ | .conv _ => false

/-- The commands that check their size: TWBUILD and the FFT family (R244 step 2). -/
def Instr.checksSize : Instr → Bool
  | .twbuild _ => true
  | .nop _ | .twfree _ | .pack _ | .unpack _ | .conv _ => false
  | .bitrev _ | .bflyF _ _ | .bflyI _ _ | .fftF _ | .fftI _ | .rfftIp _ | .rfftOp _ => true

/-- R244 step 2: INVALID_SIZE. -/
def sizeError (i : Instr) (s : State) : Option CmdError :=
  if Instr.checksSize i && !validSize s.config s.latch.ops.n.toNat then some { code := .invalidSize, src := none } else none

/-- R244 step 3: SIZE_MISMATCH, also when there is no table (42_fft R195). -/
def tableError (i : Instr) (s : State) : Option CmdError :=
  if Instr.isFft i && s.twN != s.latch.ops.n then some { code := .sizeMismatch, src := none } else none

/-- R244 step 4: INVALID_STAGE unless 1 ≤ s ≤ log2 N (30_encoding R123). -/
def stageError (i : Instr) (s : State) : Option CmdError :=
  match i with
  | .bflyF _ st | .bflyI _ st =>
    if 1 ≤ st ∧ st ≤ s.latch.ops.n.toNat.log2 then none else some { code := .invalidStage, src := none }
  | .nop _ | .twbuild _ | .twfree _ | .bitrev _ | .fftF _ | .fftI _ | .rfftIp _ | .rfftOp _ | .pack _
  | .unpack _ | .conv _ => none

/-- The stride check of one region (20_memory R87). -/
def Region.strideError (r : Region) : Option CmdError :=
  if r.nonempty && r.stride == 0 then some { code := .invalidStride, src := some r.id } else none

/-- The alignment check of one region (20_memory R88). -/
def Region.alignError (r : Region) (P : Prec) : Option CmdError :=
  if r.nonempty && r.base.toNat % P.esize != 0 then some { code := .misaligned, src := some r.id } else none

/-- The bounds check of one region (20_memory R89). -/
def Region.boundsError (r : Region) (c : Config) (P : Prec) : Option CmdError :=
  if r.nonempty && !(decide (0 ≤ r.lo P) && decide (r.hi P ≤ (c.dmemBytes : Int))) then
    some { code := .addrRange, src := some r.id }
  else none

/-- Two nonempty regions overlap when their byte intervals intersect (20_memory R90). -/
def Region.overlaps (a b : Region) (P : Prec) : Bool :=
  a.nonempty && b.nonempty && decide (a.lo P < b.hi P) && decide (b.lo P < a.hi P)

/-- The overlap check of one pair of identifiers (20_memory R90): SRC is the pair's first member. -/
def pairError (rs : List Region) (P : Prec) (p : RegionId × RegionId) : Option CmdError :=
  match rs.find? (fun r => r.id == p.1), rs.find? (fun r => r.id == p.2) with
  | some a, some b => if a.overlaps b P then some { code := .overlap, src := some p.1 } else none
  | some _, none => none
  | none, some _ => none
  | none, none => none

/-- R244 steps 5 to 8 (20_memory R91): all strides, then all alignments, then all bounds, then the overlap pairs in order. -/
def regionError (i : Instr) (s : State) : Option CmdError :=
  let rs := regions i s.latch.ops
  ((rs.findSome? Region.strideError).or (rs.findSome? (fun r => r.alignError i.prec))).or
    ((rs.findSome? (fun r => r.boundsError s.config i.prec)).or ((overlapPairs i).findSome? (pairError rs i.prec)))

/-- The error a command ends with, if any: the first that applies in the order of R244. -/
def commandError (i : Instr) (s : State) : Option CmdError :=
  ((sizeError i s).or (tableError i s)).or ((stageError i s).or (regionError i s))

end Sys2Proof.Machine
end

