-- ==== Sys2Proof/Machine/Control.lean ====
section
/-! DEFINITION. The control commands NOP, TWBUILD and TWFREE (41_control). Each meaning is the completion step of its command (60_exceptions
R246) on the latched operands. PREC is ignored (30_encoding R122). -/

namespace Sys2Proof.Machine

/-- NOP (R180): no effect. -/
def execNop (_P : Prec) (s : State) : Host.Outcome State Fault Refusal := finishOk s.mem s.twN s

/-- TWBUILD (R181): TW_N <- L.N, or INVALID_SIZE and the previous table kept. -/
def execTwbuild (P : Prec) (s : State) : Host.Outcome State Fault Refusal :=
  match commandError (.twbuild P) s with
  | some e => finishError e s
  | none => finishOk s.mem s.latch.ops.n s

/-- TWFREE (R182): TW_N <- 0. -/
def execTwfree (_P : Prec) (s : State) : Host.Outcome State Fault Refusal := finishOk s.mem 0 s

end Sys2Proof.Machine
end

