-- ==== Sys2Proof/Machine/Float.lean ====
section
/-! DEFINITION. IEEE 754 addition, subtraction and multiplication of binary32 and binary64 under roundTiesToEven (00_scope R16, 40_datapath
R150 to R152). Every finite value of a format is a whole number of UNITS of its least subnormal, so an operation is computed exactly in
integers and rounded once, at the end. -/

namespace Sys2Proof.Machine

/-- The width of the fraction field (20_memory R82). -/
def fracBits : Prec → Nat
  | .binary32 => 23
  | .binary64 => 52

/-- The width of the exponent field (20_memory R82). -/
def expBits : Prec → Nat
  | .binary32 => 8
  | .binary64 => 11

/-- The exponent bias: 127 and 1023 (20_memory R82). -/
def bias (P : Prec) : Nat := 2 ^ (expBits P - 1) - 1

/-- One unit, the least subnormal, is 2^−unitPlaces: 149 and 1074. -/
def unitPlaces (P : Prec) : Nat := bias P + fracBits P - 1

/-- The magnitude bits of infinity: exponent field all ones, fraction 0. -/
def infBits (P : Prec) : Nat := (2 ^ expBits P - 1) * 2 ^ fracBits P

/-- What an element means (20_memory R82): a NaN, an infinity, or a signed number of units. -/
inductive FpValue where
  | nan
  | inf (neg : Bool)
  | finite (neg : Bool) (units : Nat)
  deriving DecidableEq, Repr

/-- The fraction field. -/
def fracField (P : Prec) (x : Elem P) : Nat := x.toNat % 2 ^ fracBits P

/-- The biased exponent field. -/
def expField (P : Prec) (x : Elem P) : Nat := x.toNat / 2 ^ fracBits P % 2 ^ expBits P

/-- The value of an element, subnormals at their value (R150). -/
def unpack (P : Prec) (x : Elem P) : FpValue :=
  if expField P x = 2 ^ expBits P - 1 then
    if fracField P x = 0 then .inf x.msb else .nan
  else if expField P x = 0 then .finite x.msb (fracField P x)
  else .finite x.msb ((2 ^ fracBits P + fracField P x) * 2 ^ (expField P x - 1))

/-- The element with a sign and magnitude bits. -/
def withSign (P : Prec) (neg : Bool) (mag : Nat) : Elem P :=
  BitVec.ofNat P.bits ((if neg then 2 ^ (P.bits - 1) else 0) + mag)

/-- A zero of the given sign. -/
def zero (P : Prec) (neg : Bool) : Elem P := withSign P neg 0

/-- An infinity of the given sign. -/
def infinity (P : Prec) (neg : Bool) : Elem P := withSign P neg (infBits P)

/-- `qNaN_P` (40_datapath R151): sign 0, quiet bit 1, the rest of the fraction 0. -/
def qNaN (P : Prec) : Elem P := withSign P false (infBits P + 2 ^ (fracBits P - 1))

/-- n / 2^d to the nearest whole number, ties to even. -/
def roundShift (n d : Nat) : Nat :=
  if 2 ^ d < 2 * (n % 2 ^ d) ∨ (2 * (n % 2 ^ d) = 2 ^ d ∧ n / 2 ^ d % 2 = 1) then n / 2 ^ d + 1 else n / 2 ^ d

/-- The magnitude bits of n / 2^scale units, rounded to nearest even (R150): k is how many units' places the last kept bit stands above
one unit; a carry out of the significand moves into the exponent field, and overflow gives infinity. -/
def roundMag (P : Prec) (n scale : Nat) : Nat :=
  let k := n.log2 - (fracBits P + scale)
  min (k * 2 ^ fracBits P + roundShift n (scale + k)) (infBits P)

/-- ±(n / 2^scale) units, rounded to format P. -/
def roundPack (P : Prec) (neg : Bool) (n scale : Nat) : Elem P := withSign P neg (roundMag P n scale)

/-- A signed number of units. -/
def signed (neg : Bool) (units : Nat) : Int := if neg then -(units : Int) else units

/-- `fneg` (R16): the sign bit flipped. -/
def fneg (P : Prec) (x : Elem P) : Elem P := x ^^^ BitVec.ofNat P.bits (2 ^ (P.bits - 1))

/-- `fadd_P`. An exact zero sum is −0 only when both operands are negative, hence both −0 (R152). -/
def fadd (P : Prec) (a b : Elem P) : Elem P :=
  match unpack P a, unpack P b with
  | .nan, _ => qNaN P
  | .inf _, .nan => qNaN P
  | .finite _ _, .nan => qNaN P
  | .inf s, .inf t => if s = t then infinity P s else qNaN P
  | .inf s, .finite _ _ => infinity P s
  | .finite _ _, .inf t => infinity P t
  | .finite s m, .finite t n =>
    let sum := signed s m + signed t n
    if sum = 0 then zero P (s && t) else roundPack P (decide (sum < 0)) sum.natAbs 0

/-- `fsub_P`: x − y is x + (−y), a NaN operand giving the canonical NaN either way (R151). -/
def fsub (P : Prec) (a b : Elem P) : Elem P := fadd P a (fneg P b)

/-- `fmul_P`. The sign of a product is the exclusive or of the operands' signs, also when it is or rounds to zero (R152). -/
def fmul (P : Prec) (a b : Elem P) : Elem P :=
  match unpack P a, unpack P b with
  | .nan, _ => qNaN P
  | .inf _, .nan => qNaN P
  | .finite _ _, .nan => qNaN P
  | .inf s, .inf t => infinity P (s ^^ t)
  | .inf s, .finite t n => if n = 0 then qNaN P else infinity P (s ^^ t)
  | .finite s m, .inf t => if m = 0 then qNaN P else infinity P (s ^^ t)
  | .finite s m, .finite t n => roundPack P (s ^^ t) (m * n) (unitPlaces P)

/-- 0.5 in format P (42_fft R203). -/
def half (P : Prec) : Elem P := withSign P false ((bias P - 1) * 2 ^ fracBits P)

/-- 1.0 in format P. -/
def one (P : Prec) : Elem P := withSign P false (bias P * 2 ^ fracBits P)

end Sys2Proof.Machine
end

