-- ==== Sys2Proof/Machine/Twiddle.lean ====
section
/-! DEFINITION. The twiddle table (40_datapath R153): RN_P of the exact cosine and sine of 2πj/N. The cosine is enclosed by the half-angle
formula in integers, both ends of the enclosure are rounded, and where they agree the rounding of the exact value is settled; were they
ever to differ the entry is a free value (log 10). -/

namespace Sys2Proof.Machine

/-- The binary places of the enclosure. -/
def twPlaces : Nat := 256

/-- Newton's iteration towards the square root of n, from g. -/
def newton (n : Nat) : Nat → Nat → Nat
  | 0, g => g
  | fuel + 1, g => if g = 0 then 0 else newton n fuel ((g + n / g) / 2)

/-- A guess at the square root of n. -/
def sqrtGuess (n : Nat) : Nat := newton n 14 (2 ^ (n.log2 / 2 + 1))

/-- A lower bound of the square root of n, whatever the guess. -/
def sqrtLo (n : Nat) : Nat :=
  let g := sqrtGuess n
  if g * g ≤ n then g else if (g - 1) * (g - 1) ≤ n then g - 1 else 0

/-- An upper bound of the square root of n, whatever the guess. -/
def sqrtHi (n : Nat) : Nat :=
  let g := sqrtGuess n
  if n ≤ g * g then g else if n ≤ (g + 1) * (g + 1) then g + 1 else n

/-- cos(2πj/2^k) is negative: the angle lies strictly in the second or third quadrant. -/
def cosNeg (j k : Nat) : Bool := decide (2 ^ k < 4 * (j % 2 ^ k)) && decide (4 * (j % 2 ^ k) < 3 * 2 ^ k)

/-- An enclosure [lo, hi] of |cos(2πj/2^k)|, in units of 2^−twPlaces, by |cos(φ/2)| = √((1 + cos φ)/2). -/
def cosEnclosure (j : Nat) : Nat → Nat × Nat
  | 0 => (2 ^ twPlaces, 2 ^ twPlaces)
  | k + 1 =>
    let e := cosEnclosure j k
    let onePlus := if cosNeg j k then (2 ^ twPlaces - e.2, 2 ^ twPlaces - e.1) else (2 ^ twPlaces + e.1, 2 ^ twPlaces + e.2)
    (sqrtLo (onePlus.1 * 2 ^ (twPlaces - 1)), sqrtHi (onePlus.2 * 2 ^ (twPlaces - 1)))

/-- The magnitude bits of v / 2^twPlaces, rounded to format P. -/
def roundFixed (P : Prec) (v : Nat) : Nat := roundMag P (v * 2 ^ unitPlaces P) twPlaces

/-- The rounded magnitude of a value enclosed by e: settled when both ends round alike, free otherwise. -/
def roundEnclosure (P : Prec) (e : Nat × Nat) : Elem P :=
  if roundFixed P e.1 = roundFixed P e.2 then withSign P false (roundFixed P e.1) else Config.freeTwiddle P e.1 e.2

/-- RN_P(cos(2πj/2^k)); a zero result is +0 (R153). -/
def cosRounded (P : Prec) (j k : Nat) : Elem P :=
  if cosNeg j k then fneg P (roundEnclosure P (cosEnclosure j k)) else roundEnclosure P (cosEnclosure j k)

/-- TWC_P[j] of the table of size N = 2^k (R153). -/
def twCos (P : Prec) (k j : Nat) : Elem P := cosRounded P j k

/-- TWS_P[j] of the table of size N = 2^k (R153): sin(2πj/N) = cos(2π(4j + 3N)/(4N)). -/
def twSin (P : Prec) (k j : Nat) : Elem P := cosRounded P (4 * j + 3 * 2 ^ k) (k + 2)

end Sys2Proof.Machine
end

