-- ==== Sys2Proof/Machine/Datapath.lean ====
section
/-! DEFINITION. The datapath primitives (40_datapath R155 to R163) and the real post-processing (42_fft R203), over any arithmetic, and the
arithmetic the unit runs them with: IEEE 754 and the rounded twiddle table. -/

namespace Sys2Proof.Machine

/-- What the dataflow is built from: the operations of 00_scope R16 and the coefficients of a twiddle table. The unit's is `ieee P`; exact
arithmetic, which 40_datapath R162 speaks of, is another. -/
structure Arith (α : Type) where
  add : α → α → α
  sub : α → α → α
  mul : α → α → α
  neg : α → α
  zero : α
  half : α
  /-- TWC[j] of the table of size 2^k, as `twc k j`. -/
  twc : Nat → Nat → α
  /-- TWS[j] of the table of size 2^k, as `tws k j`. -/
  tws : Nat → Nat → α

/-- The unit's arithmetic in format P. -/
def ieee (P : Prec) : Arith (Elem P) :=
  { add := fadd P, sub := fsub P, mul := fmul P, neg := fneg P, zero := zero P false, half := half P,
    twc := twCos P, tws := twSin P }

/-- FWD or INV (R156). -/
inductive Dir where
  | fwd
  | inv
  deriving DecidableEq, Repr

variable {α : Type}

/-- `cadd_P` (00_scope R17). -/
def cadd (A : Arith α) (p v : Cplx α) : Cplx α := { re := A.add p.re v.re, im := A.add p.im v.im }

/-- `csub_P` (00_scope R17). -/
def csub (A : Arith α) (p v : Cplx α) : Cplx α := { re := A.sub p.re v.re, im := A.sub p.im v.im }

/-- The twiddle multiplier (R157): four rounded products, one rounded subtraction, one rounded addition, in this order. -/
def cmul (A : Arith α) (w q : Cplx α) : Cplx α :=
  { re := A.sub (A.mul w.re q.re) (A.mul w.im q.im)
    im := A.add (A.mul w.re q.im) (A.mul w.im q.re) }

/-- The butterfly (R158): one rounded v = w·q feeds both outputs. -/
def bfly (A : Arith α) (p q w : Cplx α) : Cplx α × Cplx α := (cadd A p (cmul A w q), csub A p (cmul A w q))

/-- `rev_k(i)` (R155): the k binary digits of i in reverse order. -/
def bitRevIndex : Nat → Nat → Nat
  | 0, _ => 0
  | k + 1, i => i % 2 * 2 ^ k + bitRevIndex k (i / 2)

/-- The twiddle factor with index t of the table of size 2^k (R156): forward (c, −s), inverse (c, s). -/
def twiddle (A : Arith α) (k t : Nat) : Dir → Cplx α
  | .fwd => { re := A.twc k t, im := A.neg (A.tws k t) }
  | .inv => { re := A.twc k t, im := A.tws k t }

/-- z[i]; the zero element stands where an index is out of a list, which no command's dataflow reaches. -/
def elemAt (A : Arith α) (z : List (Cplx α)) (i : Nat) : Cplx α := z.getD i { re := A.zero, im := A.zero }

/-- Element i of `Stage_P(z, s, dir, 2^k)` (R159): with m = 2^s, h = m/2, the butterfly at position j of the block at b takes z[b+j] and
z[b+j+h] and the twiddle j·(N/m). No two butterflies of a stage share a slot. -/
def stageElem (A : Arith α) (z : List (Cplx α)) (s : Nat) (dir : Dir) (k i : Nat) : Cplx α :=
  let m := 2 ^ s
  let h := m / 2
  let r := i % m
  if r < h then (bfly A (elemAt A z i) (elemAt A z (i + h)) (twiddle A k (r * (2 ^ k / m)) dir)).1
  else (bfly A (elemAt A z (i - h)) (elemAt A z i) (twiddle A k ((r - h) * (2 ^ k / m)) dir)).2

/-- `Stage_P(z, s, dir, N)` with N = 2^k (R159). -/
def stage (A : Arith α) (z : List (Cplx α)) (s : Nat) (dir : Dir) (k : Nat) : List (Cplx α) :=
  (List.range z.length).map (stageElem A z s dir k)

/-- `BitRev(z)` (R160), for a z of 2^k' elements. -/
def bitRev (A : Arith α) (z : List (Cplx α)) : List (Cplx α) :=
  (List.range z.length).map (fun i => elemAt A z (bitRevIndex z.length.log2 i))

/-- The stages 1, 2, …, c in turn (R161). -/
def stages (A : Arith α) (dir : Dir) (k : Nat) : Nat → List (Cplx α) → List (Cplx α)
  | 0, z => z
  | c + 1, z => stage A (stages A dir k c z) (c + 1) dir k

/-- `FFT_P(z, dir, N)` with N = 2^k (R161): the bit reversal, then every stage; no scaling. -/
def fft (A : Arith α) (dir : Dir) (k : Nat) (z : List (Cplx α)) : List (Cplx α) :=
  stages A dir k z.length.log2 (bitRev A z)

/-- Slot 0 of the packed real spectrum (42_fft R203): (DC, Nyquist). -/
def realPostFirst (A : Arith α) (a : Cplx α) : Cplx α := { re := A.add a.re a.im, im := A.sub a.re a.im }

/-- Slot k of the packed real spectrum, 1 ≤ k < H (42_fft R203), from a = Z[k], b = Z[H−k] and the table entries c, s at k. -/
def realPostSlot (A : Arith α) (a b : Cplx α) (c s : α) : Cplx α :=
  let er := A.mul A.half (A.add a.re b.re)
  let ei := A.mul A.half (A.sub a.im b.im)
  let or := A.mul A.half (A.sub a.re b.re)
  let oi := A.mul A.half (A.add a.im b.im)
  let tr := A.sub (A.mul c oi) (A.mul s or)
  let ti := A.sub (A.mul (A.neg c) or) (A.mul s oi)
  { re := A.add er tr, im := A.add ei ti }

/-- Element i of `RealPost_P(Z, 2^k)`. -/
def realPostElem (A : Arith α) (k : Nat) (z : List (Cplx α)) (i : Nat) : Cplx α :=
  if i = 0 then realPostFirst A (elemAt A z 0)
  else realPostSlot A (elemAt A z i) (elemAt A z (z.length - i)) (A.twc k i) (A.tws k i)

/-- `RealPost_P(Z, n)` with n = 2^k (42_fft R203), every slot from the snapshot Z. -/
def realPost (A : Arith α) (k : Nat) (z : List (Cplx α)) : List (Cplx α) :=
  (List.range z.length).map (realPostElem A k z)

/-- A real transform of the packed signal (42_fft R201, R202): the half-length forward FFT on the size-2^k table, then R203. -/
def realFft (A : Arith α) (k : Nat) (z : List (Cplx α)) : List (Cplx α) := realPost A k (fft A .fwd k z)

/-- `dot_P` (R163), on the pairs (a_j, c_j): seeded by the first product, each product rounded before it is added; +0 for none. -/
def dot (A : Arith α) : List (α × α) → α
  | [] => A.zero
  | p :: ps => ps.foldl (fun acc q => A.add acc (A.mul q.1 q.2)) (A.mul p.1 p.2)

end Sys2Proof.Machine
end

