-- ==== Sys2Proof/Machine/Conv.lean ====
section
/-! DEFINITION. The convolution and correlation command (44_conv). -/

namespace Sys2Proof.Machine

/-- The pair (a_j, c_j) of output i (R230); `none` if a byte of either is ⊥. -/
def convTerm (P : Prec) (mem : Memory) (L : OperandRegs) (i j : Nat) : Option (Elem P × Elem P) :=
  match loadElem P mem L.xRe L.xStride (i + j), loadElem P mem L.fBase L.fStride j with
  | some a, some c => some (a, c)
  | some _, none => none
  | none, some _ => none
  | none, none => none

/-- Output i of CONV (R230): the dot product of window i with the filter, unspecified when it depends on a ⊥ byte (20_memory R99). -/
def convOutput (P : Prec) (mem : Memory) (L : OperandRegs) (i : Nat) : Option (Elem P) :=
  (allSome ((List.range L.flen.toNat).map (convTerm P mem L i))).map (dot (ieee P))

/-- The store of output i. -/
def convStore (P : Prec) (mem : Memory) (L : OperandRegs) (i : Nat) : Store P :=
  { addr := eaNat L.yRe L.yStride i P, value := convOutput P mem L i }

/-- CONV (R230): R = LEN outputs, each from a snapshot of DMEM. -/
def execConv (P : Prec) (s : State) : Host.Outcome State Fault Refusal :=
  match commandError (.conv P) s with
  | some e => finishError e s
  | none =>
    finishOk (storeAll P s.mem ((List.range s.latch.ops.len.toNat).map (convStore P s.mem s.latch.ops))) s.twN s

end Sys2Proof.Machine
end

