-- ==== Sys2Proof/Machine/Fft.lean ====
section
/-! DEFINITION. The FFT commands (42_fft). Each meaning is the completion step of its command: the checks of R195 and R244, then the whole
input vector is read, transformed and written (R198). -/

namespace Sys2Proof.Machine

/-- The vector a command of the FFT family writes: the transform of a wholly specified input; where an input byte is ⊥, "mark the whole
written region ⊥" (93 I2, log 9). -/
def fftOutput (P : Prec) (f : List (Cplx (Elem P)) → List (Cplx (Elem P))) (n : Nat) : Option (List (Cplx (Elem P))) → List (Option (Cplx (Elem P)))
  | some z => (f z).map some
  | none => List.replicate n none

/-- DMEM after a command that reads n elements of `src`, transforms them by f and writes them to `dst` (R198, R202). -/
def transform (P : Prec) (m : Memory) (src dst : SplitVec) (n : Nat) (f : List (Cplx (Elem P)) → List (Cplx (Elem P))) : Memory :=
  storeSplit P m dst (fftOutput P f n (loadSplit P m src n))

/-- log2 of the latched transform size. -/
def State.log2N (s : State) : Nat := s.latch.ops.n.toNat.log2

/-- BITREV (R190). -/
def execBitrev (P : Prec) (s : State) : Host.Outcome State Fault Refusal :=
  match commandError (.bitrev P) s with
  | some e => finishError e s
  | none =>
    finishOk (transform P s.mem s.latch.ops.x s.latch.ops.x s.latch.ops.n.toNat (bitRev (ieee P))) s.twN s

/-- BFLY.F s (R191). -/
def execBflyF (P : Prec) (st : Nat) (s : State) : Host.Outcome State Fault Refusal :=
  match commandError (.bflyF P st) s with
  | some e => finishError e s
  | none =>
    finishOk (transform P s.mem s.latch.ops.x s.latch.ops.x s.latch.ops.n.toNat
      (fun z => stage (ieee P) z st .fwd s.log2N)) s.twN s

/-- BFLY.I s (R192). -/
def execBflyI (P : Prec) (st : Nat) (s : State) : Host.Outcome State Fault Refusal :=
  match commandError (.bflyI P st) s with
  | some e => finishError e s
  | none =>
    finishOk (transform P s.mem s.latch.ops.x s.latch.ops.x s.latch.ops.n.toNat
      (fun z => stage (ieee P) z st .inv s.log2N)) s.twN s

/-- FFT.F (R193). -/
def execFftF (P : Prec) (s : State) : Host.Outcome State Fault Refusal :=
  match commandError (.fftF P) s with
  | some e => finishError e s
  | none =>
    finishOk (transform P s.mem s.latch.ops.x s.latch.ops.x s.latch.ops.n.toNat (fft (ieee P) .fwd s.log2N)) s.twN s

/-- FFT.I (R194): unscaled. -/
def execFftI (P : Prec) (s : State) : Host.Outcome State Fault Refusal :=
  match commandError (.fftI P) s with
  | some e => finishError e s
  | none =>
    finishOk (transform P s.mem s.latch.ops.x s.latch.ops.x s.latch.ops.n.toNat (fft (ieee P) .inv s.log2N)) s.twN s

/-- RFFT.IP (R201): H = n/2 slots of X, in place. -/
def execRfftIp (P : Prec) (s : State) : Host.Outcome State Fault Refusal :=
  match commandError (.rfftIp P) s with
  | some e => finishError e s
  | none =>
    finishOk (transform P s.mem s.latch.ops.x s.latch.ops.x (s.latch.ops.n.toNat / 2) (realFft (ieee P) s.log2N)) s.twN s

/-- RFFT.OP (R202): H = n/2 slots of X into Y; no X slot is written. -/
def execRfftOp (P : Prec) (s : State) : Host.Outcome State Fault Refusal :=
  match commandError (.rfftOp P) s with
  | some e => finishError e s
  | none =>
    finishOk (transform P s.mem s.latch.ops.x s.latch.ops.y (s.latch.ops.n.toNat / 2) (realFft (ieee P) s.log2N)) s.twN s

end Sys2Proof.Machine
end

