-- ==== Sys2Proof/Machine/Pack.lean ====
section
/-! DEFINITION. The packing commands (43_pack): they move element bit patterns, from a snapshot of DMEM, in ascending index. -/

namespace Sys2Proof.Machine

/-- The stores of pair m of PACK (R220): x[2m] and x[2m+1] to the real and the imaginary array. -/
def packStores (P : Prec) (mem : Memory) (L : OperandRegs) (m : Nat) : List (Store P) :=
  [{ addr := eaNat L.yRe L.yStride m P, value := readElem P mem (eaNat L.xRe L.xStride m P) },
   { addr := eaNat L.yIm L.yStride m P, value := readElem P mem (eaNat L.xRe L.xStride m P + P.esize) }]

/-- The stores of pair m of UNPACK (R221): the real and the imaginary element to the first and second element of the pair. -/
def unpackStores (P : Prec) (mem : Memory) (L : OperandRegs) (m : Nat) : List (Store P) :=
  [{ addr := eaNat L.yRe L.yStride m P, value := loadElem P mem L.xRe L.xStride m },
   { addr := eaNat L.yRe L.yStride m P + P.esize, value := loadElem P mem L.xIm L.xStride m }]

/-- PACK (R220). -/
def execPack (P : Prec) (s : State) : Host.Outcome State Fault Refusal :=
  match commandError (.pack P) s with
  | some e => finishError e s
  | none =>
    finishOk (storeAll P s.mem ((List.range s.latch.ops.len.toNat).flatMap (packStores P s.mem s.latch.ops))) s.twN s

/-- UNPACK (R221): with |Y_STRIDE| = 1 consecutive pairs share an element and the later write wins. -/
def execUnpack (P : Prec) (s : State) : Host.Outcome State Fault Refusal :=
  match commandError (.unpack P) s with
  | some e => finishError e s
  | none =>
    finishOk (storeAll P s.mem ((List.range s.latch.ops.len.toNat).flatMap (unpackStores P s.mem s.latch.ops))) s.twN s

end Sys2Proof.Machine
end

