-- ==== Sys2Proof/Machine/Dispatch.lean ====
section
/-! DEFINITION. One arm per command of the opcode table: the completion step (60_exceptions R246) of an accepted command that decodes. -/

namespace Sys2Proof.Machine

def exec (i : Instr) (s : State) : Host.Outcome State Fault Refusal :=
  match i with
  -- 41_control
  | .nop P => Sys2Proof.Machine.execNop P s
  | .twbuild P => Sys2Proof.Machine.execTwbuild P s
  | .twfree P => Sys2Proof.Machine.execTwfree P s
  -- 42_fft
  | .bitrev P => Sys2Proof.Machine.execBitrev P s
  | .bflyF P st => Sys2Proof.Machine.execBflyF P st s
  | .bflyI P st => Sys2Proof.Machine.execBflyI P st s
  | .fftF P => Sys2Proof.Machine.execFftF P s
  | .fftI P => Sys2Proof.Machine.execFftI P s
  | .rfftIp P => Sys2Proof.Machine.execRfftIp P s
  | .rfftOp P => Sys2Proof.Machine.execRfftOp P s
  -- 43_pack
  | .pack P => Sys2Proof.Machine.execPack P s
  | .unpack P => Sys2Proof.Machine.execUnpack P s
  -- 44_conv
  | .conv P => Sys2Proof.Machine.execConv P s

end Sys2Proof.Machine
end

