-- ==== Sys2Proof/WellFormed.lean ====
section
/-! DEFINITION. Which instructions have a command word, and which configurations the spec allows. -/

namespace Sys2Proof

/-- A command fits its word when its stage fits the five bits of STAGE (30_encoding R120, R123). Whether a stage is LEGAL for a size
is the command's own check (INVALID_STAGE, R240), not a matter of form. -/
def Instr.wf (i : Instr) : Bool := decide (i.stage < 32)

/-- The configurations of 00_scope R7 (10 ≤ LOG2_NMAX ≤ 24), R8 (12 ≤ LOG2_DMEM_BYTES ≤ 24) and R9 (UNIT_BASE 32 MiB aligned). -/
def Config.wf (c : Config) : Bool :=
  decide (10 ≤ c.log2NMax) && decide (c.log2NMax ≤ 24)
    && decide (12 ≤ c.log2DmemBytes) && decide (c.log2DmemBytes ≤ 24)
    && decide (c.unitBase % 2 ^ 25 = 0)

end Sys2Proof
end

