-- ==== Sys2Proof/Decode.lean ====
section
/-! DEFINITION. Decoding of command words (30_encoding R120 to R126), total on every 32-bit word, and the encoder (R128, R130). -/

namespace Sys2Proof

/-- Why a word is ILLEGAL (R125). All three are the one error ILLEGAL_CMD of 60_exceptions R240. -/
inductive DecodeError where
  /-- RSV0 (bit 7) or RSV1 (bits [31:13]) is not 0 (R124). -/
  | reservedBits
  /-- OP is not in the opcode map (R121). -/
  | reservedOp
  /-- STAGE is not 0 in a command other than BFLY.F and BFLY.I (R123). -/
  | strayStage
  deriving DecidableEq, Repr

/-- The field `v[lo+len-1 : lo]` as an unsigned integer (R11). -/
def field (w : Word) (lo len : Nat) : Nat := w.toNat / 2 ^ lo % 2 ^ len

/-- The opcode map of R121. -/
def Instr.ofOp (op : Nat) (P : Prec) (s : Nat) : Option Instr :=
  match op with
  | 0x00 => some (.nop P)
  | 0x01 => some (.twbuild P)
  | 0x02 => some (.twfree P)
  | 0x08 => some (.bitrev P)
  | 0x09 => some (.bflyF P s)
  | 0x0A => some (.bflyI P s)
  | 0x0B => some (.fftF P)
  | 0x0C => some (.fftI P)
  | 0x0D => some (.rfftIp P)
  | 0x0E => some (.rfftOp P)
  | 0x10 => some (.pack P)
  | 0x11 => some (.unpack P)
  | 0x18 => some (.conv P)
  | _ => none

/-- PREC, bit 6 (R122). -/
def Prec.ofBit (b : Nat) : Prec := if b = 0 then .binary32 else .binary64

/-- `decode` of R125. -/
def decode (w : Word) : Except DecodeError Instr :=
  if field w 7 1 ≠ 0 ∨ field w 13 19 ≠ 0 then .error .reservedBits
  else
    match Instr.ofOp (field w 0 6) (Prec.ofBit (field w 6 1)) (field w 8 5) with
    | none => .error .reservedOp
    | some i => if i.stage ≠ field w 8 5 then .error .strayStage else .ok i

/-- The OP field of a command (R121). -/
def Instr.op : Instr → Nat
  | .nop _ => 0x00
  | .twbuild _ => 0x01
  | .twfree _ => 0x02
  | .bitrev _ => 0x08
  | .bflyF _ _ => 0x09
  | .bflyI _ _ => 0x0A
  | .fftF _ => 0x0B
  | .fftI _ => 0x0C
  | .rfftIp _ => 0x0D
  | .rfftOp _ => 0x0E
  | .pack _ => 0x10
  | .unpack _ => 0x11
  | .conv _ => 0x18

/-- The PREC bit of a precision (R122). -/
def Prec.bit : Prec → Nat
  | .binary32 => 0
  | .binary64 => 1

/-- The assembled word of R128: `OP | (PREC << 6) | (s << 8)`. -/
def encode (i : Instr) : Word :=
  BitVec.ofNat 32 (i.op ||| (i.prec.bit <<< 6) ||| (i.stage <<< 8))

/-- The instruction an instruction word of `nbits` bits decodes to, its bits numbered as the opcode table numbers them; none where the
decoder refuses it. A command is one 32-bit word and never lies in memory (R104, R120), so there is no byte order to undo. -/
def decodeTableWord (nbits w : Nat) : Option Instr :=
  match decode (BitVec.ofNat 32 (w % 2 ^ nbits)) with
  | .ok i => some i
  | .error _ => none

end Sys2Proof
end

