-- ==== Sys2Proof/Machine/Port.lean ====
section
/-! DEFINITION. The host port (20_memory section 5), the register map (10_state section 2) and the observation of a run (70_reset R292). -/

namespace Sys2Proof.Machine

/-- The registers of the map of 10_state section 2. -/
inductive Reg where
  | id | version | cap | ctrl | status | errcode | cmd | n | twN | len | flen
  | xRe | xIm | xStride | yRe | yIm | yStride | fBase | fStride
  deriving DecidableEq, Repr

/-- The register at an offset of the register window; `none` is a reserved offset (10_state R49). -/
def Reg.ofOffset (o : Nat) : Option Reg :=
  match o with
  | 0x000 => some .id
  | 0x004 => some .version
  | 0x008 => some .cap
  | 0x00C => some .ctrl
  | 0x010 => some .status
  | 0x014 => some .errcode
  | 0x018 => some .cmd
  | 0x01C => some .n
  | 0x020 => some .twN
  | 0x024 => some .len
  | 0x028 => some .flen
  | 0x030 => some .xRe
  | 0x034 => some .xIm
  | 0x038 => some .xStride
  | 0x040 => some .yRe
  | 0x044 => some .yIm
  | 0x048 => some .yStride
  | 0x050 => some .fBase
  | 0x054 => some .fStride
  | _ => none

/-- The value a register reads as; reads have no side effects (R93). -/
def State.readReg (r : Reg) (s : State) : Word :=
  match r with
  | .id => idValue
  | .version => versionValue
  | .cap => capValue s.config
  | .ctrl => s.ctrl
  | .status => s.status
  | .errcode => s.errcode
  | .cmd => s.lastCmd
  | .n => s.regs.n
  | .twN => s.twN
  | .len => s.regs.len
  | .flen => s.regs.flen
  | .xRe => s.regs.xRe
  | .xIm => s.regs.xIm
  | .xStride => s.regs.xStride
  | .yRe => s.regs.yRe
  | .yIm => s.regs.yIm
  | .yStride => s.regs.yStride
  | .fBase => s.regs.fBase
  | .fStride => s.regs.fStride

/-- A write of v to a register: read-only registers ignore it, operand registers store all 32 bits (R49), CTRL, STATUS and CMD have
their side effects (R35, R36, R38). -/
def State.writeReg (r : Reg) (v : Word) (s : State) : State :=
  match r with
  | .id | .version | .cap | .errcode | .twN => s
  | .ctrl => s.writeCtrl v
  | .status => s.writeStatus v
  | .cmd => s.writeCmd v
  | .n => { s with regs := { s.regs with n := v } }
  | .len => { s with regs := { s.regs with len := v } }
  | .flen => { s with regs := { s.regs with flen := v } }
  | .xRe => { s with regs := { s.regs with xRe := v } }
  | .xIm => { s with regs := { s.regs with xIm := v } }
  | .xStride => { s with regs := { s.regs with xStride := v } }
  | .yRe => { s with regs := { s.regs with yRe := v } }
  | .yIm => { s with regs := { s.regs with yIm := v } }
  | .yStride => { s with regs := { s.regs with yStride := v } }
  | .fBase => { s with regs := { s.regs with fBase := v } }
  | .fStride => { s with regs := { s.regs with fStride := v } }

/-- What a read of a register-window word gives: reserved offsets read 0 (R49). -/
def State.readWord (o : Nat) (s : State) : Word :=
  match Reg.ofOffset o with
  | some r => s.readReg r
  | none => 0

/-- A write of a register-window word: writes to reserved offsets are ignored (R49). -/
def State.writeWord (o : Nat) (v : Word) (s : State) : State :=
  match Reg.ofOffset o with
  | some r => s.writeReg r v
  | none => s

/-- The bytes of a host access. -/
def Width.bytes : Width → Nat
  | .w8 => 1
  | .w16 => 2
  | .w32 => 4
  | .w64 => 8

/-- Where an access falls in the window (R80). -/
inductive Target where
  | register (offset : Nat)
  | dmem (offset : Nat)
  | unmapped
  deriving DecidableEq, Repr

/-- The first window offset of DMEM (R80). -/
def dmemBase : Nat := 0x01000000

/-- The window map of R80. -/
def Access.target (a : Access) (c : Config) : Target :=
  if a.offset.toNat < 0x1000 then .register a.offset.toNat
  else if dmemBase ≤ a.offset.toNat ∧ a.offset.toNat < dmemBase + c.dmemBytes then .dmem (a.offset.toNat - dmemBase)
  else .unmapped

/-- An access that ends with ERROR and "writes nothing and, for a read, returns 0 in the data" (R96). -/
def State.busError (a : Access) (s : State) : State :=
  s.respond { status := .error, data := match a.op with | .read => some 0 | .write _ => none }

/-- A register-window access (R96): only aligned 32-bit accesses are performed. -/
def State.accessRegister (a : Access) (o : Nat) (s : State) : State :=
  if a.width = .w32 ∧ o % 4 = 0 then
    match a.op with
    | .read => s.respond { status := .ok, data := some (BitVec.ofNat 64 (s.readWord o).toNat) }
    | .write v => (s.writeWord o (BitVec.ofNat 32 v.toNat)).respond { status := .ok, data := none }
  else s.busError a

/-- A DMEM access (R97): naturally aligned accesses are performed little-endian; a misaligned one ends with ERROR and writes nothing,
and the spec gives its response no data (log 5). A read of ⊥ bytes draws a free value for each byte (log 8). -/
def State.accessDmem (a : Access) (d : Nat) (s : State) : State :=
  if d % a.width.bytes = 0 then
    match a.op with
    | .read =>
      ({ s with fresh := s.fresh + a.width.bytes } : State).respond
        { status := .ok, data := some (BitVec.ofNat 64 (s.mem.readFree d s.fresh a.width.bytes)) }
    | .write v =>
      ({ s with mem := s.mem.writeLE d a.width.bytes v.toNat } : State).respond { status := .ok, data := none }
  else s.respond { status := .error, data := none }

/-- A host access is performed and gets its response (R95). -/
def State.access (a : Access) (s : State) : State :=
  match a.target s.config with
  | .register o => s.accessRegister a o
  | .dmem d => s.accessDmem a d
  | .unmapped => s.busError a

/-- DMEM accesses are held while BUSY; register accesses never are (R98). -/
def Access.held (a : Access) (c : Config) : Bool :=
  match a.target c with
  | .dmem _ => true
  | .register _ => false
  | .unmapped => false

/-- The window offset of a host physical address: the window is the 32 MiB from UNIT_BASE (00_scope R9, R80). -/
def Config.windowOffset (c : Config) (address : Nat) : Option (BitVec 25) :=
  if c.unitBase ≤ address ∧ address < c.unitBase + 2 ^ 25 then some (BitVec.ofNat 25 (address - c.unitBase)) else none

/-- Every register of the map, by rising offset (10_state section 2). -/
def Reg.all : List Reg :=
  [.id, .version, .cap, .ctrl, .status, .errcode, .cmd, .n, .twN, .len, .flen, .xRe, .xIm, .xStride, .yRe, .yIm, .yStride, .fBase, .fStride]

/-- What a run is judged by: "the final DMEM contents, the registers and TW_N" (70_reset R292). -/
structure Observation where
  mem : Memory
  /-- The registers as they read, by rising offset. -/
  registers : List Word
  twN : Word
  deriving DecidableEq, Repr

/-- The observation a state gives (70_reset R292): not how long a command took, which accesses were held or what IRQ was. -/
def State.observation (s : State) : Observation :=
  { mem := s.mem, registers := Reg.all.map (fun r => s.readReg r), twN := s.twN }

end Sys2Proof.Machine
end

