-- ==== Sys2Proof/Machine/Sched.lean ====
section
/-! DEFINITION. Hardware reset (70_reset R280, R283), what the outside does (60_exceptions R260), whose step is next (00_scope R22), and one
port access or reset step. -/

namespace Sys2Proof.Machine

/-- The bytes a hardware reset makes ⊥ (70_reset R283): those of the element slots of the write regions of a command in flight. A command
that would fail its checks has none (log 13). -/
def State.inFlightAddrs (s : State) : List Nat :=
  match s.eng, decode s.latch.cmd with
  | .busy, .ok i => if (commandError i s).isNone then writtenAddrs i s.latch.ops else []
  | .busy, .error _ => []
  | .idle, .ok _ => []
  | .idle, .error _ => []

/-- Hardware reset without power loss (70_reset R280, R283): every register at its reset value, a command in flight abandoned, DMEM
retained but for its write regions. -/
def State.hardReset (s : State) : State :=
  ({ s with mem := s.inFlightAddrs.foldl (fun m a => m.writeByte a none) s.mem } : State).softReset

/-- What the outside does to the unit (60_exceptions R260, 70_reset R280, R281). -/
inductive Stimulus where
  /-- A host access arrives at the port. -/
  | access (a : Access)
  /-- The reset input is asserted. -/
  | assertReset
  /-- The reset input is released. -/
  | releaseReset
  /-- Power is lost and applied again. -/
  | powerCycle
  deriving DecidableEq, Repr

/-- The state after a stimulus. Asserting the reset input resets the unit at once (70_reset R280), so that a pulse with no step in it does too;
an access still at the port when the input is released was there during reset (log 14). A power cycle gives the state after power-on
(70_reset R281), and the draw counter runs on, so that no free value is drawn twice (logs 7, 23). -/
def State.stimulate (x : Stimulus) (s : State) : State :=
  match x with
  | .access a => { s with port := s.port ++ [a] }
  | .assertReset => { s.hardReset with resetPin := true }
  | .releaseReset => { s with resetPin := false, accessInReset := s.accessInReset || (s.resetPin && !s.port.isEmpty) }
  | .powerCycle => { State.powerOn s.config with fresh := s.fresh }

/-- Whose step is next. -/
inductive Turn where
  /-- A host access is, or was, at the port during reset. -/
  | violation
  /-- The reset input is asserted. -/
  | reset
  /-- The port performs its oldest access. -/
  | port (a : Access) (rest : List Access)
  /-- The engine completes the command in flight. -/
  | completion
  /-- The unit is IDLE with nothing at its port. -/
  | wait
  deriving DecidableEq, Repr

/-- First a host access during reset (93 I11), then reset. IDLE: the port performs its oldest access, or the unit waits (70_reset R284).
BUSY: the completion is due when the port is empty, when its oldest access is held (20_memory R98), or when the free latency is used up;
until then register accesses go first (60_exceptions R247, log 6). -/
def State.turn (s : State) : Turn :=
  if s.accessInReset || (s.resetPin && !s.port.isEmpty) then .violation
  else if s.resetPin then .reset
  else
    match s.eng, s.port with
    | .idle, [] => .wait
    | .idle, a :: rest => .port a rest
    | .busy, [] => .completion
    | .busy, a :: rest => if a.held s.config || s.delay == 0 then .completion else .port a rest

/-- The port performs access a, leaving `rest` (R95). -/
def portStep (a : Access) (rest : List Access) (s : State) : Host.Outcome State Fault Refusal :=
  .next (({ s with port := rest, delay := s.delay - 1 } : State).access a)

/-- A step with the reset input asserted keeps every piece of state at its reset value (70_reset R280). -/
def resetStep (s : State) : Host.Outcome State Fault Refusal := .next s.hardReset

/-- A host access during reset stops the machine (93 I11, log 14). -/
def violationStep (_s : State) : Host.Outcome State Fault Refusal := .fault .hostAccessDuringReset

end Sys2Proof.Machine
end

