-- ==== Sys2Proof/Machine/Step.lean ====
section
/-! DEFINITION. One step of the machine. -/

namespace Sys2Proof.Machine

/-- One step: of the reset input, of the port, or of the engine, which completes the command in flight by running the instruction the
latched word decodes to (10_state R38, 60_exceptions R246). -/
def step (s : State) : Host.Outcome State Fault Refusal :=
  match s.turn with
  | .violation => violationStep s
  | .reset => resetStep s
  | .port a rest => portStep a rest s
  | .completion =>
    match decode s.latch.cmd with
    | .ok i => exec i s
    | .error _ => completeIllegal s
  | .wait => .next s

/-- The state in which the next step runs the command word w of nbits bits. The unit fetches nothing (10_state R31): a command runs
because the host wrote it to CMD, and this is the state after that write was accepted (log 4). -/
def State.withFetchWord (s : State) (nbits w : Nat) : State := s.placeCommand (BitVec.ofNat 32 (w % 2 ^ nbits))

end Sys2Proof.Machine
end

