-- ==== Sys2Proof/Safety.lean ====
section
/-! DEFINITION. What claims about the unit are stated in: when a command passes its checks, written from the rules and not from the checks'
code; the states a completion leaves; the machine's invariant; and what an element's bits mean as a number. -/

namespace Sys2Proof.Machine

/-- "a power of two and 2 <= n <= 2^LOG2_NMAX" (41_control R181, 42_fft R195). -/
def SizeOk (c : Config) (n : Nat) : Prop := ∃ k, 1 ≤ k ∧ k ≤ c.log2NMax ∧ n = 2 ^ k

/-- BFLY.F or BFLY.I. -/
def Instr.isBfly : Instr → Bool
  | .bflyF _ _ | .bflyI _ _ => true
  | .nop _ | .twbuild _ | .twfree _ | .bitrev _ | .fftF _ | .fftI _ | .rfftIp _ | .rfftOp _ | .pack _ | .unpack _
  | .conv _ => false

/-- 1 ≤ s ≤ log2 n, for n a power of two (30_encoding R123). -/
abbrev StageOk (i : Instr) (n : Nat) : Prop := Instr.isBfly i = true → 1 ≤ i.stage ∧ 2 ^ i.stage ≤ n

/-- A nonempty region with stride 0 (20_memory R87). -/
abbrev Region.BadStride (r : Region) : Prop := r.count ≠ 0 ∧ r.stride = 0

/-- A nonempty region whose base is not a multiple of the element size (20_memory R88). -/
abbrev Region.Misaligned (r : Region) (P : Prec) : Prop := r.count ≠ 0 ∧ r.base.toNat % P.esize ≠ 0

/-- Every slot of the region lies in DMEM (60_exceptions R240, code 7). -/
abbrev Region.SlotsInside (r : Region) (c : Config) (P : Prec) : Prop :=
  ∀ i, i < r.count → 0 ≤ ea r.base r.stride i P ∧ ea r.base r.stride i P + r.slotBytes P ≤ c.dmemBytes

/-- A nonempty region with a slot outside DMEM. -/
abbrev Region.Outside (r : Region) (c : Config) (P : Prec) : Prop := r.count ≠ 0 ∧ ¬ r.SlotsInside c P

/-- Two nonempty regions whose byte intervals intersect (20_memory R90). -/
abbrev Region.Meets (a b : Region) (P : Prec) : Prop :=
  a.count ≠ 0 ∧ b.count ≠ 0 ∧ a.lo P < b.hi P ∧ b.lo P < a.hi P

/-- The pair of identifiers p names two regions of rs that meet. -/
abbrev PairMeets (rs : List Region) (P : Prec) (p : RegionId × RegionId) : Prop :=
  ∃ a ∈ rs, ∃ b ∈ rs, a.id = p.1 ∧ b.id = p.2 ∧ a.Meets b P

/-- The size check passes or is not made (60_exceptions R244 step 2). -/
def SizePasses (i : Instr) (s : State) : Prop := Instr.checksSize i = true → SizeOk s.config s.latch.ops.n.toNat

/-- The table check passes or is not made (R244 step 3). -/
abbrev TablePasses (i : Instr) (s : State) : Prop := Instr.isFft i = true → s.twN = s.latch.ops.n

/-- The stage check passes or is not made (R244 step 4). -/
abbrev StagePasses (i : Instr) (s : State) : Prop := StageOk i s.latch.ops.n.toNat

/-- Every check of R244 passes: the command runs. -/
structure Accepts (i : Instr) (s : State) : Prop where
  size : SizePasses i s
  table : TablePasses i s
  stage : StagePasses i s
  stride : ∀ r ∈ regions i s.latch.ops, ¬ r.BadStride
  align : ∀ r ∈ regions i s.latch.ops, ¬ r.Misaligned i.prec
  bounds : ∀ r ∈ regions i s.latch.ops, ¬ r.Outside s.config i.prec
  overlap : ∀ p ∈ overlapPairs i, ¬ PairMeets (regions i s.latch.ops) i.prec p

/-- x is the first element of l with property p. -/
def IsFirst {α : Type} (l : List α) (p : α → Prop) (x : α) : Prop :=
  ∃ before after, l = before ++ x :: after ∧ p x ∧ ∀ y ∈ before, ¬ p y

/-- The error of a command whose word decodes, as the order of R244 (steps 2 to 8) gives it. -/
inductive FirstError (i : Instr) (s : State) : CmdError → Prop where
  | size (h : ¬ SizePasses i s) : FirstError i s { code := .invalidSize, src := none }
  | table (h : SizePasses i s) (ht : ¬ TablePasses i s) : FirstError i s { code := .sizeMismatch, src := none }
  | stage (h : SizePasses i s) (ht : TablePasses i s) (hs : ¬ StagePasses i s) :
      FirstError i s { code := .invalidStage, src := none }
  | stride (h : SizePasses i s) (ht : TablePasses i s) (hs : StagePasses i s) (r : Region)
      (hr : IsFirst (regions i s.latch.ops) Region.BadStride r) :
      FirstError i s { code := .invalidStride, src := some r.id }
  | align (h : SizePasses i s) (ht : TablePasses i s) (hs : StagePasses i s)
      (h5 : ∀ r ∈ regions i s.latch.ops, ¬ r.BadStride) (r : Region)
      (hr : IsFirst (regions i s.latch.ops) (fun r => r.Misaligned i.prec) r) :
      FirstError i s { code := .misaligned, src := some r.id }
  | bounds (h : SizePasses i s) (ht : TablePasses i s) (hs : StagePasses i s)
      (h5 : ∀ r ∈ regions i s.latch.ops, ¬ r.BadStride) (h6 : ∀ r ∈ regions i s.latch.ops, ¬ r.Misaligned i.prec)
      (r : Region) (hr : IsFirst (regions i s.latch.ops) (fun r => r.Outside s.config i.prec) r) :
      FirstError i s { code := .addrRange, src := some r.id }
  | overlap (h : SizePasses i s) (ht : TablePasses i s) (hs : StagePasses i s)
      (h5 : ∀ r ∈ regions i s.latch.ops, ¬ r.BadStride) (h6 : ∀ r ∈ regions i s.latch.ops, ¬ r.Misaligned i.prec)
      (h7 : ∀ r ∈ regions i s.latch.ops, ¬ r.Outside s.config i.prec) (p : RegionId × RegionId)
      (hp : IsFirst (overlapPairs i) (PairMeets (regions i s.latch.ops) i.prec) p) :
      FirstError i s { code := .overlap, src := some p.1 }

/-- The state a successful completion leaves when no soft reset is pending (60_exceptions R246). The latch, unspecified outside BUSY
(10_state R50), stays as it was: the model's choice (log 3). -/
def State.succeeded (m : Memory) (tw : Word) (s : State) : State :=
  { s with mem := m, twN := tw, errCode := .success, errSrc := none, done := true, eng := .idle }

/-- The state a completion with an error leaves when no soft reset is pending (R243, R246). The latch stays as it was: the model's choice
(log 3). -/
def State.failed (e : CmdError) (s : State) : State :=
  { s with errCode := e.code, errSrc := e.src, err := true, done := true, eng := .idle }

/-- The values a soft reset leaves (R57, R282): what a state t holds after s was reset, DMEM aside. The latch, which R57 leaves unspecified,
stays as it was: the model's choice (log 3). -/
def ResetRegisters (s t : State) : Prop :=
  t = { s with
    ieDone := false, ieErr := false, srstPending := false, eng := .idle, done := false, err := false, ovr := false
    errCode := .success, errSrc := none, lastCmd := 0
    regs := { n := 0, len := 0, flen := 0, xRe := 0, xIm := 0, xStride := 0, yRe := 0, yIm := 0, yStride := 0, fBase := 0, fStride := 0 }
    twN := 0, mem := t.mem }

/-- The codes whose ERRCODE.SRC is a region identifier (R240, 10_state R37). -/
def ErrCode.hasRegion : ErrCode → Bool
  | .invalidStride | .misaligned | .addrRange | .overlap => true
  | .success | .illegalCmd | .invalidSize | .sizeMismatch | .invalidStage => false

/-- The invariant of the machine. -/
structure State.Inv (s : State) : Prop where
  /-- The configuration is one the spec allows (00_scope R7 to R9). -/
  config : s.config.wf = true
  /-- DMEM is in its canonical form. -/
  memSorted : s.mem.wf
  /-- DMEM has no byte outside its DMEM_BYTES bytes (20_memory R80). -/
  memInside : ∀ c ∈ s.mem, c.1 < s.config.dmemBytes
  /-- TW_N ∈ {0} ∪ {2^k : 1 ≤ k ≤ LOG2_NMAX} (10_state R52). -/
  table : s.twN = 0 ∨ SizeOk s.config s.twN.toNat
  /-- A soft reset is pending only while BUSY (10_state R35). -/
  pending : s.eng = .idle → s.srstPending = false
  /-- ERRCODE.SRC is a region for the codes 5 to 8 and 0 for every other (10_state R37). -/
  source : s.errSrc.isSome = s.errCode.hasRegion
  /-- While the reset input is asserted every register is at its reset value (70_reset R280). -/
  held : s.resetPin = true → ResetRegisters s s

/-- The end of a run (70_reset R292): the host's accesses are all performed, ENG = IDLE, no soft reset is pending. -/
abbrev State.Final (s : State) : Prop := s.port = [] ∧ s.eng = .idle ∧ s.srstPending = false

/-- The observation of a run that has ended in s, none where s is not final (70_reset R292). -/
def State.finalObservation (s : State) : Option Observation := if s.Final then some s.observation else none

/-- The commands one after another, each accepted with the same operand registers L: every completion step in turn. -/
def runAll (L : OperandRegs) : List Instr → State → Host.Outcome State Fault Refusal
  | [], s => .next s
  | i :: is, s =>
    match exec i { s with latch := { cmd := encode i, ops := L } } with
    | .next t => runAll L is t
    | .fault f => .fault f
    | .refused r => .refused r

/-- R157 and R158 written out in the rounded operations: with w = (wr, wi), the four rounded products, one rounded subtraction and one rounded
addition give v, and the one v feeds both outputs. -/
def roundedButterfly (P : Prec) (wr wi : Elem P) (p q : Cplx (Elem P)) : Cplx (Elem P) × Cplx (Elem P) :=
  let vr := fsub P (fmul P wr q.re) (fmul P wi q.im)
  let vi := fadd P (fmul P wr q.im) (fmul P wi q.re)
  ({ re := fadd P p.re vr, im := fadd P p.im vi }, { re := fsub P p.re vr, im := fsub P p.im vi })

/-- 42_fft R203 written out in the rounded operations: slot j of the packed spectrum of size 2^k, from the half-length transform Z of H slots. -/
def roundedRealSlot (P : Prec) (k H : Nat) (Z : Nat → Cplx (Elem P)) (j : Nat) : Cplx (Elem P) :=
  if j = 0 then { re := fadd P (Z 0).re (Z 0).im, im := fsub P (Z 0).re (Z 0).im }
  else
    let A := Z j
    let B := Z (H - j)
    let c := twCos P k j
    let s := twSin P k j
    let Er := fmul P (half P) (fadd P A.re B.re)
    let Ei := fmul P (half P) (fsub P A.im B.im)
    let Or := fmul P (half P) (fsub P A.re B.re)
    let Oi := fmul P (half P) (fadd P A.im B.im)
    let Tr := fsub P (fmul P c Oi) (fmul P s Or)
    let Ti := fsub P (fmul P (fneg P c) Or) (fmul P s Oi)
    { re := fadd P Er Tr, im := fadd P Ei Ti }

/-- The dot product of the first n pairs (40_datapath R163), by recursion on n. -/
def dotSum (P : Prec) (a c : Nat → Elem P) : Nat → Elem P
  | 0 => zero P false
  | 1 => fmul P (a 0) (c 0)
  | n + 2 => fadd P (dotSum P a c (n + 1)) (fmul P (a (n + 1)) (c (n + 1)))

/-- The number of units of a finite element; `none` for infinities and NaNs. -/
def finiteUnits (P : Prec) (x : Elem P) : Option Int :=
  match unpack P x with
  | .finite neg m => some (signed neg m)
  | .inf _ => none
  | .nan => none

/-- x is a NaN. -/
def isNaN (P : Prec) (x : Elem P) : Bool := unpack P x == .nan

/-- The least magnitude, in units, that roundTiesToEven takes to infinity: half a last place above the largest finite value. -/
def overflowUnits (P : Prec) : Nat := (2 ^ (fracBits P + 2) - 1) * 2 ^ (2 ^ expBits P - 4)

/-- x is r units rounded to nearest, ties to even (00_scope R16): x is finite, no finite element is nearer, and where another is as near
the last bit of x is 0. -/
def IsNearest (P : Prec) (r : ℝ) (x : Elem P) : Prop :=
  ∃ u, finiteUnits P x = some u ∧
    ∀ y v, finiteUnits P y = some v →
      |(u : ℝ) - r| ≤ |(v : ℝ) - r| ∧ (|(u : ℝ) - r| = |(v : ℝ) - r| → v ≠ u → x.toNat % 2 = 0)

/-- Exact arithmetic with the exact twiddle table (40_datapath R162). -/
noncomputable def exact : Arith ℝ :=
  { add := (· + ·), sub := (· - ·), mul := (· * ·), neg := (- ·), zero := 0, half := 1 / 2
    twc := fun k j => Real.cos (2 * Real.pi * j / 2 ^ k), tws := fun k j => Real.sin (2 * Real.pi * j / 2 ^ k) }

/-- A pair of reals as a complex number. -/
def toComplex (z : Cplx ℝ) : ℂ := ⟨z.re, z.im⟩

/-- Σ x[n]·e^(sign·2πi·jn/L) over n < L (00_scope R21): the forward DFT for sign = −1, the unscaled inverse for sign = 1. -/
noncomputable def dft (sign : ℂ) (L : Nat) (x : Nat → ℂ) (j : Nat) : ℂ :=
  ∑ n ∈ Finset.range L, x n * Complex.exp (sign * (2 * Real.pi * Complex.I * j * n / L))

end Sys2Proof.Machine
end

