-- ==== Sys2Proof/Certificates/Slice0/Obligations.lean ====
section
/-! DEFINITION. The statements for the provers, from the numbered rules of spec/.

Where a statement gives the state after a completion or a reset as a whole (State.succeeded, State.failed, ResetRegisters, an update of the state
before), the latch of that IDLE state, which the spec leaves unspecified (10_state R50, R57, 93 I9), stays as it was: the model's choice (log 3).
Each such statement names the log; a statement with basis 'stated' leaves the latch free instead. -/

open Sys2Proof Sys2Proof.Machine

/-! ### Encoding (30_encoding) -/

/-- Every command that fits its word is decoded from its encoding (R125, R128): no bit of an encoding is dropped. -/
def Obligations.DecodeOfEncode : Prop := ∀ i : Instr, i.wf = true → decode (encode i) = .ok i

/-- A word that decodes is the encoding of what it decodes to (R125, R126, R130), so no two words decode to the same value of Instr. The two words
of NOP, of TWBUILD and of TWFREE, which are one command (R122, R130), are two values of Instr: the model's choice of syntax (log 22). -/
def Obligations.EncodeOfDecode : Prop := ∀ (w : Word) (i : Instr), decode w = .ok i → i.wf = true ∧ encode i = w

/-- R124: a word with RSV0 (bit 7) or any bit of RSV1 (bits [31:13]) set is ILLEGAL, whatever its OP, and completes with ILLEGAL_CMD. (The latch of
the IDLE state is left free.) -/
def Obligations.ReservedBitsDecodeToIllegal : Prop :=
  ∀ (w : Word) (b : Nat), (b = 7 ∨ (13 ≤ b ∧ b < 32)) → w.getLsbD b = true →
    (∃ e, decode w = .error e) ∧
    ∀ s : State, s.latch.cmd = w → s.turn = .completion → s.srstPending = false →
      ∃ l, step s = .next { s.failed { code := .illegalCmd, src := none } with latch := l }

/-- R125: decode, as the rule's pseudocode has it. A word with a reserved bit set, an OP outside the opcode map, or a nonzero STAGE outside
BFLY.F and BFLY.I is ILLEGAL, and completes with ILLEGAL_CMD and no other effect (the latch of the IDLE state is left free);
every other word is the command (op, prec, s). -/
def Obligations.DecodeFollowsPseudocode : Prop :=
  ∀ w : Word,
    let op := w.toNat % 64
    let st := w.toNat / 256 % 32
    let illegal := w.toNat / 128 % 2 ≠ 0 ∨ w.toNat / 8192 ≠ 0 ∨
      op ∉ [0x00, 0x01, 0x02, 0x08, 0x09, 0x0A, 0x0B, 0x0C, 0x0D, 0x0E, 0x10, 0x11, 0x18] ∨ (op ∉ [0x09, 0x0A] ∧ st ≠ 0)
    (illegal → (∃ e, decode w = .error e) ∧
      ∀ s : State, s.latch.cmd = w → s.turn = .completion → s.srstPending = false →
        ∃ l, step s = .next { s.failed { code := .illegalCmd, src := none } with latch := l }) ∧
    (¬ illegal → ∃ i, decode w = .ok i ∧ i.op = op ∧ i.prec = (if w.toNat / 64 % 2 = 0 then .binary32 else .binary64) ∧ i.stage = st)

/-- Words written out from R128 and R130, one for each family, decode to what they stand for. -/
def Obligations.SpecWordsDecode : Prop :=
  decode 0x00000000#32 = .ok (.nop .binary32) ∧ decode 0x00000001#32 = .ok (.twbuild .binary32) ∧
  decode 0x0000004B#32 = .ok (.fftF .binary64) ∧ decode 0x0000034A#32 = .ok (.bflyI .binary64 3) ∧
  decode 0x00000010#32 = .ok (.pack .binary32) ∧ decode 0x00000058#32 = .ok (.conv .binary64)

/-! ### The step -/

/-- The engine's step runs the instruction the latched word decodes to (10_state R38, 60_exceptions R246), and nothing around it. -/
def Obligations.StepRunsDecodedCommand : Prop :=
  ∀ (s : State) (i : Instr), s.turn = .completion → decode s.latch.cmd = .ok i → step s = exec i s

/-- A command placed as the next instruction is run by the very next step, on any state. -/
def Obligations.PlacedCommandRunsNext : Prop :=
  ∀ (s : State) (w : Nat) (i : Instr), decodeTableWord 32 w = some i →
    step (s.withFetchWord 32 w) = exec i (s.withFetchWord 32 w)

/-- R247: every accepted command completes after finitely many steps, whatever waits at the port. -/
def Obligations.AcceptedCommandCompletes : Prop :=
  ∀ s : State, s.accessInReset = false → s.resetPin = false → s.eng = .busy →
    ∃ k t, k ≤ s.delay + 1 ∧ Sys2Proof.core.run k s = .next t ∧ t.eng = .idle

/-- The latch isolates the running command (10_state R50, 20_memory R101): its results depend on the latch, TW_N, DMEM and the
configuration alone, not on the live registers or any other state. -/
def Obligations.ResultIgnoresLiveRegisters : Prop :=
  ∀ (i : Instr) (s s' : State), s'.latch = s.latch → s'.twN = s.twN → s'.mem = s.mem → s'.config = s.config →
    s.srstPending = false → s'.srstPending = false →
    ∃ t t', exec i s = .next t ∧ exec i s' = .next t' ∧
      t'.mem = t.mem ∧ t'.twN = t.twN ∧ t'.errCode = t.errCode ∧ t'.errSrc = t.errSrc

/-! ### Reset (10_state R57, 70_reset) -/

/-- R57, R281: every register after power-on (CAP, R34, in any configuration the spec allows; the others in any), the engine IDLE, no interrupt,
and every byte of DMEM unspecified. (What the model chose for the latch and its own fields is not stated.) -/
def Obligations.PowerOnValues : Prop :=
  ∀ c : Config,
    let s := State.powerOn c
    s.readReg .id = 0x52324654#32 ∧ s.readReg .version = 0x00010000#32 ∧
    (c.wf = true → s.readReg .cap = BitVec.ofNat 32 (c.log2NMax + c.log2DmemBytes * 256)) ∧
    (∀ r ∈ [Reg.ctrl, .status, .errcode, .cmd, .n, .twN, .len, .flen, .xRe, .xIm, .xStride, .yRe, .yIm, .yStride, .fBase, .fStride],
      s.readReg r = 0) ∧
    s.eng = .idle ∧ s.srstPending = false ∧ s.irq = false ∧ ∀ a, s.mem.readByte a = none

/-- R282: a CTRL write with bit 31 set resets every register and TW_N at once when IDLE, DMEM retained; when BUSY it only marks the request
(CTRL.SRST reads 1), also when one is pending already. The latch, unspecified when IDLE (R57), stays as it was: the model's choice (log 3). -/
def Obligations.SoftResetRequest : Prop :=
  ∀ (s : State) (v : Word), v.getLsbD 31 = true →
    (s.eng = .idle → ResetRegisters s (s.writeReg .ctrl v) ∧ (s.writeReg .ctrl v).mem = s.mem) ∧
    (s.eng = .busy → s.writeReg .ctrl v = { s with srstPending := true } ∧
      ((s.writeReg .ctrl v).readReg .ctrl).getLsbD 31 = true)

/-- R282: at the completion with a soft reset pending, the DMEM effects are those the command would have had (none for an ILLEGAL word), and the
reset is performed in the same step. The latch, unspecified after it (R57), stays as it was: the model's choice (log 3). -/
def Obligations.PendingSoftResetAtCompletion : Prop :=
  ∀ s : State, s.srstPending = true →
    (∀ i : Instr, ∃ t u, exec i { s with srstPending := false } = .next t ∧ exec i s = .next u ∧ u.mem = t.mem ∧ ResetRegisters s u) ∧
    (s.turn = .completion → ∃ u, step s = .next u ∧ ResetRegisters s u ∧ ((∃ e, decode s.latch.cmd = .error e) → u.mem = s.mem))

/-- R280, R283: asserting the reset input gives every register its reset value at once and abandons a command in flight; a DMEM byte becomes
unspecified exactly when the command in flight would have written it (one that fails its checks writes none: the model's reading, log 13), and is
retained otherwise. A step while the input is asserted keeps these values (that it is a step at all is the model's form, log 15). The latch,
unspecified after it (R57), stays as it was: the model's choice (log 3). -/
def Obligations.HardwareResetStep : Prop :=
  ∀ s : State, s.mem.wf →
    let abandoned := fun a => s.eng = .busy ∧
      ∃ i, decode s.latch.cmd = .ok i ∧ commandError i s = none ∧ a ∈ writtenAddrs i s.latch.ops
    let isReset := fun t : State => ResetRegisters { s with resetPin := true } t ∧ t.irq = false ∧
      ∀ a, (abandoned a → t.mem.readByte a = none) ∧ (¬ abandoned a → t.mem.readByte a = s.mem.readByte a)
    isReset (s.stimulate .assertReset) ∧
    (s.accessInReset = false → s.resetPin = true → s.port = [] → ∃ t, step s = .next t ∧ isReset t)

/-- R280, 93 I11 as the model reads it (log 14): a host access at the port while the reset input is asserted stops the machine, whether it waited
there when the input was asserted or arrived later, and also where the input is released before the next step. -/
def Obligations.HostAccessDuringResetFaults : Prop :=
  ∀ (s : State) (a : Access) (rest : List Access),
    (s.port = a :: rest → step (s.stimulate .assertReset) = .fault .hostAccessDuringReset) ∧
    (s.resetPin = true → step (s.stimulate (.access a)) = .fault .hostAccessDuringReset) ∧
    (s.resetPin = true → step ((s.stimulate (.access a)).stimulate .releaseReset) = .fault .hostAccessDuringReset)

/-- R284: an IDLE unit with nothing at its port makes no step of its own: its state stays as it is. -/
def Obligations.IdleUnitWaits : Prop :=
  ∀ s : State, s.accessInReset = false → s.resetPin = false → s.eng = .idle → s.port = [] → step s = .next s

/-! ### Registers (10_state section 2) -/

/-- R32, R33, R34: ID, VERSION and CAP read as their constants, bit field by bit field, and writes to them are ignored. -/
def Obligations.IdentityRegisters : Prop :=
  ∀ (s : State) (v : Word), s.config.wf = true →
    s.readWord 0x000 = 0x52324654#32 ∧
    s.readWord 0x004 = 0x00010000#32 ∧
    ((s.readWord 0x008).extractLsb' 0 5).toNat = s.config.log2NMax ∧ (s.readWord 0x008).extractLsb' 5 3 = 0 ∧
    ((s.readWord 0x008).extractLsb' 8 5).toNat = s.config.log2DmemBytes ∧ (s.readWord 0x008).extractLsb' 13 19 = 0 ∧
    s.writeWord 0x000 v = s ∧ s.writeWord 0x004 v = s ∧ s.writeWord 0x008 v = s

/-- R49: the reserved offsets read 0 and ignore writes; the reserved bits of CTRL, STATUS and ERRCODE read 0; every operand register stores
all 32 bits as written. -/
def Obligations.ReservedAndStoredBits : Prop :=
  ∀ (s : State) (v : Word),
    (∀ o, (o = 0x02C ∨ o = 0x03C ∨ o = 0x04C ∨ (0x058 ≤ o ∧ o ≤ 0xFFC)) → s.readWord o = 0 ∧ s.writeWord o v = s) ∧
    (s.readReg .ctrl).extractLsb' 2 29 = 0 ∧ (s.readReg .status).extractLsb' 5 27 = 0 ∧
    (s.readReg .errcode).extractLsb' 4 4 = 0 ∧ (s.readReg .errcode).extractLsb' 11 21 = 0 ∧
    (∀ r ∈ [Reg.n, .len, .flen, .xRe, .xIm, .xStride, .yRe, .yIm, .yStride, .fBase, .fStride],
      (s.writeReg r v).readReg r = v ∧
      s.writeReg r v = { s with regs := (s.writeReg r v).regs } ∧
      ∀ q ∈ [Reg.n, .len, .flen, .xRe, .xIm, .xStride, .yRe, .yIm, .yStride, .fBase, .fStride], q ≠ r →
        (s.writeReg r v).readReg q = s.readReg q)

/-- R36: the bits of STATUS, and its write: each of DONE, ERR and OVR is cleared where the written bit is 1, and nothing else changes. -/
def Obligations.StatusBits : Prop :=
  ∀ (s : State) (v : Word),
    (s.readReg .status).getLsbD 0 = decide (s.eng = .busy) ∧ (s.readReg .status).getLsbD 1 = s.done ∧
    (s.readReg .status).getLsbD 2 = s.err ∧ (s.readReg .status).getLsbD 3 = s.ovr ∧
    (s.readReg .status).getLsbD 4 = decide (s.twN ≠ 0) ∧ (∀ b, 5 ≤ b → (s.readReg .status).getLsbD b = false) ∧
    s.writeReg .status v =
      { s with
        done := if v.getLsbD 1 then false else s.done
        err := if v.getLsbD 2 then false else s.err
        ovr := if v.getLsbD 3 then false else s.ovr }

/-- R37: the fields of ERRCODE, with the code numbers of R240 and the region numbers of R86; R35: the bits of CTRL and the write that sets the
enables. -/
def Obligations.CtrlAndErrcodeBits : Prop :=
  ∀ (s : State) (v : Word),
    (∀ p ∈ [(ErrCode.success, 0), (.illegalCmd, 1), (.invalidSize, 2), (.sizeMismatch, 3), (.invalidStage, 4), (.invalidStride, 5),
        (.misaligned, 6), (.addrRange, 7), (.overlap, 8)],
      s.errCode = p.1 → ((s.readReg .errcode).extractLsb' 0 4).toNat = p.2) ∧
    (∀ p ∈ [(none, 0), (some RegionId.xRe, 1), (some .xIm, 2), (some .yRe, 3), (some .yIm, 4), (some .filter, 5)],
      s.errSrc = p.1 → ((s.readReg .errcode).extractLsb' 8 3).toNat = p.2) ∧
    (s.readReg .ctrl).getLsbD 0 = s.ieDone ∧ (s.readReg .ctrl).getLsbD 1 = s.ieErr ∧
    (s.readReg .ctrl).getLsbD 31 = s.srstPending ∧
    (v.getLsbD 31 = false → s.writeReg .ctrl v = { s with ieDone := v.getLsbD 0, ieErr := v.getLsbD 1 })

/-- R54: IRQ is (STATUS.DONE and CTRL.IE_DONE) or ((STATUS.ERR or STATUS.OVR) and CTRL.IE_ERR), on the bits as the host reads them, and 0 at
reset. -/
def Obligations.IrqLevel : Prop :=
  (∀ s : State, s.irq =
    (((s.readReg .status).getLsbD 1 && (s.readReg .ctrl).getLsbD 0) ||
      (((s.readReg .status).getLsbD 2 || (s.readReg .status).getLsbD 3) && (s.readReg .ctrl).getLsbD 1))) ∧
  State.reset.irq = false

/-- R38, R245: a CMD write when IDLE loads the latch with the written word and the operand registers, sets LASTCMD, and makes the engine
BUSY; nothing else of the unit changes (the latency drawn is the model's free value, log 6). When BUSY the write is ignored but for OVR. -/
def Obligations.CommandWrite : Prop :=
  ∀ (s : State) (w : Word),
    (s.eng = .idle → ∃ delay fresh, s.writeReg .cmd w =
      { s with latch := { cmd := w, ops := s.regs }, lastCmd := w, eng := .busy, delay := delay, fresh := fresh }) ∧
    (s.eng = .busy → s.writeReg .cmd w = { s with ovr := true })

/-! ### The port (20_memory section 5) -/

/-- R95, R96: a performed register access that is 32 bits wide and aligned is done and answered OK (a read with the register's value); any
other access to the register window or to an unmapped offset ends with ERROR, writes nothing, and for a read returns 0. That a write's response
has no data and a read's data stands in the low bits of 64 is the model's reading (log 5), as is a write's value in the low 32 bits (log 20). -/
def Obligations.RegisterWindowAccess : Prop :=
  ∀ (s : State) (a : Access) (rest : List Access), s.turn = .port a rest →
    let s' : State := { s with port := rest, delay := s.delay - 1 }
    (∀ v, a.offset.toNat < 0x1000 → a.width = .w32 → a.offset.toNat % 4 = 0 → a.op = .write v →
      step s = .next ((s'.writeWord a.offset.toNat (v.setWidth 32)).respond { status := .ok, data := none })) ∧
    (a.offset.toNat < 0x1000 → a.width = .w32 → a.offset.toNat % 4 = 0 → a.op = .read →
      step s = .next (s'.respond { status := .ok, data := some ((s.readWord a.offset.toNat).setWidth 64) })) ∧
    ((a.offset.toNat < 0x1000 ∧ (a.width ≠ .w32 ∨ a.offset.toNat % 4 ≠ 0)) ∨
      (0x1000 ≤ a.offset.toNat ∧ a.offset.toNat < 0x01000000) ∨ 0x01000000 + s.config.dmemBytes ≤ a.offset.toNat →
      (a.op = .read → step s = .next (s'.respond { status := .error, data := some 0 })) ∧
      (∀ v, a.op = .write v → step s = .next (s'.respond { status := .error, data := none })))

/-- R81, R97: a performed DMEM write aligned to its width stores its bytes little-endian and changes no other byte; a read returns the bytes
little-endian, and changes no byte, an unspecified byte reading as a free value (93 I1); a misaligned access ends with ERROR and writes nothing. -/
def Obligations.DmemAccess : Prop :=
  ∀ (s : State) (a : Access) (rest : List Access) (d : Nat), s.turn = .port a rest →
    a.offset.toNat = 0x01000000 + d → d < s.config.dmemBytes →
    (∀ v, a.op = .write v → d % a.width.bytes = 0 → ∃ t, step s = .next t ∧
      (∀ k, k < a.width.bytes → t.mem.readByte (d + k) = some (v.extractLsb' (8 * k) 8)) ∧
      (∀ b, b < d ∨ d + a.width.bytes ≤ b → t.mem.readByte b = s.mem.readByte b) ∧
      t = { s with port := rest, delay := s.delay - 1, mem := t.mem
                   responses := s.responses ++ [{ status := .ok, data := none }] }) ∧
    (a.op = .read → d % a.width.bytes = 0 → ∃ v : BitVec 64, step s = .next
        { s with port := rest, delay := s.delay - 1, fresh := s.fresh + a.width.bytes
                 responses := s.responses ++ [{ status := .ok, data := some v }] } ∧
      (∀ k, k < a.width.bytes → ∀ b, s.mem.readByte (d + k) = some b → v.extractLsb' (8 * k) 8 = b) ∧
      (∀ k, k < a.width.bytes → s.mem.readByte (d + k) = none → v.extractLsb' (8 * k) 8 = Config.freeByte (s.fresh + k)) ∧
      (∀ k, 8 * a.width.bytes ≤ k → v.getLsbD k = false)) ∧
    (d % a.width.bytes ≠ 0 → step s = .next
      { s with port := rest, delay := s.delay - 1
               responses := s.responses ++ [{ status := .error, data := none }] })

/-- R98: a DMEM access at the head of the port while BUSY gets no response and is not performed; the next step is the completion, and the
access waits unchanged at the head. A register access is never held: one at the head is performed at once while the latency lasts. That a
misaligned DMEM access is held too is the model's reading (log 12), and how long register accesses go first is its free latency (log 6). -/
def Obligations.DmemAccessHeldWhileBusy : Prop :=
  ∀ (s : State) (a : Access) (rest : List Access), s.accessInReset = false → s.resetPin = false → s.eng = .busy → s.port = a :: rest →
    (0x01000000 ≤ a.offset.toNat → a.offset.toNat < 0x01000000 + s.config.dmemBytes →
      s.turn = .completion ∧ ∃ t, step s = .next t ∧ t.eng = .idle ∧ t.port = s.port ∧ t.responses = s.responses ∧
        t.turn = .port a rest) ∧
    (a.offset.toNat < 0x1000 → 0 < s.delay → s.turn = .port a rest)

/-! ### The control commands (41_control) -/

/-- R180: NOP completes with no effect: DONE is 1 and ERRCODE 0, and TW_N, STATUS.ERR, DMEM and everything else is unchanged.
The latch of the IDLE state stays as it was: the model's choice (log 3). -/
def Obligations.NopCompletes : Prop :=
  ∀ (P : Prec) (s : State), s.srstPending = false →
    exec (.nop P) s = .next { s with errCode := .success, errSrc := none, done := true, eng := .idle }

/-- R181: TWBUILD sets TW_N to a valid requested size; otherwise it ends with INVALID_SIZE and the previous table is kept.
The latch of the IDLE state stays as it was: the model's choice (log 3). -/
def Obligations.TwbuildSetsTable : Prop :=
  ∀ (P : Prec) (s : State), s.srstPending = false →
    (SizeOk s.config s.latch.ops.n.toNat →
      exec (.twbuild P) s = .next { s with twN := s.latch.ops.n, errCode := .success, errSrc := none, done := true, eng := .idle }) ∧
    (¬ SizeOk s.config s.latch.ops.n.toNat →
      exec (.twbuild P) s = .next { s with errCode := .invalidSize, errSrc := none, err := true, done := true, eng := .idle })

/-- R182: TWFREE sets TW_N to 0, with a table or without.
The latch of the IDLE state stays as it was: the model's choice (log 3). -/
def Obligations.TwfreeClearsTable : Prop :=
  ∀ (P : Prec) (s : State), s.srstPending = false →
    exec (.twfree P) s = .next { s with twN := 0, errCode := .success, errSrc := none, done := true, eng := .idle }

/-! ### The FFT commands (42_fft) -/

/-- R190, R160: BITREV puts element rev_k(j) of X in slot j, bit patterns unchanged, and changes no byte outside X.
The latch of the IDLE state stays as it was: the model's choice (log 3). -/
def Obligations.BitrevPermutes : Prop :=
  ∀ (P : Prec) (s : State) (z : Nat → Cplx (Elem P)), Accepts (.bitrev P) s → s.srstPending = false →
    (∀ j < s.latch.ops.n.toNat, loadCplx P s.mem s.latch.ops.x j = some (z j)) →
    ∃ m, exec (.bitrev P) s = .next (s.succeeded m s.twN) ∧
      (∀ j < s.latch.ops.n.toNat, loadCplx P m s.latch.ops.x j = some (z (bitRevIndex s.latch.ops.n.toNat.log2 j))) ∧
      ∀ a, a ∉ writtenAddrs (.bitrev P) s.latch.ops → m.readByte a = s.mem.readByte a

/-- R191, R159: BFLY.F s replaces z[b+j] and z[b+j+h], for every block b of 2^s and position j below h = 2^(s−1), by the butterfly of the two
with the forward twiddle (c, −s) at j·(N/2^s), written out in the rounded operations (R157, R158), and changes no byte outside X.
The latch of the IDLE state stays as it was: the model's choice (log 3). -/
def Obligations.ForwardStageOfButterflies : Prop :=
  ∀ (P : Prec) (st : Nat) (s : State) (z : Nat → Cplx (Elem P)), Accepts (.bflyF P st) s → s.srstPending = false →
    (∀ j < s.latch.ops.n.toNat, loadCplx P s.mem s.latch.ops.x j = some (z j)) →
    ∃ m, exec (.bflyF P st) s = .next (s.succeeded m s.twN) ∧
      (∀ b j, 2 ^ st ∣ b → b < s.latch.ops.n.toNat → j < 2 ^ (st - 1) →
        let h := 2 ^ (st - 1)
        let k := s.latch.ops.n.toNat.log2
        let t := j * (s.latch.ops.n.toNat / 2 ^ st)
        let out := roundedButterfly P (twCos P k t) (fneg P (twSin P k t)) (z (b + j)) (z (b + j + h))
        loadCplx P m s.latch.ops.x (b + j) = some out.1 ∧ loadCplx P m s.latch.ops.x (b + j + h) = some out.2) ∧
      ∀ a, a ∉ writtenAddrs (.bflyF P st) s.latch.ops → m.readByte a = s.mem.readByte a

/-- R192, R159: BFLY.I s, the same with the inverse twiddle (c, s).
The latch of the IDLE state stays as it was: the model's choice (log 3). -/
def Obligations.InverseStageOfButterflies : Prop :=
  ∀ (P : Prec) (st : Nat) (s : State) (z : Nat → Cplx (Elem P)), Accepts (.bflyI P st) s → s.srstPending = false →
    (∀ j < s.latch.ops.n.toNat, loadCplx P s.mem s.latch.ops.x j = some (z j)) →
    ∃ m, exec (.bflyI P st) s = .next (s.succeeded m s.twN) ∧
      (∀ b j, 2 ^ st ∣ b → b < s.latch.ops.n.toNat → j < 2 ^ (st - 1) →
        let h := 2 ^ (st - 1)
        let k := s.latch.ops.n.toNat.log2
        let t := j * (s.latch.ops.n.toNat / 2 ^ st)
        let out := roundedButterfly P (twCos P k t) (twSin P k t) (z (b + j)) (z (b + j + h))
        loadCplx P m s.latch.ops.x (b + j) = some out.1 ∧ loadCplx P m s.latch.ops.x (b + j + h) = some out.2) ∧
      ∀ a, a ∉ writtenAddrs (.bflyI P st) s.latch.ops → m.readByte a = s.mem.readByte a

/-- R193, R161: FFT.F leaves in X the bit reversal followed by every forward stage, and changes no byte outside X.
The latch of the IDLE state stays as it was: the model's choice (log 3). -/
def Obligations.ForwardFftResult : Prop :=
  ∀ (P : Prec) (s : State) (z : Nat → Cplx (Elem P)), Accepts (.fftF P) s → s.srstPending = false →
    (∀ j < s.latch.ops.n.toNat, loadCplx P s.mem s.latch.ops.x j = some (z j)) →
    ∃ m, exec (.fftF P) s = .next (s.succeeded m s.twN) ∧
      (∀ j < s.latch.ops.n.toNat, loadCplx P m s.latch.ops.x j =
        some (elemAt (ieee P) (fft (ieee P) .fwd s.latch.ops.n.toNat.log2 ((List.range s.latch.ops.n.toNat).map z)) j)) ∧
      ∀ a, a ∉ writtenAddrs (.fftF P) s.latch.ops → m.readByte a = s.mem.readByte a

/-- R194, R161: FFT.I, the same with the inverse stages, unscaled.
The latch of the IDLE state stays as it was: the model's choice (log 3). -/
def Obligations.InverseFftResult : Prop :=
  ∀ (P : Prec) (s : State) (z : Nat → Cplx (Elem P)), Accepts (.fftI P) s → s.srstPending = false →
    (∀ j < s.latch.ops.n.toNat, loadCplx P s.mem s.latch.ops.x j = some (z j)) →
    ∃ m, exec (.fftI P) s = .next (s.succeeded m s.twN) ∧
      (∀ j < s.latch.ops.n.toNat, loadCplx P m s.latch.ops.x j =
        some (elemAt (ieee P) (fft (ieee P) .inv s.latch.ops.n.toNat.log2 ((List.range s.latch.ops.n.toNat).map z)) j)) ∧
      ∀ a, a ∉ writtenAddrs (.fftI P) s.latch.ops → m.readByte a = s.mem.readByte a

/-- R201, R203: RFFT.IP leaves in the n/2 slots of X the real post-processing of the half-length forward FFT, written out in the rounded
operations, and changes no byte outside X.
The latch of the IDLE state stays as it was: the model's choice (log 3). -/
def Obligations.RealFftInPlaceResult : Prop :=
  ∀ (P : Prec) (s : State) (z : Nat → Cplx (Elem P)), Accepts (.rfftIp P) s → s.srstPending = false →
    (∀ j < s.latch.ops.n.toNat / 2, loadCplx P s.mem s.latch.ops.x j = some (z j)) →
    let H := s.latch.ops.n.toNat / 2
    let k := s.latch.ops.n.toNat.log2
    let half := fun i => elemAt (ieee P) (fft (ieee P) .fwd k ((List.range H).map z)) i
    ∃ m, exec (.rfftIp P) s = .next (s.succeeded m s.twN) ∧
      (∀ j < s.latch.ops.n.toNat / 2, loadCplx P m s.latch.ops.x j = some (roundedRealSlot P k H half j)) ∧
      ∀ a, a ∉ writtenAddrs (.rfftIp P) s.latch.ops → m.readByte a = s.mem.readByte a

/-- R202: RFFT.OP leaves in Y the slots RFFT.IP would leave in X, keeps every slot of X, and changes no byte outside Y.
The latch of the IDLE state stays as it was: the model's choice (log 3). -/
def Obligations.RealFftOutOfPlaceResult : Prop :=
  ∀ (P : Prec) (s : State) (z : Nat → Cplx (Elem P)), Accepts (.rfftOp P) s → s.srstPending = false →
    (∀ j < s.latch.ops.n.toNat / 2, loadCplx P s.mem s.latch.ops.x j = some (z j)) →
    let H := s.latch.ops.n.toNat / 2
    let k := s.latch.ops.n.toNat.log2
    let half := fun i => elemAt (ieee P) (fft (ieee P) .fwd k ((List.range H).map z)) i
    ∃ m, exec (.rfftOp P) s = .next (s.succeeded m s.twN) ∧
      (∀ j < s.latch.ops.n.toNat / 2, loadCplx P m s.latch.ops.y j = some (roundedRealSlot P k H half j)) ∧
      (∀ j < s.latch.ops.n.toNat / 2, loadCplx P m s.latch.ops.x j = some (z j)) ∧
      ∀ a, a ∉ writtenAddrs (.rfftOp P) s.latch.ops → m.readByte a = s.mem.readByte a

/-- 93 I2 as the model reads it (log 9): a command of the FFT family that passes its checks and reads an unspecified element completes, and
leaves its whole written region unspecified and every other byte unchanged.
The latch of the IDLE state stays as it was: the model's choice (log 3). -/
def Obligations.UnspecifiedInputMarksOutput : Prop :=
  ∀ (i : Instr) (s : State) (j : Nat), Instr.isFft i = true → Accepts i s → s.srstPending = false → s.mem.wf →
    (∀ P, i = .rfftIp P ∨ i = .rfftOp P → j < s.latch.ops.n.toNat / 2) → j < s.latch.ops.n.toNat →
    loadCplx i.prec s.mem s.latch.ops.x j = none →
    ∃ m, exec i s = .next (s.succeeded m s.twN) ∧
      ∀ a, m.readByte a = if a ∈ writtenAddrs i s.latch.ops then none else s.mem.readByte a

/-! ### Packing (43_pack) -/

/-- R220: PACK copies the first and second element of pair k, bits exact, to element k of the real and the imaginary array, and changes no byte
outside them. An unspecified element is copied as unspecified: R99 and 93 I2 as the model reads them (log 9).
The latch of the IDLE state stays as it was: the model's choice (log 3). -/
def Obligations.PackSplitsPairs : Prop :=
  ∀ (P : Prec) (s : State), Accepts (.pack P) s → s.srstPending = false → s.mem.wf →
    ∃ m, exec (.pack P) s = .next (s.succeeded m s.twN) ∧
      (∀ k < s.latch.ops.len.toNat,
        readElem P m (eaNat s.latch.ops.yRe s.latch.ops.yStride k P) =
          readElem P s.mem (eaNat s.latch.ops.xRe s.latch.ops.xStride k P) ∧
        readElem P m (eaNat s.latch.ops.yIm s.latch.ops.yStride k P) =
          readElem P s.mem (eaNat s.latch.ops.xRe s.latch.ops.xStride k P + P.esize)) ∧
      ∀ a, a ∉ writtenAddrs (.pack P) s.latch.ops → m.readByte a = s.mem.readByte a

/-- R221: UNPACK writes element k of the real and the imaginary array to the first and second element of pair k. With |Y_STRIDE| = 1
consecutive pairs share an element and the later write (higher index) wins. No byte outside the pairs changes. An unspecified element is copied
as unspecified: R99 and 93 I2 as the model reads them (log 9). The latch of the IDLE state stays as it was: the model's choice (log 3). -/
def Obligations.UnpackInterleaves : Prop :=
  ∀ (P : Prec) (s : State), Accepts (.unpack P) s → s.srstPending = false → s.mem.wf →
    ∃ m, exec (.unpack P) s = .next (s.succeeded m s.twN) ∧
      (let L := s.latch.ops
       let first := fun k => readElem P m (eaNat L.yRe L.yStride k P)
       let second := fun k => readElem P m (eaNat L.yRe L.yStride k P + P.esize)
       let re := fun k => loadElem P s.mem L.xRe L.xStride k
       let im := fun k => loadElem P s.mem L.xIm L.xStride k
       ∀ k < L.len.toNat,
        (2 ≤ L.yStride.toInt.natAbs → first k = re k ∧ second k = im k) ∧
        (L.yStride.toInt = 1 → first k = re k ∧ (k + 1 = L.len.toNat → second k = im k)) ∧
        (L.yStride.toInt = -1 → first k = (if k + 1 < L.len.toNat then im (k + 1) else re k) ∧ (k = 0 → second k = im k))) ∧
      ∀ a, a ∉ writtenAddrs (.unpack P) s.latch.ops → m.readByte a = s.mem.readByte a

/-- R222: UNPACK of what PACK wrote, with the strides exchanged, reproduces the bit pattern of every element of the pairs. The rule asks for
|sx| ≥ 2; for |sx| = 1 it says that the same bytes are reproduced too, so no stride is left out here. An unspecified element comes back as
unspecified: R99 and 93 I2 as the model reads them (log 9). -/
def Obligations.UnpackUndoesPack : Prop :=
  ∀ (P : Prec) (s t u v : State), Accepts (.pack P) s → s.srstPending = false → s.mem.wf → exec (.pack P) s = .next t →
    u.mem = t.mem → Accepts (.unpack P) u → u.srstPending = false → exec (.unpack P) u = .next v →
    u.latch.ops.len = s.latch.ops.len → u.latch.ops.xRe = s.latch.ops.yRe → u.latch.ops.xIm = s.latch.ops.yIm →
    u.latch.ops.xStride = s.latch.ops.yStride → u.latch.ops.yStride = s.latch.ops.xStride →
    ∀ k < s.latch.ops.len.toNat,
      readElem P v.mem (eaNat u.latch.ops.yRe u.latch.ops.yStride k P) =
        readElem P s.mem (eaNat s.latch.ops.xRe s.latch.ops.xStride k P) ∧
      readElem P v.mem (eaNat u.latch.ops.yRe u.latch.ops.yStride k P + P.esize) =
        readElem P s.mem (eaNat s.latch.ops.xRe s.latch.ops.xStride k P + P.esize)

/-! ### Convolution (44_conv) -/

/-- R230, R163: output i of CONV is the dot product of signal elements i … i+F−1 with the filter, accumulated in order, +0 for F = 0; it is
unspecified when an element it reads is (20_memory R99, as the model reads 93 I2, log 9). No byte outside the result changes.
The latch of the IDLE state stays as it was: the model's choice (log 3). -/
def Obligations.ConvIsSlidingDotProduct : Prop :=
  ∀ (P : Prec) (s : State), Accepts (.conv P) s → s.srstPending = false → s.mem.wf →
    ∃ m, exec (.conv P) s = .next (s.succeeded m s.twN) ∧
      (let L := s.latch.ops
       ∀ i < L.len.toNat,
        (∀ a c : Nat → Elem P,
          (∀ j < L.flen.toNat, loadElem P s.mem L.xRe L.xStride (i + j) = some (a j) ∧
            loadElem P s.mem L.fBase L.fStride j = some (c j)) →
          loadElem P m L.yRe L.yStride i = some (dotSum P a c L.flen.toNat)) ∧
        ((∃ j < L.flen.toNat, loadElem P s.mem L.xRe L.xStride (i + j) = none ∨ loadElem P s.mem L.fBase L.fStride j = none) →
          loadElem P m L.yRe L.yStride i = none)) ∧
      ∀ a, a ∉ writtenAddrs (.conv P) s.latch.ops → m.readByte a = s.mem.readByte a

/-- R232: CONV with a filter stored at b and read from its last element with stride −1 gives bit for bit what CONV gives with the filter
reversed in memory and stride 1. An output that is unspecified on one side is so on the other: R99 and 93 I2 as the model reads them (log 9). -/
def Obligations.ReversedFilterIsReversedStride : Prop :=
  ∀ (P : Prec) (s s' t t' : State) (b b' : Nat), Accepts (.conv P) s → Accepts (.conv P) s' →
    s.srstPending = false → s'.srstPending = false → s.mem.wf → s'.mem.wf →
    exec (.conv P) s = .next t → exec (.conv P) s' = .next t' →
    s.latch.ops.fBase.toNat = b + (s.latch.ops.flen.toNat - 1) * P.esize → s.latch.ops.fStride.toInt = -1 →
    s'.latch.ops.fBase.toNat = b' → s'.latch.ops.fStride.toInt = 1 →
    s'.latch.ops.flen = s.latch.ops.flen → s'.latch.ops.len = s.latch.ops.len →
    (∀ j < s.latch.ops.flen.toNat,
      readElem P s'.mem (b' + j * P.esize) = readElem P s.mem (b + (s.latch.ops.flen.toNat - 1 - j) * P.esize)) →
    (∀ k < signalCount s.latch.ops.len.toNat s.latch.ops.flen.toNat,
      loadElem P s'.mem s'.latch.ops.xRe s'.latch.ops.xStride k = loadElem P s.mem s.latch.ops.xRe s.latch.ops.xStride k) →
    ∀ i < s.latch.ops.len.toNat,
      loadElem P t'.mem s'.latch.ops.yRe s'.latch.ops.yStride i = loadElem P t.mem s.latch.ops.yRe s.latch.ops.yStride i

/-- R233: with every signal and filter element 1.0, every output is exactly F, for F ≤ 2^24 (binary32) or 2^53 (binary64). (The latch of the
IDLE state is left free.) -/
def Obligations.BoxcarIsFilterLength : Prop :=
  ∀ (P : Prec) (s : State), Accepts (.conv P) s → s.srstPending = false →
    s.latch.ops.flen.toNat ≤ 2 ^ (fracBits P + 1) →
    (∀ k < signalCount s.latch.ops.len.toNat s.latch.ops.flen.toNat,
      loadElem P s.mem s.latch.ops.xRe s.latch.ops.xStride k = some (one P)) →
    (∀ j < s.latch.ops.flen.toNat, loadElem P s.mem s.latch.ops.fBase s.latch.ops.fStride j = some (one P)) →
    ∃ m l, exec (.conv P) s = .next { s.succeeded m s.twN with latch := l } ∧
      ∀ i < s.latch.ops.len.toNat, ∃ x, loadElem P m s.latch.ops.yRe s.latch.ops.yStride i = some x ∧
        finiteUnits P x = some (s.latch.ops.flen.toNat * 2 ^ unitPlaces P)

/-! ### Checks, errors and frames (20_memory section 3, 60_exceptions) -/

/-- R84: the closed forms of lo and hi are the least slot offset and the greatest slot end of a nonempty region with a nonzero stride. -/
def Obligations.RegionIntervalIsMinMax : Prop :=
  ∀ (r : Region) (P : Prec), r.count ≠ 0 → r.stride ≠ 0 →
    (∀ i < r.count, r.lo P ≤ ea r.base r.stride i P) ∧ (∃ i < r.count, r.lo P = ea r.base r.stride i P) ∧
    (∀ i < r.count, ea r.base r.stride i P + r.slotBytes P ≤ r.hi P) ∧
    (∃ i < r.count, r.hi P = ea r.base r.stride i P + r.slotBytes P)

/-- R244: a command passes its checks exactly when every condition of R87 to R90, R123 and R195 holds for it. That CONV with
LEN = 0 has its filter region checked is the model's reading (log 11). -/
def Obligations.ChecksPassWhenRulesHold : Prop :=
  ∀ (i : Instr) (s : State), commandError i s = none ↔ Accepts i s

/-- R244: the error reported is the first in the order of the rule, with the region it names. That CONV with LEN = 0 has its filter region
checked is the model's reading (log 11). -/
def Obligations.FirstFailingCheckIsReported : Prop :=
  ∀ (i : Instr) (s : State) (e : CmdError), commandError i s = some e ↔ FirstError i s e

/-- R243, R246: a command that ends with an error changes no byte of DMEM and not TW_N: ERRCODE, ERR, DONE and the engine alone.
The latch of the IDLE state stays as it was: the model's choice (log 3). -/
def Obligations.FailedCommandOnlyReports : Prop :=
  ∀ (i : Instr) (s : State) (e : CmdError), FirstError i s e → s.srstPending = false →
    exec i s = .next { s with errCode := e.code, errSrc := e.src, err := true, done := true, eng := .idle }

/-- The frame of all thirteen commands (R92, R30, R52, R55): each completes; DONE is set; ERR only rises, with the code; TW_N changes in
TWBUILD and TWFREE only; every DMEM byte outside the slots of the command's write regions is unchanged; and every other register and enable
is unchanged. So are the port, the responses, the latch, which the IDLE state leaves unspecified (R50, 93 I9; the model's choice, log 3), and the
model's own latency and draw counter (logs 6, 7). -/
def Obligations.CommandFrame : Prop :=
  ∀ (i : Instr) (s : State), s.srstPending = false →
    ∃ t, exec i s = .next t ∧
      t = { s with mem := t.mem, twN := t.twN, errCode := t.errCode, errSrc := t.errSrc
                   err := s.err || decide (t.errCode ≠ .success), done := true, eng := .idle } ∧
      ((∀ P, i ≠ .twbuild P ∧ i ≠ .twfree P) → t.twN = s.twN) ∧
      ∀ a, a ∉ writtenAddrs i s.latch.ops → t.mem.readByte a = s.mem.readByte a

/-! ### The invariant -/

/-- Every step of the machine that answers a next state keeps its invariant: DMEM canonical and inside its size, TW_N zero or a valid size
(R52), a soft reset pending only while BUSY (R35), ERRCODE.SRC a region for codes 5 to 8 only (R37), and every register at its reset value while
the reset input is asserted (R280). -/
def Obligations.StepKeepsInv : Prop :=
  ∀ s t : State, s.Inv → step s = .next t → t.Inv

/-- The invariant holds after reset, in every configuration the spec allows, and everything the outside does keeps it. -/
def Obligations.ResetAndStimuliKeepInv : Prop :=
  (∀ c : Config, c.wf = true → (State.powerOn c).Inv) ∧ State.reset.Inv ∧ ∀ (x : Stimulus) (s : State), s.Inv → (s.stimulate x).Inv

/-! ### Arithmetic (40_datapath) -/

/-- R16, R150: the sum and the difference of two finite elements are the exact values rounded to nearest even, and infinity of the exact sign
at or above the overflow threshold. -/
def Obligations.SumRoundsToNearest : Prop :=
  ∀ (P : Prec) (a b : Elem P) (u v : Int), finiteUnits P a = some u → finiteUnits P b = some v →
    ((u + v).natAbs < overflowUnits P → IsNearest P ((u + v : Int) : ℝ) (fadd P a b)) ∧
    (overflowUnits P ≤ (u + v).natAbs → fadd P a b = infinity P (decide (u + v < 0))) ∧
    ((u - v).natAbs < overflowUnits P → IsNearest P ((u - v : Int) : ℝ) (fsub P a b)) ∧
    (overflowUnits P ≤ (u - v).natAbs → fsub P a b = infinity P (decide (u - v < 0)))

/-- R16, R150: the product of two finite elements is the exact value rounded to nearest even, subnormal results included, and infinity at or
above the overflow threshold. -/
def Obligations.ProductRoundsToNearest : Prop :=
  ∀ (P : Prec) (a b : Elem P) (u v : Int), finiteUnits P a = some u → finiteUnits P b = some v →
    ((u * v).natAbs < overflowUnits P * 2 ^ unitPlaces P →
      IsNearest P (((u * v : Int) : ℝ) / 2 ^ unitPlaces P) (fmul P a b)) ∧
    (overflowUnits P * 2 ^ unitPlaces P ≤ (u * v).natAbs → fmul P a b = infinity P (decide (u * v < 0)))

/-- R151: an operation whose result is a NaN returns the canonical quiet NaN; a NaN operand, ∞ − ∞, ∞ + (−∞) and 0 × ∞ are those cases. -/
def Obligations.NanResultsAreCanonical : Prop :=
  qNaN .binary32 = 0x7FC00000#32 ∧ qNaN .binary64 = 0x7FF8000000000000#64 ∧
  ∀ (P : Prec) (a b : Elem P) (s t : Bool),
    (isNaN P (fadd P a b) = true → fadd P a b = qNaN P) ∧ (isNaN P (fsub P a b) = true → fsub P a b = qNaN P) ∧
    (isNaN P (fmul P a b) = true → fmul P a b = qNaN P) ∧
    (isNaN P a = true ∨ isNaN P b = true → fadd P a b = qNaN P ∧ fsub P a b = qNaN P ∧ fmul P a b = qNaN P) ∧
    fsub P (infinity P s) (infinity P s) = qNaN P ∧ fadd P (infinity P s) (infinity P (!s)) = qNaN P ∧
    fmul P (zero P s) (infinity P t) = qNaN P ∧ fmul P (infinity P s) (zero P t) = qNaN P

/-- R152: signed zeros and infinities. -/
def Obligations.SignedZerosAndInfinities : Prop :=
  ∀ (P : Prec) (a b : Elem P) (u : Int) (s t : Bool), finiteUnits P a = some u →
    fadd P a (fneg P a) = zero P false ∧
    fadd P (zero P false) (zero P true) = zero P false ∧ fadd P (zero P true) (zero P true) = zero P true ∧
    fsub P (zero P true) (zero P false) = zero P true ∧
    (isNaN P (fmul P a b) = false → (fmul P a b).msb = (a.msb ^^ b.msb)) ∧
    fadd P (infinity P s) a = infinity P s ∧ fadd P a (infinity P s) = infinity P s ∧
    (u ≠ 0 → fmul P (infinity P s) a = infinity P (s ^^ a.msb)) ∧
    fmul P (infinity P s) (infinity P t) = infinity P (s ^^ t)

/-- R155: rev_k is the k-bit reversal, an involution, and rev_k(i) = 2·rev_{k−1}(i) for i < 2^{k−1}. -/
def Obligations.BitReversalIsInvolution : Prop :=
  bitRevIndex 0 0 = 0 ∧
  ∀ (k i : Nat), i < 2 ^ k →
    bitRevIndex k i = ∑ b ∈ Finset.range k, i / 2 ^ b % 2 * 2 ^ (k - 1 - b) ∧
    bitRevIndex k i < 2 ^ k ∧ bitRevIndex k (bitRevIndex k i) = i ∧
    (∀ k', k = k' + 1 → i < 2 ^ k' → bitRevIndex k i = 2 * bitRevIndex k' i)

/-- R153: where the enclosures settle the rounding, the table entries are the exact cosine and sine rounded to nearest even. -/
def Obligations.TwiddlesAreRoundedCosines : Prop :=
  ∀ (P : Prec) (k j : Nat),
    (roundFixed P (cosEnclosure j k).1 = roundFixed P (cosEnclosure j k).2 →
      IsNearest P (Real.cos (2 * Real.pi * j / 2 ^ k) * 2 ^ unitPlaces P) (twCos P k j)) ∧
    (roundFixed P (cosEnclosure (4 * j + 3 * 2 ^ k) (k + 2)).1 = roundFixed P (cosEnclosure (4 * j + 3 * 2 ^ k) (k + 2)).2 →
      IsNearest P (Real.sin (2 * Real.pi * j / 2 ^ k) * 2 ^ unitPlaces P) (twSin P k j))

/-- R154: the exact entries, the symmetry about N/4, and decimation: the table of size N is every second entry of the table of size 2N. -/
def Obligations.TwiddleTableSymmetries : Prop :=
  ∀ (P : Prec) (k j : Nat),
    twCos P k 0 = one P ∧ twSin P k 0 = zero P false ∧
    (2 ≤ k → twCos P k (2 ^ (k - 2)) = zero P false ∧ twSin P k (2 ^ (k - 2)) = one P) ∧
    (2 ≤ k → 0 < j → j < 2 ^ (k - 2) → twCos P k (2 ^ (k - 1) - j) = fneg P (twCos P k j) ∧
      twSin P k (2 ^ (k - 1) - j) = twSin P k j) ∧
    twCos P (k + 1) (2 * j) = twCos P k j ∧ twSin P (k + 1) (2 * j) = twSin P k j

/-! ### Whole transforms -/

/-- R196: FFT.F leaves exactly the DMEM contents, and the whole state but the latch, that BITREV followed by BFLY.F 1, …, BFLY.F k leave on the same
operands, and FFT.I exactly those of BITREV followed by BFLY.I 1, …, BFLY.I k; the sequence takes k + 1 completions. (The latch of the IDLE state is
left free. What accepting each command does, LASTCMD among it, is CommandWrite's.) -/
def Obligations.FftIsBitrevThenStages : Prop :=
  ∀ (P : Prec) (s : State) (k : Nat), s.latch.ops.n.toNat = 2 ^ k → s.srstPending = false → s.mem.wf →
    let L := s.latch.ops
    (Accepts (.fftF P) s → ∃ t l, exec (.fftF P) s = .next t ∧
      runAll L (.bitrev P :: (List.range k).map (fun j => .bflyF P (j + 1))) s = .next { t with latch := l }) ∧
    (Accepts (.fftI P) s → ∃ t l, exec (.fftI P) s = .next t ∧
      runAll L (.bitrev P :: (List.range k).map (fun j => .bflyI P (j + 1))) s = .next { t with latch := l })

/-- R162: in exact arithmetic the dataflow of R156 to R161 is the DFT of 00_scope R21, forward and inverse, unscaled, for a vector of length
2^k on a table of any size 2^K ≥ 2^k. -/
def Obligations.ExactFftIsDft : Prop :=
  ∀ (k K : Nat) (x : Nat → Cplx ℝ) (j : Nat), k ≤ K → j < 2 ^ k →
    toComplex (elemAt exact (fft exact .fwd K ((List.range (2 ^ k)).map x)) j) = dft (-1) (2 ^ k) (fun n => toComplex (x n)) j ∧
    toComplex (elemAt exact (fft exact .inv K ((List.range (2 ^ k)).map x)) j) = dft 1 (2 ^ k) (fun n => toComplex (x n)) j

/-- R200, R203: in exact arithmetic the real transform of a signal of length n = 2^k ≥ 2, packed as R201 says, is its packed spectrum: slot 0
holds the DC and the Nyquist bin, slot j the bin X[j], with scale 1. -/
def Obligations.ExactRealFftIsPackedSpectrum : Prop :=
  ∀ (k : Nat) (x : Nat → ℝ), 1 ≤ k →
    let y := realFft exact k ((List.range (2 ^ (k - 1))).map (fun m => { re := x (2 * m), im := x (2 * m + 1) }))
    let bin := dft (-1) (2 ^ k) (fun n => (x n : ℂ))
    elemAt exact y 0 = { re := (bin 0).re, im := (bin (2 ^ (k - 1))).re } ∧
    ∀ j, 0 < j → j < 2 ^ (k - 1) → toComplex (elemAt exact y j) = bin j

/-! ### The register map and the end of a run (10_state section 2, 70_reset R292) -/

/-- The register map of 10_state section 2, offset by offset: what each register reads as (R35 to R48; CMD reads LASTCMD), what a write of each
does to the state, and that writes to ERRCODE and TW_N are ignored. -/
def Obligations.RegisterMap : Prop :=
  ∀ (s : State) (v : Word),
    (s.readWord 0x00C = s.readReg .ctrl ∧ s.readWord 0x010 = s.readReg .status ∧ s.readWord 0x014 = s.readReg .errcode ∧
      s.readWord 0x018 = s.lastCmd ∧ s.readWord 0x01C = s.regs.n ∧ s.readWord 0x020 = s.twN ∧
      s.readWord 0x024 = s.regs.len ∧ s.readWord 0x028 = s.regs.flen ∧
      s.readWord 0x030 = s.regs.xRe ∧ s.readWord 0x034 = s.regs.xIm ∧ s.readWord 0x038 = s.regs.xStride ∧
      s.readWord 0x040 = s.regs.yRe ∧ s.readWord 0x044 = s.regs.yIm ∧ s.readWord 0x048 = s.regs.yStride ∧
      s.readWord 0x050 = s.regs.fBase ∧ s.readWord 0x054 = s.regs.fStride) ∧
    s.writeWord 0x00C v = s.writeReg .ctrl v ∧ s.writeWord 0x010 v = s.writeReg .status v ∧ s.writeWord 0x014 v = s ∧
    s.writeWord 0x018 v = s.writeReg .cmd v ∧ s.writeWord 0x020 v = s ∧
    s.writeWord 0x01C v = { s with regs := { s.regs with n := v } } ∧
    s.writeWord 0x024 v = { s with regs := { s.regs with len := v } } ∧
    s.writeWord 0x028 v = { s with regs := { s.regs with flen := v } } ∧
    s.writeWord 0x030 v = { s with regs := { s.regs with xRe := v } } ∧
    s.writeWord 0x034 v = { s with regs := { s.regs with xIm := v } } ∧
    s.writeWord 0x038 v = { s with regs := { s.regs with xStride := v } } ∧
    s.writeWord 0x040 v = { s with regs := { s.regs with yRe := v } } ∧
    s.writeWord 0x044 v = { s with regs := { s.regs with yIm := v } } ∧
    s.writeWord 0x048 v = { s with regs := { s.regs with yStride := v } } ∧
    s.writeWord 0x050 v = { s with regs := { s.regs with fBase := v } } ∧
    s.writeWord 0x054 v = { s with regs := { s.regs with fStride := v } }

/-- R292: a state is final when the port is empty, the engine IDLE and no soft reset pending, and then the observation is DMEM, the registers as
they read by rising offset, and TW_N; a state with a command in flight has none. The observation after a command does not depend on how long it
took, on the accesses at the port, or on the responses and free values before it. -/
def Obligations.ObservationIgnoresTiming : Prop :=
  (∀ s : State, s.port ≠ [] ∨ s.eng = .busy ∨ s.srstPending = true → s.finalObservation = none) ∧
  (∀ s : State, s.port = [] → s.eng = .idle → s.srstPending = false →
    ∃ o, s.finalObservation = some o ∧ o.mem = s.mem ∧ o.twN = s.twN ∧
      o.registers = [0x000, 0x004, 0x008, 0x00C, 0x010, 0x014, 0x018, 0x01C, 0x020, 0x024, 0x028, 0x030, 0x034, 0x038, 0x040, 0x044, 0x048,
        0x050, 0x054].map (fun o => s.readWord o)) ∧
  ∀ (i : Instr) (s : State) (delay fresh : Nat) (port : List Access) (responses : List Response),
    ∃ t t', exec i s = .next t ∧ exec i { s with delay := delay, fresh := fresh, port := port, responses := responses } = .next t' ∧
      t'.observation = t.observation
end

