-- ==== Sys2Proof/Laws/State.lean ====
section
/-! SUPPORT. One lemma per field per update of State: what an update writes and what it leaves. Each is true by unfolding the update, so that no
later proof unfolds a record update. -/

namespace Sys2Proof.Machine

/-! ### State.respond -/

@[simp] theorem State.respond_config (r : Response) (s : State) : (s.respond r).config = s.config := rfl
@[simp] theorem State.respond_ieDone (r : Response) (s : State) : (s.respond r).ieDone = s.ieDone := rfl
@[simp] theorem State.respond_ieErr (r : Response) (s : State) : (s.respond r).ieErr = s.ieErr := rfl
@[simp] theorem State.respond_srstPending (r : Response) (s : State) : (s.respond r).srstPending = s.srstPending := rfl
@[simp] theorem State.respond_eng (r : Response) (s : State) : (s.respond r).eng = s.eng := rfl
@[simp] theorem State.respond_done (r : Response) (s : State) : (s.respond r).done = s.done := rfl
@[simp] theorem State.respond_err (r : Response) (s : State) : (s.respond r).err = s.err := rfl
@[simp] theorem State.respond_ovr (r : Response) (s : State) : (s.respond r).ovr = s.ovr := rfl
@[simp] theorem State.respond_errCode (r : Response) (s : State) : (s.respond r).errCode = s.errCode := rfl
@[simp] theorem State.respond_errSrc (r : Response) (s : State) : (s.respond r).errSrc = s.errSrc := rfl
@[simp] theorem State.respond_lastCmd (r : Response) (s : State) : (s.respond r).lastCmd = s.lastCmd := rfl
@[simp] theorem State.respond_regs (r : Response) (s : State) : (s.respond r).regs = s.regs := rfl
@[simp] theorem State.respond_twN (r : Response) (s : State) : (s.respond r).twN = s.twN := rfl
@[simp] theorem State.respond_latch (r : Response) (s : State) : (s.respond r).latch = s.latch := rfl
@[simp] theorem State.respond_mem (r : Response) (s : State) : (s.respond r).mem = s.mem := rfl
@[simp] theorem State.respond_port (r : Response) (s : State) : (s.respond r).port = s.port := rfl
@[simp] theorem State.respond_responses (r : Response) (s : State) : (s.respond r).responses = s.responses ++ [r] := rfl
@[simp] theorem State.respond_delay (r : Response) (s : State) : (s.respond r).delay = s.delay := rfl
@[simp] theorem State.respond_fresh (r : Response) (s : State) : (s.respond r).fresh = s.fresh := rfl
@[simp] theorem State.respond_resetPin (r : Response) (s : State) : (s.respond r).resetPin = s.resetPin := rfl
@[simp] theorem State.respond_accessInReset (r : Response) (s : State) : (s.respond r).accessInReset = s.accessInReset := rfl

/-! ### State.accept -/

@[simp] theorem State.accept_config (w : Word) (s : State) : (s.accept w).config = s.config := rfl
@[simp] theorem State.accept_ieDone (w : Word) (s : State) : (s.accept w).ieDone = s.ieDone := rfl
@[simp] theorem State.accept_ieErr (w : Word) (s : State) : (s.accept w).ieErr = s.ieErr := rfl
@[simp] theorem State.accept_srstPending (w : Word) (s : State) : (s.accept w).srstPending = s.srstPending := rfl
@[simp] theorem State.accept_eng (w : Word) (s : State) : (s.accept w).eng = .busy := rfl
@[simp] theorem State.accept_done (w : Word) (s : State) : (s.accept w).done = s.done := rfl
@[simp] theorem State.accept_err (w : Word) (s : State) : (s.accept w).err = s.err := rfl
@[simp] theorem State.accept_ovr (w : Word) (s : State) : (s.accept w).ovr = s.ovr := rfl
@[simp] theorem State.accept_errCode (w : Word) (s : State) : (s.accept w).errCode = s.errCode := rfl
@[simp] theorem State.accept_errSrc (w : Word) (s : State) : (s.accept w).errSrc = s.errSrc := rfl
@[simp] theorem State.accept_lastCmd (w : Word) (s : State) : (s.accept w).lastCmd = w := rfl
@[simp] theorem State.accept_regs (w : Word) (s : State) : (s.accept w).regs = s.regs := rfl
@[simp] theorem State.accept_twN (w : Word) (s : State) : (s.accept w).twN = s.twN := rfl
@[simp] theorem State.accept_latch (w : Word) (s : State) : (s.accept w).latch = { cmd := w, ops := s.regs } := rfl
@[simp] theorem State.accept_mem (w : Word) (s : State) : (s.accept w).mem = s.mem := rfl
@[simp] theorem State.accept_port (w : Word) (s : State) : (s.accept w).port = s.port := rfl
@[simp] theorem State.accept_responses (w : Word) (s : State) : (s.accept w).responses = s.responses := rfl
@[simp] theorem State.accept_delay (w : Word) (s : State) : (s.accept w).delay = Config.latency s.fresh := rfl
@[simp] theorem State.accept_fresh (w : Word) (s : State) : (s.accept w).fresh = s.fresh + 1 := rfl
@[simp] theorem State.accept_resetPin (w : Word) (s : State) : (s.accept w).resetPin = s.resetPin := rfl
@[simp] theorem State.accept_accessInReset (w : Word) (s : State) : (s.accept w).accessInReset = s.accessInReset := rfl

/-! ### State.placeCommand -/

@[simp] theorem State.placeCommand_config (w : Word) (s : State) : (s.placeCommand w).config = s.config := rfl
@[simp] theorem State.placeCommand_ieDone (w : Word) (s : State) : (s.placeCommand w).ieDone = s.ieDone := rfl
@[simp] theorem State.placeCommand_ieErr (w : Word) (s : State) : (s.placeCommand w).ieErr = s.ieErr := rfl
@[simp] theorem State.placeCommand_srstPending (w : Word) (s : State) : (s.placeCommand w).srstPending = s.srstPending := rfl
@[simp] theorem State.placeCommand_eng (w : Word) (s : State) : (s.placeCommand w).eng = .busy := rfl
@[simp] theorem State.placeCommand_done (w : Word) (s : State) : (s.placeCommand w).done = s.done := rfl
@[simp] theorem State.placeCommand_err (w : Word) (s : State) : (s.placeCommand w).err = s.err := rfl
@[simp] theorem State.placeCommand_ovr (w : Word) (s : State) : (s.placeCommand w).ovr = s.ovr := rfl
@[simp] theorem State.placeCommand_errCode (w : Word) (s : State) : (s.placeCommand w).errCode = s.errCode := rfl
@[simp] theorem State.placeCommand_errSrc (w : Word) (s : State) : (s.placeCommand w).errSrc = s.errSrc := rfl
@[simp] theorem State.placeCommand_lastCmd (w : Word) (s : State) : (s.placeCommand w).lastCmd = w := rfl
@[simp] theorem State.placeCommand_regs (w : Word) (s : State) : (s.placeCommand w).regs = s.regs := rfl
@[simp] theorem State.placeCommand_twN (w : Word) (s : State) : (s.placeCommand w).twN = s.twN := rfl
@[simp] theorem State.placeCommand_latch (w : Word) (s : State) : (s.placeCommand w).latch = { cmd := w, ops := s.regs } := rfl
@[simp] theorem State.placeCommand_mem (w : Word) (s : State) : (s.placeCommand w).mem = s.mem := rfl
@[simp] theorem State.placeCommand_port (w : Word) (s : State) : (s.placeCommand w).port = s.port := rfl
@[simp] theorem State.placeCommand_responses (w : Word) (s : State) : (s.placeCommand w).responses = s.responses := rfl
@[simp] theorem State.placeCommand_delay (w : Word) (s : State) : (s.placeCommand w).delay = 0 := rfl
@[simp] theorem State.placeCommand_fresh (w : Word) (s : State) : (s.placeCommand w).fresh = s.fresh := rfl
@[simp] theorem State.placeCommand_resetPin (w : Word) (s : State) : (s.placeCommand w).resetPin = false := rfl
@[simp] theorem State.placeCommand_accessInReset (w : Word) (s : State) : (s.placeCommand w).accessInReset = false := rfl

/-! ### State.softReset -/

@[simp] theorem State.softReset_config (s : State) : (s.softReset).config = s.config := rfl
@[simp] theorem State.softReset_ieDone (s : State) : (s.softReset).ieDone = false := rfl
@[simp] theorem State.softReset_ieErr (s : State) : (s.softReset).ieErr = false := rfl
@[simp] theorem State.softReset_srstPending (s : State) : (s.softReset).srstPending = false := rfl
@[simp] theorem State.softReset_eng (s : State) : (s.softReset).eng = .idle := rfl
@[simp] theorem State.softReset_done (s : State) : (s.softReset).done = false := rfl
@[simp] theorem State.softReset_err (s : State) : (s.softReset).err = false := rfl
@[simp] theorem State.softReset_ovr (s : State) : (s.softReset).ovr = false := rfl
@[simp] theorem State.softReset_errCode (s : State) : (s.softReset).errCode = .success := rfl
@[simp] theorem State.softReset_errSrc (s : State) : (s.softReset).errSrc = none := rfl
@[simp] theorem State.softReset_lastCmd (s : State) : (s.softReset).lastCmd = 0 := rfl
@[simp] theorem State.softReset_regs (s : State) : (s.softReset).regs = OperandRegs.zero := rfl
@[simp] theorem State.softReset_twN (s : State) : (s.softReset).twN = 0 := rfl
@[simp] theorem State.softReset_latch (s : State) : (s.softReset).latch = s.latch := rfl
@[simp] theorem State.softReset_mem (s : State) : (s.softReset).mem = s.mem := rfl
@[simp] theorem State.softReset_port (s : State) : (s.softReset).port = s.port := rfl
@[simp] theorem State.softReset_responses (s : State) : (s.softReset).responses = s.responses := rfl
@[simp] theorem State.softReset_delay (s : State) : (s.softReset).delay = s.delay := rfl
@[simp] theorem State.softReset_fresh (s : State) : (s.softReset).fresh = s.fresh := rfl
@[simp] theorem State.softReset_resetPin (s : State) : (s.softReset).resetPin = s.resetPin := rfl
@[simp] theorem State.softReset_accessInReset (s : State) : (s.softReset).accessInReset = s.accessInReset := rfl

/-! ### State.hardReset -/

@[simp] theorem State.hardReset_config (s : State) : (s.hardReset).config = s.config := rfl
@[simp] theorem State.hardReset_ieDone (s : State) : (s.hardReset).ieDone = false := rfl
@[simp] theorem State.hardReset_ieErr (s : State) : (s.hardReset).ieErr = false := rfl
@[simp] theorem State.hardReset_srstPending (s : State) : (s.hardReset).srstPending = false := rfl
@[simp] theorem State.hardReset_eng (s : State) : (s.hardReset).eng = .idle := rfl
@[simp] theorem State.hardReset_done (s : State) : (s.hardReset).done = false := rfl
@[simp] theorem State.hardReset_err (s : State) : (s.hardReset).err = false := rfl
@[simp] theorem State.hardReset_ovr (s : State) : (s.hardReset).ovr = false := rfl
@[simp] theorem State.hardReset_errCode (s : State) : (s.hardReset).errCode = .success := rfl
@[simp] theorem State.hardReset_errSrc (s : State) : (s.hardReset).errSrc = none := rfl
@[simp] theorem State.hardReset_lastCmd (s : State) : (s.hardReset).lastCmd = 0 := rfl
@[simp] theorem State.hardReset_regs (s : State) : (s.hardReset).regs = OperandRegs.zero := rfl
@[simp] theorem State.hardReset_twN (s : State) : (s.hardReset).twN = 0 := rfl
@[simp] theorem State.hardReset_latch (s : State) : (s.hardReset).latch = s.latch := rfl
@[simp] theorem State.hardReset_mem (s : State) : (s.hardReset).mem = s.inFlightAddrs.foldl (fun m a => m.writeByte a none) s.mem := rfl
@[simp] theorem State.hardReset_port (s : State) : (s.hardReset).port = s.port := rfl
@[simp] theorem State.hardReset_responses (s : State) : (s.hardReset).responses = s.responses := rfl
@[simp] theorem State.hardReset_delay (s : State) : (s.hardReset).delay = s.delay := rfl
@[simp] theorem State.hardReset_fresh (s : State) : (s.hardReset).fresh = s.fresh := rfl
@[simp] theorem State.hardReset_resetPin (s : State) : (s.hardReset).resetPin = s.resetPin := rfl
@[simp] theorem State.hardReset_accessInReset (s : State) : (s.hardReset).accessInReset = s.accessInReset := rfl

/-! ### State.writeStatus -/

@[simp] theorem State.writeStatus_config (v : Word) (s : State) : (s.writeStatus v).config = s.config := rfl
@[simp] theorem State.writeStatus_ieDone (v : Word) (s : State) : (s.writeStatus v).ieDone = s.ieDone := rfl
@[simp] theorem State.writeStatus_ieErr (v : Word) (s : State) : (s.writeStatus v).ieErr = s.ieErr := rfl
@[simp] theorem State.writeStatus_srstPending (v : Word) (s : State) : (s.writeStatus v).srstPending = s.srstPending := rfl
@[simp] theorem State.writeStatus_eng (v : Word) (s : State) : (s.writeStatus v).eng = s.eng := rfl
@[simp] theorem State.writeStatus_done (v : Word) (s : State) : (s.writeStatus v).done = (s.done && !v.getLsbD 1) := rfl
@[simp] theorem State.writeStatus_err (v : Word) (s : State) : (s.writeStatus v).err = (s.err && !v.getLsbD 2) := rfl
@[simp] theorem State.writeStatus_ovr (v : Word) (s : State) : (s.writeStatus v).ovr = (s.ovr && !v.getLsbD 3) := rfl
@[simp] theorem State.writeStatus_errCode (v : Word) (s : State) : (s.writeStatus v).errCode = s.errCode := rfl
@[simp] theorem State.writeStatus_errSrc (v : Word) (s : State) : (s.writeStatus v).errSrc = s.errSrc := rfl
@[simp] theorem State.writeStatus_lastCmd (v : Word) (s : State) : (s.writeStatus v).lastCmd = s.lastCmd := rfl
@[simp] theorem State.writeStatus_regs (v : Word) (s : State) : (s.writeStatus v).regs = s.regs := rfl
@[simp] theorem State.writeStatus_twN (v : Word) (s : State) : (s.writeStatus v).twN = s.twN := rfl
@[simp] theorem State.writeStatus_latch (v : Word) (s : State) : (s.writeStatus v).latch = s.latch := rfl
@[simp] theorem State.writeStatus_mem (v : Word) (s : State) : (s.writeStatus v).mem = s.mem := rfl
@[simp] theorem State.writeStatus_port (v : Word) (s : State) : (s.writeStatus v).port = s.port := rfl
@[simp] theorem State.writeStatus_responses (v : Word) (s : State) : (s.writeStatus v).responses = s.responses := rfl
@[simp] theorem State.writeStatus_delay (v : Word) (s : State) : (s.writeStatus v).delay = s.delay := rfl
@[simp] theorem State.writeStatus_fresh (v : Word) (s : State) : (s.writeStatus v).fresh = s.fresh := rfl
@[simp] theorem State.writeStatus_resetPin (v : Word) (s : State) : (s.writeStatus v).resetPin = s.resetPin := rfl
@[simp] theorem State.writeStatus_accessInReset (v : Word) (s : State) : (s.writeStatus v).accessInReset = s.accessInReset := rfl

/-! ### State.succeeded -/

@[simp] theorem State.succeeded_config (m : Memory) (w : Word) (s : State) : (s.succeeded m w).config = s.config := rfl
@[simp] theorem State.succeeded_ieDone (m : Memory) (w : Word) (s : State) : (s.succeeded m w).ieDone = s.ieDone := rfl
@[simp] theorem State.succeeded_ieErr (m : Memory) (w : Word) (s : State) : (s.succeeded m w).ieErr = s.ieErr := rfl
@[simp] theorem State.succeeded_srstPending (m : Memory) (w : Word) (s : State) : (s.succeeded m w).srstPending = s.srstPending := rfl
@[simp] theorem State.succeeded_eng (m : Memory) (w : Word) (s : State) : (s.succeeded m w).eng = .idle := rfl
@[simp] theorem State.succeeded_done (m : Memory) (w : Word) (s : State) : (s.succeeded m w).done = true := rfl
@[simp] theorem State.succeeded_err (m : Memory) (w : Word) (s : State) : (s.succeeded m w).err = s.err := rfl
@[simp] theorem State.succeeded_ovr (m : Memory) (w : Word) (s : State) : (s.succeeded m w).ovr = s.ovr := rfl
@[simp] theorem State.succeeded_errCode (m : Memory) (w : Word) (s : State) : (s.succeeded m w).errCode = .success := rfl
@[simp] theorem State.succeeded_errSrc (m : Memory) (w : Word) (s : State) : (s.succeeded m w).errSrc = none := rfl
@[simp] theorem State.succeeded_lastCmd (m : Memory) (w : Word) (s : State) : (s.succeeded m w).lastCmd = s.lastCmd := rfl
@[simp] theorem State.succeeded_regs (m : Memory) (w : Word) (s : State) : (s.succeeded m w).regs = s.regs := rfl
@[simp] theorem State.succeeded_twN (m : Memory) (w : Word) (s : State) : (s.succeeded m w).twN = w := rfl
@[simp] theorem State.succeeded_latch (m : Memory) (w : Word) (s : State) : (s.succeeded m w).latch = s.latch := rfl
@[simp] theorem State.succeeded_mem (m : Memory) (w : Word) (s : State) : (s.succeeded m w).mem = m := rfl
@[simp] theorem State.succeeded_port (m : Memory) (w : Word) (s : State) : (s.succeeded m w).port = s.port := rfl
@[simp] theorem State.succeeded_responses (m : Memory) (w : Word) (s : State) : (s.succeeded m w).responses = s.responses := rfl
@[simp] theorem State.succeeded_delay (m : Memory) (w : Word) (s : State) : (s.succeeded m w).delay = s.delay := rfl
@[simp] theorem State.succeeded_fresh (m : Memory) (w : Word) (s : State) : (s.succeeded m w).fresh = s.fresh := rfl
@[simp] theorem State.succeeded_resetPin (m : Memory) (w : Word) (s : State) : (s.succeeded m w).resetPin = s.resetPin := rfl
@[simp] theorem State.succeeded_accessInReset (m : Memory) (w : Word) (s : State) : (s.succeeded m w).accessInReset = s.accessInReset := rfl

/-! ### State.failed -/

@[simp] theorem State.failed_config (e : CmdError) (s : State) : (s.failed e).config = s.config := rfl
@[simp] theorem State.failed_ieDone (e : CmdError) (s : State) : (s.failed e).ieDone = s.ieDone := rfl
@[simp] theorem State.failed_ieErr (e : CmdError) (s : State) : (s.failed e).ieErr = s.ieErr := rfl
@[simp] theorem State.failed_srstPending (e : CmdError) (s : State) : (s.failed e).srstPending = s.srstPending := rfl
@[simp] theorem State.failed_eng (e : CmdError) (s : State) : (s.failed e).eng = .idle := rfl
@[simp] theorem State.failed_done (e : CmdError) (s : State) : (s.failed e).done = true := rfl
@[simp] theorem State.failed_err (e : CmdError) (s : State) : (s.failed e).err = true := rfl
@[simp] theorem State.failed_ovr (e : CmdError) (s : State) : (s.failed e).ovr = s.ovr := rfl
@[simp] theorem State.failed_errCode (e : CmdError) (s : State) : (s.failed e).errCode = e.code := rfl
@[simp] theorem State.failed_errSrc (e : CmdError) (s : State) : (s.failed e).errSrc = e.src := rfl
@[simp] theorem State.failed_lastCmd (e : CmdError) (s : State) : (s.failed e).lastCmd = s.lastCmd := rfl
@[simp] theorem State.failed_regs (e : CmdError) (s : State) : (s.failed e).regs = s.regs := rfl
@[simp] theorem State.failed_twN (e : CmdError) (s : State) : (s.failed e).twN = s.twN := rfl
@[simp] theorem State.failed_latch (e : CmdError) (s : State) : (s.failed e).latch = s.latch := rfl
@[simp] theorem State.failed_mem (e : CmdError) (s : State) : (s.failed e).mem = s.mem := rfl
@[simp] theorem State.failed_port (e : CmdError) (s : State) : (s.failed e).port = s.port := rfl
@[simp] theorem State.failed_responses (e : CmdError) (s : State) : (s.failed e).responses = s.responses := rfl
@[simp] theorem State.failed_delay (e : CmdError) (s : State) : (s.failed e).delay = s.delay := rfl
@[simp] theorem State.failed_fresh (e : CmdError) (s : State) : (s.failed e).fresh = s.fresh := rfl
@[simp] theorem State.failed_resetPin (e : CmdError) (s : State) : (s.failed e).resetPin = s.resetPin := rfl
@[simp] theorem State.failed_accessInReset (e : CmdError) (s : State) : (s.failed e).accessInReset = s.accessInReset := rfl

end Sys2Proof.Machine
end

