-- ==== Sys2Proof/Laws/Memory.lean ====
section
/-! SUPPORT. DMEM: what a read gives after a write, and that every memory operation keeps the canonical form and stays inside a bound. -/

namespace Sys2Proof.Machine

/-- Every listed address is below n. -/
def Memory.below (m : Memory) (n : Nat) : Prop := ∀ c ∈ m, c.1 < n

theorem Memory.readByte_nil (a : Nat) : Memory.readByte [] a = none := rfl

theorem Memory.readByte_cons (c : Host.Cell) (m : Memory) (a : Nat) :
    Memory.readByte (c :: m) a = if c.1 = a then some c.2 else Memory.readByte m a := rfl

theorem Memory.readByte_eq_none_of_lt (m : Memory) (a : Nat) (h : ∀ c ∈ m, a < c.1) : m.readByte a = none := by
  induction m with
  | nil => rfl
  | cons c m ih =>
    have h1 := h c (by simp)
    rw [Memory.readByte_cons, if_neg (by omega)]
    exact ih fun d hd => h d (by simp [hd])

/-- A read after a write of a byte to the same offset gives that byte. -/
theorem Memory.readByte_writeByte_self (m : Memory) (a : Nat) (b : Byte) : (m.writeByte a (some b)).readByte a = some b := by
  induction m with
  | nil => simp [Memory.writeByte, Memory.readByte]
  | cons c m ih =>
    obtain ⟨x, w⟩ := c
    by_cases h : x < a
    · simp [Memory.writeByte, h, Memory.readByte, ih, show x ≠ a by omega]
    · by_cases h2 : x = a <;> simp [Memory.writeByte, h, h2, Memory.readByte]

/-- A read after ⊥ was written to the same offset gives ⊥. -/
theorem Memory.readByte_writeByte_none (m : Memory) (hm : m.wf) (a : Nat) : (m.writeByte a none).readByte a = none := by
  induction m with
  | nil => rfl
  | cons c m ih =>
    obtain ⟨x, w⟩ := c
    obtain ⟨hc, hm⟩ := List.pairwise_cons.mp hm
    by_cases h : x < a
    · simp [Memory.writeByte, h, Memory.readByte, ih hm, show x ≠ a by omega]
    · by_cases h2 : x = a
      · subst h2
        simp only [Memory.writeByte, lt_irrefl, if_false, if_true]
        exact Memory.readByte_eq_none_of_lt m x hc
      · simp only [Memory.writeByte, h, h2, if_false]
        refine Memory.readByte_eq_none_of_lt _ a fun d hd => ?_
        rcases List.mem_cons.mp hd with rfl | hd
        · simp; omega
        · have := hc d hd
          simp at this; omega

/-- A write leaves every other offset alone. -/
theorem Memory.readByte_writeByte_other (m : Memory) (a b : Nat) (v : Option Byte) (h : b ≠ a) :
    (m.writeByte a v).readByte b = m.readByte b := by
  induction m with
  | nil => cases v <;> simp [Memory.writeByte, Memory.readByte, h.symm]
  | cons c m ih =>
    obtain ⟨x, w⟩ := c
    by_cases hx : x < a
    · simp [Memory.writeByte, hx, Memory.readByte, ih]
    · by_cases h2 : x = a
      · subst h2
        cases v <;> simp [Memory.writeByte, Memory.readByte, h.symm]
      · cases v <;> simp [Memory.writeByte, hx, h2, Memory.readByte, h.symm]

theorem Memory.mem_writeByte (m : Memory) (a : Nat) (v : Option Byte) (c : Host.Cell) (h : c ∈ m.writeByte a v) :
    c ∈ m ∨ c.1 = a := by
  induction m with
  | nil => cases v <;> simp [Memory.writeByte] at h; simp [h]
  | cons d m ih =>
    obtain ⟨x, w⟩ := d
    simp only [Memory.writeByte] at h
    split at h
    · rcases List.mem_cons.mp h with h | h
      · simp [h]
      · rcases ih h with h | h <;> simp [h]
    · split at h
      · split at h
        · rcases List.mem_cons.mp h with h | h <;> simp [h]
        · rcases List.mem_cons.mp h with h | h <;> simp [h]
      · split at h <;> simp_all

/-- A write of a byte or of ⊥ keeps the canonical form. -/
theorem Memory.writeByte_wf (m : Memory) (hm : m.wf) (a : Nat) (v : Option Byte) : (m.writeByte a v).wf := by
  induction m with
  | nil => cases v <;> simp [Memory.writeByte, Memory.wf]
  | cons c m ih =>
    obtain ⟨x, w⟩ := c
    obtain ⟨hc, hm'⟩ := List.pairwise_cons.mp hm
    simp only [Memory.writeByte]
    split
    · refine List.pairwise_cons.mpr ⟨fun d hd => ?_, ih hm'⟩
      rcases Memory.mem_writeByte m a v d hd with hd | hd
      · exact hc d hd
      · simp [hd]; assumption
    · rename_i hx
      cases v with
      | none => simp only; split <;> assumption
      | some b =>
        simp only
        split
        · rename_i h2; subst h2; exact List.pairwise_cons.mpr ⟨hc, hm'⟩
        · refine List.pairwise_cons.mpr ⟨fun d hd => ?_, hm⟩
          rcases List.mem_cons.mp hd with rfl | hd
          · simp; omega
          · have := hc d hd
            simp at this ⊢; omega

/-- A write below a bound stays below it. -/
theorem Memory.writeByte_below (m : Memory) (n : Nat) (hm : m.below n) (a : Nat) (ha : a < n) (v : Option Byte) :
    (m.writeByte a v).below n := by
  intro c hc
  rcases Memory.mem_writeByte m a v c hc with h | h
  · exact hm c h
  · omega

theorem Memory.writeLE_wf (n : Nat) : ∀ (m : Memory) (_ : m.wf) (a v : Nat), (m.writeLE a n v).wf := by
  induction n with
  | zero => intro m hm a v; exact hm
  | succ n ih => intro m hm a v; exact ih _ (Memory.writeByte_wf m hm _ _) _ _

theorem Memory.undefine_wf (n : Nat) : ∀ (m : Memory) (_ : m.wf) (a : Nat), (m.undefine a n).wf := by
  induction n with
  | zero => intro m hm a; exact hm
  | succ n ih => intro m hm a; exact ih _ (Memory.writeByte_wf m hm _ _) _

theorem writeElem_wf (P : Prec) (m : Memory) (hm : m.wf) (a : Nat) (v : Option (Elem P)) : (writeElem P m a v).wf := by
  cases v
  · exact Memory.undefine_wf _ m hm a
  · exact Memory.writeLE_wf _ m hm a _

theorem Memory.writeLE_below (n N : Nat) : ∀ (m : Memory) (_ : m.below N) (a v : Nat) (_ : a + n ≤ N), (m.writeLE a n v).below N := by
  induction n with
  | zero => intro m hm a v _; exact hm
  | succ n ih => intro m hm a v h; exact ih _ (Memory.writeByte_below m N hm a (by omega) _) _ _ (by omega)

theorem Memory.undefine_below (n N : Nat) : ∀ (m : Memory) (_ : m.below N) (a : Nat) (_ : a + n ≤ N), (m.undefine a n).below N := by
  induction n with
  | zero => intro m hm a _; exact hm
  | succ n ih => intro m hm a h; exact ih _ (Memory.writeByte_below m N hm a (by omega) _) _ (by omega)

theorem writeElem_below (P : Prec) (m : Memory) (N : Nat) (hm : m.below N) (a : Nat) (v : Option (Elem P))
    (h : a + P.esize ≤ N) : (writeElem P m a v).below N := by
  cases v
  · exact Memory.undefine_below _ N m hm a h
  · exact Memory.writeLE_below _ N m hm a _ h

/-- A little-endian write touches its own bytes only. -/
theorem Memory.readByte_writeLE_other (n : Nat) : ∀ (m : Memory) (a v b : Nat) (_ : b < a ∨ a + n ≤ b),
    (m.writeLE a n v).readByte b = m.readByte b := by
  induction n with
  | zero => intros; rfl
  | succ n ih =>
    intro m a v b h
    rw [Memory.writeLE, ih _ _ _ _ (by omega), Memory.readByte_writeByte_other _ _ _ _ (by omega)]

/-- Marking bytes ⊥ touches those bytes only. -/
theorem Memory.readByte_undefine_other (n : Nat) : ∀ (m : Memory) (a b : Nat) (_ : b < a ∨ a + n ≤ b),
    (m.undefine a n).readByte b = m.readByte b := by
  induction n with
  | zero => intros; rfl
  | succ n ih =>
    intro m a b h
    rw [Memory.undefine, ih _ _ _ (by omega), Memory.readByte_writeByte_other _ _ _ _ (by omega)]

/-- A byte marked ⊥ reads ⊥. -/
theorem Memory.readByte_undefine_self (n : Nat) : ∀ (m : Memory) (_ : m.wf) (a b : Nat) (_ : a ≤ b ∧ b < a + n),
    (m.undefine a n).readByte b = none := by
  induction n with
  | zero => intro m _ a b h; omega
  | succ n ih =>
    intro m hm a b h
    rw [Memory.undefine]
    by_cases hb : b = a
    · subst hb
      rw [Memory.readByte_undefine_other _ _ _ _ (by omega), Memory.readByte_writeByte_none m hm]
    · exact ih _ (Memory.writeByte_wf m hm _ _) _ _ (by omega)

/-- Byte t of a little-endian write is byte t of the value. -/
theorem Memory.readByte_writeLE_self (n : Nat) : ∀ (m : Memory) (a v t : Nat) (_ : t < n),
    (m.writeLE a n v).readByte (a + t) = some (BitVec.ofNat 8 (v / 256 ^ t)) := by
  induction n with
  | zero => intro m a v t h; omega
  | succ n ih =>
    intro m a v t h
    rw [Memory.writeLE]
    rcases t with _ | t
    · rw [Memory.readByte_writeLE_other _ _ _ _ _ (by omega)]
      simp [Memory.readByte_writeByte_self]
    · have := ih (m.writeByte a (some (BitVec.ofNat 8 v))) (a + 1) (v / 256) t (by omega)
      rw [show a + (t + 1) = a + 1 + t by omega, this, Nat.div_div_eq_div_mul, pow_succ, mul_comm 256]

/-- A read depends on its own bytes only. -/
theorem Memory.readLE_congr (n : Nat) : ∀ (m m' : Memory) (a : Nat) (_ : ∀ t < n, m.readByte (a + t) = m'.readByte (a + t)),
    m.readLE a n = m'.readLE a n := by
  induction n with
  | zero => intros; rfl
  | succ n ih =>
    intro m m' a h
    have h0 := h 0 (by omega)
    simp only [Nat.add_zero] at h0
    have h1 := ih m m' (a + 1) fun t ht => by
      have := h (t + 1) (by omega)
      rwa [show a + (t + 1) = a + 1 + t by omega] at this
    simp only [Memory.readLE, h0, h1]

/-- A read of n written bytes gives the value written, modulo 256^n. -/
theorem Memory.readLE_writeLE (n : Nat) : ∀ (m : Memory) (a v : Nat), (m.writeLE a n v).readLE a n = some (v % 256 ^ n) := by
  induction n with
  | zero => intro m a v; simp [Memory.readLE, Nat.mod_one]
  | succ n ih =>
    intro m a v
    have h0 := Memory.readByte_writeLE_self (n + 1) m a v 0 (by omega)
    simp only [Nat.add_zero, pow_zero, Nat.div_one] at h0
    simp only [Memory.readLE, h0]
    rw [Memory.writeLE, ih]
    simp only [BitVec.toNat_ofNat, Option.some.injEq]
    change v % 256 + 256 * (v / 256 % 256 ^ n) = _
    rw [pow_succ 256 n, mul_comm (256 ^ n) 256, Nat.mod_mul]

/-- An element reads as the element stored. -/
theorem readElem_writeElem_some (P : Prec) (m : Memory) (a : Nat) (v : Elem P) :
    readElem P (writeElem P m a (some v)) a = some v := by
  have h : v.toNat % 256 ^ P.esize = v.toNat := by
    refine Nat.mod_eq_of_lt (lt_of_lt_of_eq v.isLt ?_)
    cases P <;> rfl
  simp [readElem, writeElem, Memory.readLE_writeLE, h]

/-- A read with a ⊥ byte is ⊥. -/
theorem Memory.readLE_eq_none (n : Nat) : ∀ (m : Memory) (a t : Nat) (_ : t < n) (_ : m.readByte (a + t) = none),
    m.readLE a n = none := by
  induction n with
  | zero => intro m a t h; omega
  | succ n ih =>
    intro m a t h hb
    rw [Memory.readLE]
    rcases t with _ | t
    · simp only [Nat.add_zero] at hb
      rw [hb]; split <;> simp_all
    · have := ih m (a + 1) t (by omega) (by rwa [show a + 1 + t = a + (t + 1) by omega])
      rw [this]; split <;> simp_all

/-- An element stored as unspecified reads as unspecified. -/
theorem readElem_writeElem_none (P : Prec) (m : Memory) (hm : m.wf) (a : Nat) :
    readElem P (writeElem P m a none) a = none := by
  have h : (0 : Nat) < P.esize := by cases P <;> decide
  have := Memory.readLE_eq_none P.esize (writeElem P m a none) a 0 h
    (Memory.readByte_undefine_self _ m hm _ _ (by simp [h]))
  simp [readElem, this]

/-- An element reads as the value last stored there, specified or not. -/
theorem readElem_writeElem (P : Prec) (m : Memory) (hm : m.wf) (a : Nat) (v : Option (Elem P)) :
    readElem P (writeElem P m a v) a = v := by
  cases v
  · exact readElem_writeElem_none P m hm a
  · exact readElem_writeElem_some P m a _

/-- An element store leaves every byte outside its element alone. -/
theorem readByte_writeElem_other (P : Prec) (m : Memory) (a : Nat) (v : Option (Elem P)) (b : Nat)
    (h : b < a ∨ a + P.esize ≤ b) : (writeElem P m a v).readByte b = m.readByte b := by
  cases v
  · exact Memory.readByte_undefine_other _ _ _ _ h
  · exact Memory.readByte_writeLE_other _ _ _ _ _ h

/-- An element read depends on its own bytes only. -/
theorem readElem_congr (P : Prec) (m m' : Memory) (a : Nat)
    (h : ∀ t < P.esize, m.readByte (a + t) = m'.readByte (a + t)) : readElem P m a = readElem P m' a := by
  rw [readElem, readElem, Memory.readLE_congr _ m m' a h]

/-- An element store leaves a disjoint element alone. -/
theorem readElem_writeElem_other (P : Prec) (m : Memory) (a : Nat) (v : Option (Elem P)) (b : Nat)
    (h : b + P.esize ≤ a ∨ a + P.esize ≤ b) : readElem P (writeElem P m a v) b = readElem P m b :=
  readElem_congr P _ _ b fun t ht => readByte_writeElem_other P m a v _ (by omega)

/-! ### The stores of a command -/

theorem storeAll_nil (P : Prec) (m : Memory) : storeAll P m [] = m := rfl

theorem storeAll_cons (P : Prec) (m : Memory) (w : Store P) (ws : List (Store P)) :
    storeAll P m (w :: ws) = storeAll P (writeElem P m w.addr w.value) ws := rfl

theorem storeAll_append (P : Prec) (m : Memory) (us ws : List (Store P)) :
    storeAll P m (us ++ ws) = storeAll P (storeAll P m us) ws := by
  simp [storeAll, List.foldl_append]

theorem storeAll_wf (P : Prec) (ws : List (Store P)) : ∀ (m : Memory) (_ : m.wf), (storeAll P m ws).wf := by
  induction ws with
  | nil => intro m hm; exact hm
  | cons w ws ih => intro m hm; exact ih _ (writeElem_wf P m hm _ _)

theorem storeAll_below (P : Prec) (N : Nat) (ws : List (Store P)) :
    ∀ (m : Memory) (_ : m.below N) (_ : ∀ w ∈ ws, w.addr + P.esize ≤ N), (storeAll P m ws).below N := by
  induction ws with
  | nil => intro m hm _; exact hm
  | cons w ws ih =>
    intro m hm h
    exact ih _ (writeElem_below P m N hm _ _ (h w (by simp))) fun u hu => h u (by simp [hu])

/-- A byte that no store covers is unchanged. -/
theorem readByte_storeAll_other (P : Prec) (b : Nat) (ws : List (Store P)) :
    ∀ (m : Memory) (_ : ∀ w ∈ ws, b < w.addr ∨ w.addr + P.esize ≤ b), (storeAll P m ws).readByte b = m.readByte b := by
  induction ws with
  | nil => intros; rfl
  | cons w ws ih =>
    intro m h
    rw [storeAll_cons, ih _ fun u hu => h u (by simp [hu]), readByte_writeElem_other P _ _ _ _ (h w (by simp))]

/-- An element that no store overlaps is unchanged. -/
theorem readElem_storeAll_other (P : Prec) (b : Nat) (ws : List (Store P)) :
    ∀ (m : Memory) (_ : ∀ w ∈ ws, b + P.esize ≤ w.addr ∨ w.addr + P.esize ≤ b), readElem P (storeAll P m ws) b = readElem P m b := by
  induction ws with
  | nil => intros; rfl
  | cons w ws ih =>
    intro m h
    rw [storeAll_cons, ih _ fun u hu => h u (by simp [hu]), readElem_writeElem_other P _ _ _ _ (h w (by simp))]

/-- The last store to an element's offset decides what it reads as, where no later store overlaps it. Only an unspecified value needs the
canonical form. -/
theorem readElem_storeAll_last (P : Prec) (m : Memory) (us : List (Store P)) (w : Store P) (ws : List (Store P))
    (hm : m.wf ∨ w.value ≠ none)
    (h : ∀ u ∈ ws, w.addr + P.esize ≤ u.addr ∨ u.addr + P.esize ≤ w.addr) :
    readElem P (storeAll P m (us ++ w :: ws)) w.addr = w.value := by
  rw [storeAll_append, storeAll_cons, readElem_storeAll_other P _ _ _ h]
  rcases hm with hm | hv
  · exact readElem_writeElem P _ (storeAll_wf P us m hm) _ _
  · obtain ⟨v, hv⟩ := Option.ne_none_iff_exists'.mp hv
    rw [hv, readElem_writeElem_some]

/-! ### Two canonical memories with the same bytes are the same -/

theorem Memory.wf_tail {c : Host.Cell} {m : Memory} (h : Memory.wf (c :: m)) : m.wf := (List.pairwise_cons.mp h).2

theorem Memory.ext_of_readByte : ∀ (m m' : Memory) (_ : m.wf) (_ : m'.wf) (_ : ∀ a, m.readByte a = m'.readByte a), m = m'
  | [], [], _, _, _ => rfl
  | [], d :: m', _, _, h => by have := h d.1; simp [Memory.readByte] at this
  | c :: m, [], _, _, h => by have := h c.1; simp [Memory.readByte] at this
  | c :: m, d :: m', hm, hm', h => by
    obtain ⟨hc, hm1⟩ := List.pairwise_cons.mp hm
    obtain ⟨hd, hm2⟩ := List.pairwise_cons.mp hm'
    have key : c = d := by
      rcases Nat.lt_trichotomy c.1 d.1 with hlt | heq | hlt
      · have := h c.1
        rw [Memory.readByte_cons, if_pos rfl, Memory.readByte_eq_none_of_lt (d :: m') c.1 fun e he => by
          rcases List.mem_cons.mp he with rfl | he
          · exact hlt
          · have := hd e he; omega] at this
        simp at this
      · have := h c.1
        rw [Memory.readByte_cons, if_pos rfl, Memory.readByte_cons, if_pos heq.symm] at this
        exact Prod.ext heq (by simpa using this)
      · have := h d.1
        rw [Memory.readByte_cons (d) m', if_pos rfl, Memory.readByte_eq_none_of_lt (c :: m) d.1 fun e he => by
          rcases List.mem_cons.mp he with rfl | he
          · exact hlt
          · have := hc e he; omega] at this
        simp at this
    subst key
    congr 1
    refine Memory.ext_of_readByte m m' hm1 hm2 fun a => ?_
    by_cases ha : c.1 = a
    · subst ha
      rw [Memory.readByte_eq_none_of_lt m c.1 hc, Memory.readByte_eq_none_of_lt m' c.1 hd]
    · have := h a
      rwa [Memory.readByte_cons, if_neg ha, Memory.readByte_cons, if_neg ha] at this

end Sys2Proof.Machine
end

