-- ==== Sys2Proof/Laws/Checks.lean ====
section
/-! SUPPORT. The checks: the size test, where a region's slots lie, and what a command that passes its checks may rely on. -/

namespace Sys2Proof.Machine

theorem esize_pos (P : Prec) : 0 < P.esize := by cases P <;> decide

theorem validSize_iff (c : Config) (n : Nat) : validSize c n = true ↔ SizeOk c n := by
  simp only [validSize, SizeOk, Bool.and_eq_true, beq_iff_eq, decide_eq_true_eq]
  constructor
  · rintro ⟨⟨h1, h2⟩, h3⟩
    exact ⟨_, h2, h3, h1⟩
  · rintro ⟨k, h1, h2, rfl⟩
    simp [Nat.log2_two_pow, h1, h2]

/-- The EA is affine in the index. -/
theorem ea_eq (base stride : Word) (i : Nat) (P : Prec) :
    ea base stride i P = base.toNat + i * (stride.toInt * P.esize) := by
  simp [ea, mul_assoc]

theorem ea_zero (base stride : Word) (P : Prec) : ea base stride 0 P = base.toNat := by simp [ea]

/-- Every slot of a region lies in its byte interval (20_memory R84). -/
theorem Region.slot_in_interval (r : Region) (P : Prec) (i : Nat) (hi : i < r.count) :
    r.lo P ≤ ea r.base r.stride i P ∧ ea r.base r.stride i P + r.slotBytes P ≤ r.hi P := by
  have he : (0 : Int) < P.esize := by exact_mod_cast esize_pos P
  have hi' : (i : Int) ≤ ((r.count - 1 : Nat) : Int) := by omega
  have hi0 : (0 : Int) ≤ (i : Int) := by omega
  simp only [Region.lo, Region.hi, ea_eq]
  split
  · rename_i hs
    have hp : 0 ≤ r.stride.toInt * (P.esize : Int) := by positivity
    constructor
    · have := mul_nonneg hi0 hp; push_cast; omega
    · have := mul_le_mul_of_nonneg_right hi' hp; omega
  · rename_i hs
    have hp : r.stride.toInt * (P.esize : Int) ≤ 0 := by
      apply mul_nonpos_of_nonpos_of_nonneg <;> omega
    constructor
    · have := mul_le_mul_of_nonpos_right hi' hp; omega
    · have := mul_nonpos_of_nonneg_of_nonpos hi0 hp; push_cast; omega

theorem eaNat_cast (base stride : Word) (i : Nat) (P : Prec) (h : 0 ≤ ea base stride i P) :
    (eaNat base stride i P : Int) = ea base stride i P := Int.toNat_of_nonneg h

/-- Two indices of one vector with a nonzero stride lie at least an element apart. -/
theorem ea_apart (base stride : Word) (P : Prec) (hs : stride ≠ 0) (i j : Nat) (hij : i ≠ j) :
    ea base stride i P + P.esize ≤ ea base stride j P ∨ ea base stride j P + P.esize ≤ ea base stride i P := by
  have he : (0 : Int) < P.esize := by exact_mod_cast esize_pos P
  have h0 : stride.toInt ≠ 0 := by
    intro h
    exact hs (BitVec.eq_of_toInt_eq (by simpa using h))
  have hd : ((i : Int) - j) * stride.toInt ≠ 0 := mul_ne_zero (by omega) h0
  have key : ea base stride i P - ea base stride j P = ((i : Int) - j) * stride.toInt * P.esize := by
    simp only [ea]; ring
  rcases lt_or_gt_of_ne hd with h | h
  · left
    have : ((i : Int) - j) * stride.toInt * P.esize ≤ (-1) * P.esize := mul_le_mul_of_nonneg_right (by omega) (by omega)
    omega
  · right
    have : 1 * (P.esize : Int) ≤ ((i : Int) - j) * stride.toInt * P.esize := mul_le_mul_of_nonneg_right (by omega) (by omega)
    omega

/-- What a region that passes its own checks gives: its slots lie in DMEM. -/
theorem Region.slots_inside_of_bounds (r : Region) (c : Config) (P : Prec) (h : r.boundsError c P = none) (hc : r.count ≠ 0) :
    0 ≤ r.lo P ∧ r.hi P ≤ (c.dmemBytes : Int) := by
  simp only [Region.boundsError, Region.nonempty] at h
  by_contra hn
  have : (!(decide (0 ≤ r.lo P) && decide (r.hi P ≤ (c.dmemBytes : Int)))) = true := by
    simp only [Bool.not_eq_true', Bool.and_eq_false_iff, decide_eq_false_iff_not]
    by_contra h2
    simp only [not_or, not_not] at h2
    exact hn h2
  simp [hc] at h
  exact hn ⟨h.1, h.2⟩

theorem or_eq_none {α : Type} (a b : Option α) : a.or b = none ↔ a = none ∧ b = none := by
  cases a <;> simp

/-- A command passes its checks exactly when each of them passes (60_exceptions R244). -/
theorem commandError_eq_none (i : Instr) (s : State) :
    commandError i s = none ↔
      sizeError i s = none ∧ tableError i s = none ∧ stageError i s = none ∧
        (∀ r ∈ regions i s.latch.ops, r.strideError = none) ∧
        (∀ r ∈ regions i s.latch.ops, r.alignError i.prec = none) ∧
        (∀ r ∈ regions i s.latch.ops, r.boundsError s.config i.prec = none) ∧
        (∀ p ∈ overlapPairs i, pairError (regions i s.latch.ops) i.prec p = none) := by
  simp only [commandError, regionError, or_eq_none, List.findSome?_eq_none_iff]
  tauto

theorem Region.strideError_eq_none (r : Region) : r.strideError = none ↔ ¬ r.BadStride := by
  simp [Region.strideError, Region.nonempty]

theorem Region.alignError_eq_none (r : Region) (P : Prec) : r.alignError P = none ↔ ¬ r.Misaligned P := by
  simp [Region.alignError, Region.nonempty]

theorem Region.overlaps_iff (a b : Region) (P : Prec) : a.overlaps b P = true ↔ a.Meets b P := by
  simp [Region.overlaps, Region.nonempty, and_assoc]

/-- The closed forms of R84 are attained. -/
theorem Region.interval_attained (r : Region) (P : Prec) (hc : r.count ≠ 0) :
    (∃ i, i < r.count ∧ r.lo P = ea r.base r.stride i P) ∧
    (∃ i, i < r.count ∧ r.hi P = ea r.base r.stride i P + r.slotBytes P) := by
  simp only [Region.lo, Region.hi]
  split
  · exact ⟨⟨0, by omega, rfl⟩, ⟨r.count - 1, by omega, rfl⟩⟩
  · exact ⟨⟨r.count - 1, by omega, rfl⟩, ⟨0, by omega, rfl⟩⟩

/-- The bounds check is the statement about every slot (60_exceptions R240, code 7). -/
theorem Region.boundsError_eq_none (r : Region) (c : Config) (P : Prec) : r.boundsError c P = none ↔ ¬ r.Outside c P := by
  by_cases hc : r.count = 0
  · simp [Region.boundsError, Region.nonempty, hc]
  · have key : r.SlotsInside c P ↔ 0 ≤ r.lo P ∧ r.hi P ≤ (c.dmemBytes : Int) := by
      constructor
      · intro h
        obtain ⟨⟨i, hi, h1⟩, ⟨j, hj, h2⟩⟩ := r.interval_attained P hc
        exact ⟨h1 ▸ (h i hi).1, h2 ▸ (h j hj).2⟩
      · rintro ⟨h1, h2⟩ i hi
        have := r.slot_in_interval P i hi
        exact ⟨by omega, by omega⟩
    simp only [Region.Outside, key]
    simp only [Region.boundsError, Region.nonempty]
    simp [hc, ← Bool.decide_and, - not_and]

/-- No command has two regions of one identifier. -/
theorem regions_nodup (i : Instr) (L : OperandRegs) : ((regions i L).map Region.id).Nodup := by
  cases i <;> simp [regions, inPlaceRegions]

theorem find_region (rs : List Region) (h : (rs.map Region.id).Nodup) (d : RegionId) (r : Region) :
    rs.find? (fun r => r.id == d) = some r ↔ r ∈ rs ∧ r.id = d := by
  induction rs with
  | nil => simp
  | cons q rs ih =>
    simp only [List.map_cons, List.nodup_cons, List.mem_map, not_exists, not_and] at h
    by_cases hq : q.id = d
    · have hb : (q.id == d) = true := by simp [hq]
      rw [List.find?_cons_of_pos (by simpa using hq)]
      simp only [Option.some.injEq, List.mem_cons]
      constructor
      · rintro rfl; exact ⟨.inl rfl, hq⟩
      · rintro ⟨rfl | hr, hd⟩
        · rfl
        · exact absurd (hd.trans hq.symm) (h.1 r hr)
    · rw [List.find?_cons_of_neg (by simpa using hq), ih h.2]
      constructor
      · rintro ⟨h1, h2⟩; exact ⟨List.mem_cons_of_mem _ h1, h2⟩
      · rintro ⟨h1, h2⟩
        rcases List.mem_cons.mp h1 with rfl | h1
        · exact absurd h2 hq
        · exact ⟨h1, h2⟩

/-- The overlap check of one pair (20_memory R90). -/
theorem pairError_eq (rs : List Region) (h : (rs.map Region.id).Nodup) (P : Prec) (p : RegionId × RegionId) :
    (PairMeets rs P p → pairError rs P p = some { code := .overlap, src := some p.1 }) ∧
      (¬ PairMeets rs P p → pairError rs P p = none) := by
  constructor
  · rintro ⟨a, ha, b, hb, h1, h2, hm⟩
    have ha' := (find_region rs h p.1 a).mpr ⟨ha, h1⟩
    have hb' := (find_region rs h p.2 b).mpr ⟨hb, h2⟩
    simp [pairError, ha', hb', (Region.overlaps_iff a b P).mpr hm]
  · intro hn
    unfold pairError
    split
    · rename_i a b ha hb
      have ha' := (find_region rs h p.1 a).mp ha
      have hb' := (find_region rs h p.2 b).mp hb
      rw [if_neg]
      intro ho
      exact hn ⟨a, ha'.1, b, hb'.1, ha'.2, hb'.2, (Region.overlaps_iff a b P).mp ho⟩
    all_goals rfl

theorem sizeError_eq (i : Instr) (s : State) :
    (SizePasses i s → sizeError i s = none) ∧
    (¬ SizePasses i s → sizeError i s = some { code := .invalidSize, src := none }) := by
  simp only [SizePasses, ← validSize_iff, sizeError]
  constructor
  · intro h; cases hc : Instr.checksSize i <;> simp_all
  · intro h; cases hc : Instr.checksSize i <;> simp_all

theorem tableError_eq (i : Instr) (s : State) :
    (TablePasses i s → tableError i s = none) ∧
    (¬ TablePasses i s → tableError i s = some { code := .sizeMismatch, src := none }) := by
  simp only [TablePasses, tableError]
  constructor <;> intro h <;> cases hc : Instr.isFft i <;> simp_all

theorem stageError_eq (i : Instr) (s : State) :
    (StagePasses i s → stageError i s = none) ∧
    (¬ StagePasses i s → stageError i s = some { code := .invalidStage, src := none }) := by
  have key : ∀ st n : Nat, (1 ≤ st ∧ 2 ^ st ≤ n) ↔ (1 ≤ st ∧ st ≤ n.log2) := by
    intro st n
    refine and_congr_right fun h => ?_
    by_cases hn : n = 0
    · subst hn; simp; omega
    · exact (Nat.le_log2 hn).symm
  cases i <;> simp [StagePasses, StageOk, Instr.isBfly, stageError, Instr.stage, key]
theorem or_some_elim {α : Type} {a b : Option α} {x : α} (h : a.or b = some x) : a = some x ∨ b = some x := by
  cases a <;> simp_all

/-- A check that fails reports one of the codes 2 to 8, with a region exactly for codes 5 to 8 (10_state R37). -/
theorem commandError_code (i : Instr) (s : State) (e : CmdError) (h : commandError i s = some e) :
    e.code ≠ .success ∧ e.src.isSome = e.code.hasRegion := by
  rcases or_some_elim h with h | h
  · rcases or_some_elim h with h | h
    · simp only [sizeError] at h; split at h <;> simp at h; subst h; decide
    · simp only [tableError] at h; split at h <;> simp at h; subst h; decide
  · rcases or_some_elim h with h | h
    · have := stageError_eq i s
      by_cases hs : StagePasses i s
      · rw [this.1 hs] at h; cases h
      · rw [this.2 hs] at h; cases h; decide
    · rcases or_some_elim h with h | h <;> rcases or_some_elim h with h | h <;>
        obtain ⟨r, _, h⟩ := List.exists_of_findSome?_eq_some h
      · simp only [Region.strideError] at h; split at h <;> simp at h; subst h; simp [ErrCode.hasRegion]
      · simp only [Region.alignError] at h; split at h <;> simp at h; subst h; simp [ErrCode.hasRegion]
      · simp only [Region.boundsError] at h; split at h <;> simp at h; subst h; simp [ErrCode.hasRegion]
      · simp only [pairError] at h; split at h <;> simp at h; obtain ⟨_, h⟩ := h; subst h; simp [ErrCode.hasRegion]

end Sys2Proof.Machine
end

