-- ==== Sys2Proof/Laws/Ops.lean ====
section
/-! SUPPORT. What each shared operation can do: the completion of a command, the commands' one shape, the turn, a step, a reset, and the port's
accesses. -/

namespace Sys2Proof.Machine

/-- A completion with no soft reset pending (60_exceptions R246). -/
theorem complete_none (s : State) (h : s.srstPending = false) : s.complete none = s.succeeded s.mem s.twN := by
  simp [State.complete, h, State.succeeded]

theorem complete_some (e : CmdError) (s : State) (h : s.srstPending = false) : s.complete (some e) = s.failed e := by
  simp [State.complete, h, State.failed]

/-- A completion with a soft reset pending leaves the reset state, and DMEM as the command left it (70_reset R282). -/
theorem complete_pending (e : Option CmdError) (s : State) (h : s.srstPending = true) : s.complete e = s.softReset := by
  cases e <;> simp [State.complete, h, State.softReset]

theorem complete_eng (e : Option CmdError) (s : State) : (s.complete e).eng = .idle := by
  cases h : s.srstPending
  · cases e <;> simp [complete_none, complete_some, h]
  · simp [complete_pending, h]

theorem complete_mem (e : Option CmdError) (s : State) : (s.complete e).mem = s.mem := by
  cases h : s.srstPending
  · cases e <;> simp [complete_none, complete_some, h]
  · simp [complete_pending, h]

theorem complete_config (e : Option CmdError) (s : State) : (s.complete e).config = s.config := by
  cases h : s.srstPending
  · cases e <;> simp [complete_none, complete_some, h]
  · simp [complete_pending, h]

theorem complete_srst (e : Option CmdError) (s : State) : (s.complete e).srstPending = false := by
  cases h : s.srstPending
  · cases e <;> simp [complete_none, complete_some, h]
  · simp [complete_pending, h]

theorem finishError_eq (e : CmdError) (s : State) (h : s.srstPending = false) : finishError e s = .next (s.failed e) := by
  rw [finishError, complete_some e s h]

theorem finishOk_eq (m : Memory) (w : Word) (s : State) (h : s.srstPending = false) :
    finishOk m w s = .next (s.succeeded m w) := by
  simp [finishOk, State.complete, h, State.succeeded]

/-- What DMEM and TW_N are after a command that passes its checks. -/
def effect (i : Instr) (s : State) : Memory × Word :=
  let L := s.latch.ops
  match i with
  | .nop _ => (s.mem, s.twN)
  | .twbuild _ => (s.mem, L.n)
  | .twfree _ => (s.mem, 0)
  | .bitrev P => (transform P s.mem L.x L.x L.n.toNat (bitRev (ieee P)), s.twN)
  | .bflyF P st => (transform P s.mem L.x L.x L.n.toNat (fun z => stage (ieee P) z st .fwd s.log2N), s.twN)
  | .bflyI P st => (transform P s.mem L.x L.x L.n.toNat (fun z => stage (ieee P) z st .inv s.log2N), s.twN)
  | .fftF P => (transform P s.mem L.x L.x L.n.toNat (fft (ieee P) .fwd s.log2N), s.twN)
  | .fftI P => (transform P s.mem L.x L.x L.n.toNat (fft (ieee P) .inv s.log2N), s.twN)
  | .rfftIp P => (transform P s.mem L.x L.x (L.n.toNat / 2) (realFft (ieee P) s.log2N), s.twN)
  | .rfftOp P => (transform P s.mem L.x L.y (L.n.toNat / 2) (realFft (ieee P) s.log2N), s.twN)
  | .pack P => (storeAll P s.mem ((List.range L.len.toNat).flatMap (packStores P s.mem L)), s.twN)
  | .unpack P => (storeAll P s.mem ((List.range L.len.toNat).flatMap (unpackStores P s.mem L)), s.twN)
  | .conv P => (storeAll P s.mem ((List.range L.len.toNat).map (convStore P s.mem L)), s.twN)

theorem commandError_nop (P : Prec) (s : State) : commandError (.nop P) s = none := rfl

theorem commandError_twfree (P : Prec) (s : State) : commandError (.twfree P) s = none := rfl

/-- Every command has one shape (60_exceptions R246): its checks, then an error and no effect, or its effect. -/
theorem exec_eq (i : Instr) (s : State) :
    exec i s = match commandError i s with
      | some e => finishError e s
      | none => finishOk (effect i s).1 (effect i s).2 s := by
  cases i <;> rfl

/-- A command whose checks fail has no effect but the completion bookkeeping (R243). -/
theorem exec_of_error (i : Instr) (s : State) (e : CmdError) (h : commandError i s = some e) :
    exec i s = .next (s.complete (some e)) := by
  rw [exec_eq, h]
  rfl

/-- A command whose checks pass has its effect and the completion bookkeeping. -/
theorem exec_of_pass (i : Instr) (s : State) (h : commandError i s = none) :
    exec i s = .next (({ s with mem := (effect i s).1, twN := (effect i s).2 } : State).complete none) := by
  rw [exec_eq, h]
  rfl

/-- What exec can answer: one of two next states. -/
theorem exec_cases (i : Instr) (s : State) :
    (∃ e, commandError i s = some e ∧ exec i s = .next (s.complete (some e))) ∨
      (commandError i s = none ∧
        exec i s = .next (({ s with mem := (effect i s).1, twN := (effect i s).2 } : State).complete none)) := by
  cases h : commandError i s with
  | none => exact .inr ⟨rfl, exec_of_pass i s h⟩
  | some e => exact .inl ⟨e, rfl, exec_of_error i s e h⟩

/-- An access at the port during reset, now or when the input was released (70_reset R280, 93 I11). -/
def State.touchedInReset (s : State) : Bool := s.accessInReset || (s.resetPin && !s.port.isEmpty)

/-- What the turn can be (20_memory R98, 60_exceptions R247, 70_reset R280). -/
theorem turn_cases (s : State) :
    (s.touchedInReset = true ∧ s.turn = .violation) ∨
    (s.accessInReset = false ∧ s.resetPin = true ∧ s.port = [] ∧ s.turn = .reset) ∨
    (s.accessInReset = false ∧ s.resetPin = false ∧ s.eng = .idle ∧ s.port = [] ∧ s.turn = .wait) ∨
    (s.accessInReset = false ∧ s.resetPin = false ∧ s.eng = .busy ∧ s.turn = .completion) ∨
    (s.accessInReset = false ∧ s.resetPin = false ∧ ∃ a rest, s.port = a :: rest ∧ s.turn = .port a rest ∧
      (s.eng = .busy → a.held s.config = false ∧ 0 < s.delay)) := by
  cases hv : s.accessInReset
  · cases hp : s.resetPin
    · cases he : s.eng <;> cases hq : s.port with
      | nil => simp [State.turn, hv, hp, he, hq]
      | cons a rest =>
        simp only [State.turn, hv, hp, he, hq]
        by_cases hh : (a.held s.config || s.delay == 0) = true
        · simp [hh]
        · have h1 := hh
          simp only [Bool.or_eq_true, beq_iff_eq, not_or, Bool.not_eq_true] at h1
          simp [h1.1, h1.2, Nat.pos_of_ne_zero h1.2]
    · cases hq : s.port <;> simp [State.turn, State.touchedInReset, hv, hp, hq]
  · simp [State.turn, State.touchedInReset, hv]

/-- What a step can answer. -/
theorem step_cases (s : State) :
    (s.touchedInReset = true ∧ step s = .fault .hostAccessDuringReset) ∨
    (s.resetPin = true ∧ step s = .next s.hardReset) ∨
    (s.resetPin = false ∧ s.eng = .idle ∧ s.port = [] ∧ step s = .next s) ∨
    (s.resetPin = false ∧ s.eng = .busy ∧ ∃ i, decode s.latch.cmd = .ok i ∧ step s = exec i s) ∨
    (s.resetPin = false ∧ s.eng = .busy ∧ ∃ e, decode s.latch.cmd = .error e ∧ step s = completeIllegal s) ∨
    (s.resetPin = false ∧ ∃ a rest, s.port = a :: rest ∧ step s = portStep a rest s) := by
  rcases turn_cases s with ⟨hv, h⟩ | ⟨_, hp, _, h⟩ | ⟨_, hp, he, hq, h⟩ | ⟨_, hp, he, h⟩ | ⟨_, hp, a, rest, hq, h, _⟩
  · exact .inl ⟨hv, by simp [step, h, violationStep]⟩
  · exact .inr (.inl ⟨hp, by simp [step, h, resetStep]⟩)
  · exact .inr (.inr (.inl ⟨hp, he, hq, by simp [step, h]⟩))
  · cases hd : decode s.latch.cmd with
    | ok i => exact .inr (.inr (.inr (.inl ⟨hp, he, i, rfl, by simp [step, h, hd]⟩)))
    | error e => exact .inr (.inr (.inr (.inr (.inl ⟨hp, he, e, rfl, by simp [step, h, hd]⟩))))
  · exact .inr (.inr (.inr (.inr (.inr ⟨hp, a, rest, hq, by simp [step, h]⟩))))

/-! ### Reset -/

theorem resetRegisters_softReset (s : State) : ResetRegisters s s.softReset := rfl

/-- A hardware reset leaves the registers as a soft reset does (70_reset R280). -/
theorem resetRegisters_hardReset (s : State) : ResetRegisters s s.hardReset := rfl

/-- With every register at its reset value the engine is IDLE, so a reset disturbs no byte and changes nothing. -/
theorem hardReset_of_reset (s : State) (h : ResetRegisters s s) : s.hardReset = s := by
  have hi : s.inFlightAddrs = [] := by
    have he : s.eng = .idle := by rw [h]
    simp only [State.inFlightAddrs, he]
    split <;> simp_all
  rw [State.hardReset, hi]
  exact h.symm

/-- No stimulus changes the configuration. -/
theorem stimulate_config (x : Stimulus) (s : State) : (s.stimulate x).config = s.config := by
  cases x <;> rfl

/-! ### The port -/

theorem access_config (a : Access) (s : State) : (s.access a).config = s.config := by
  simp only [State.access, State.accessRegister, State.accessDmem, State.busError]
  split
  · split
    · split
      · rfl
      · simp only [State.respond_config, State.writeWord]
        split
        · rename_i r _
          cases r <;> simp [State.writeReg, State.writeCtrl, State.writeCmd] <;> (repeat' split) <;> simp
        · rfl
    · rfl
  · split
    · split <;> rfl
    · rfl
  · rfl

end Sys2Proof.Machine
end

