-- ==== Sys2Proof/Laws/Vectors.lean ====
section
/-! SUPPORT. Vectors: what a command loads, what its stores cover, and what an element reads as after them. -/

namespace Sys2Proof.Machine

variable {α : Type}

/-! ### Lengths -/

@[simp] theorem stage_length (A : Arith α) (z : List (Cplx α)) (s : Nat) (dir : Dir) (k : Nat) :
    (stage A z s dir k).length = z.length := by simp [stage]

@[simp] theorem bitRev_length (A : Arith α) (z : List (Cplx α)) : (bitRev A z).length = z.length := by simp [bitRev]

@[simp] theorem stages_length (A : Arith α) (dir : Dir) (k c : Nat) (z : List (Cplx α)) :
    (stages A dir k c z).length = z.length := by
  induction c with
  | zero => rfl
  | succ c ih => simp [stages, ih]

@[simp] theorem fft_length (A : Arith α) (dir : Dir) (k : Nat) (z : List (Cplx α)) :
    (fft A dir k z).length = z.length := by simp [fft]

@[simp] theorem realPost_length (A : Arith α) (k : Nat) (z : List (Cplx α)) : (realPost A k z).length = z.length := by
  simp [realPost]

@[simp] theorem realFft_length (A : Arith α) (k : Nat) (z : List (Cplx α)) : (realFft A k z).length = z.length := by
  simp [realFft]

theorem elemAt_of_lt (A : Arith α) (z : List (Cplx α)) (i : Nat) (h : i < z.length) : elemAt A z i = z[i] := by
  simp [elemAt, h]

/-- Element i of a stage (40_datapath R159). -/
theorem elemAt_stage (A : Arith α) (z : List (Cplx α)) (s : Nat) (dir : Dir) (k i : Nat) (h : i < z.length) :
    elemAt A (stage A z s dir k) i = stageElem A z s dir k i := by
  rw [elemAt_of_lt _ _ _ (by simpa using h)]
  simp [stage]

/-- Element i of a bit-reversed vector (R160). -/
theorem elemAt_bitRev (A : Arith α) (z : List (Cplx α)) (i : Nat) (h : i < z.length) :
    elemAt A (bitRev A z) i = elemAt A z (bitRevIndex z.length.log2 i) := by
  rw [elemAt_of_lt _ _ _ (by simpa using h)]
  simp [bitRev]

/-! ### Loads -/

theorem allSome_eq_some_iff {β : Type} (l : List (Option β)) (v : List β) : allSome l = some v ↔ l = v.map some := by
  induction l generalizing v with
  | nil => cases v <;> simp [allSome]
  | cons a l ih =>
    cases a with
    | none => cases v <;> simp [allSome]
    | some a =>
      simp only [allSome]
      cases hl : allSome l with
      | none =>
        simp only [reduceCtorEq, false_iff]
        intro h
        cases v with
        | nil => simp at h
        | cons b v =>
          simp only [List.map_cons, List.cons.injEq] at h
          rw [(ih v).mpr h.2] at hl
          exact absurd hl (by simp)
      | some w =>
        have := (ih w).mp hl
        subst this
        cases v with
        | nil => simp
        | cons b v => simp [List.map_inj_right]

/-- A vector all of whose n elements are specified loads as the list of them. -/
theorem loadSplit_eq_some (P : Prec) (m : Memory) (v : SplitVec) (n : Nat) (z : Nat → Cplx (Elem P))
    (h : ∀ j < n, loadCplx P m v j = some (z j)) : loadSplit P m v n = some ((List.range n).map z) := by
  rw [loadSplit, allSome_eq_some_iff, List.map_map]
  exact List.map_congr_left fun j hj => h j (List.mem_range.mp hj)

/-- A vector with an unspecified element loads as unspecified. -/
theorem loadSplit_eq_none (P : Prec) (m : Memory) (v : SplitVec) (n j : Nat) (hj : j < n)
    (h : loadCplx P m v j = none) : loadSplit P m v n = none := by
  cases hl : loadSplit P m v n with
  | none => rfl
  | some z =>
    rw [loadSplit, allSome_eq_some_iff] at hl
    have hlen : z.length = n := by simpa using (congrArg List.length hl).symm
    have := congrArg (fun l => l[j]?) hl
    simp [hj, h, hlen] at this

theorem loadCplx_eq_some (P : Prec) (m : Memory) (v : SplitVec) (i : Nat) (z : Cplx (Elem P)) :
    loadCplx P m v i = some z ↔
      loadElem P m v.re v.stride i = some z.re ∧ loadElem P m v.im v.stride i = some z.im := by
  rw [loadCplx]
  cases z
  split <;> simp_all

/-! ### Stores -/

/-- Every store of a split vector is at one of its elements (42_fft, StoreX and StoreY). -/
theorem mem_splitStores (P : Prec) (v : SplitVec) (zs : List (Option (Cplx (Elem P)))) :
    ∀ (i : Nat) (w : Store P), w ∈ splitStores P v i zs →
      ∃ j, i ≤ j ∧ j < i + zs.length ∧ (w.addr = eaNat v.re v.stride j P ∨ w.addr = eaNat v.im v.stride j P) := by
  induction zs with
  | nil => intro i w h; simp [splitStores] at h
  | cons z zs ih =>
    intro i w h
    simp only [splitStores, List.mem_cons] at h
    rcases h with rfl | rfl | h
    · exact ⟨i, by simp, by simp, .inl rfl⟩
    · exact ⟨i, by simp, by simp, .inr rfl⟩
    · obtain ⟨j, h1, h2, h3⟩ := ih (i + 1) w h
      exact ⟨j, by omega, by simp; omega, h3⟩

/-- The stores of a split vector, cut at index j. -/
theorem splitStores_append (P : Prec) (v : SplitVec) (ys zs : List (Option (Cplx (Elem P)))) :
    ∀ i, splitStores P v i (ys ++ zs) = splitStores P v i ys ++ splitStores P v (i + ys.length) zs := by
  induction ys with
  | nil => intro i; simp [splitStores]
  | cons y ys ih => intro i; simp [splitStores, ih, Nat.add_comm 1, Nat.add_assoc]

/-- A split vector whose 2n element slots are pairwise disjoint. -/
structure SlotsApart (P : Prec) (v : SplitVec) (n : Nat) : Prop where
  re : ∀ i < n, ∀ j < n, i ≠ j →
    eaNat v.re v.stride i P + P.esize ≤ eaNat v.re v.stride j P ∨ eaNat v.re v.stride j P + P.esize ≤ eaNat v.re v.stride i P
  im : ∀ i < n, ∀ j < n, i ≠ j →
    eaNat v.im v.stride i P + P.esize ≤ eaNat v.im v.stride j P ∨ eaNat v.im v.stride j P + P.esize ≤ eaNat v.im v.stride i P
  cross : ∀ i < n, ∀ j < n,
    eaNat v.re v.stride i P + P.esize ≤ eaNat v.im v.stride j P ∨ eaNat v.im v.stride j P + P.esize ≤ eaNat v.re v.stride i P

/-- Both components of element j read, after the vector was stored, as what was stored there. -/
theorem loadElem_storeSplit (P : Prec) (m : Memory) (v : SplitVec) (zs : List (Option (Cplx (Elem P))))
    (hm : m.wf ∨ ∀ z ∈ zs, z ≠ none) (h : SlotsApart P v zs.length) (j : Nat) (hj : j < zs.length) :
    loadElem P (storeSplit P m v zs) v.re v.stride j = (zs[j]).map Cplx.re ∧
      loadElem P (storeSplit P m v zs) v.im v.stride j = (zs[j]).map Cplx.im := by
  have hcut : splitStores P v 0 zs = splitStores P v 0 (zs.take j) ++
      { addr := eaNat v.re v.stride j P, value := (zs[j]).map Cplx.re } ::
      { addr := eaNat v.im v.stride j P, value := (zs[j]).map Cplx.im } :: splitStores P v (j + 1) (zs.drop (j + 1)) := by
    conv_lhs => rw [← List.take_append_drop j zs, splitStores_append, List.drop_eq_getElem_cons hj]
    simp [splitStores, Nat.min_eq_left (Nat.le_of_lt hj)]
  have later : ∀ u ∈ splitStores P v (j + 1) (zs.drop (j + 1)),
      ∃ i, i < zs.length ∧ i ≠ j ∧ (u.addr = eaNat v.re v.stride i P ∨ u.addr = eaNat v.im v.stride i P) := by
    intro u hu
    obtain ⟨i, h1, h2, h3⟩ := mem_splitStores P v _ _ u hu
    simp only [List.length_drop] at h2
    exact ⟨i, by omega, by omega, h3⟩
  have hv : ∀ f : Cplx (Elem P) → Elem P, m.wf ∨ (zs[j]).map f ≠ none := fun f =>
    hm.imp_right fun hz => by simpa using hz _ (List.getElem_mem hj)
  constructor
  · rw [loadElem, storeSplit, hcut]
    refine readElem_storeAll_last P m _ { addr := eaNat v.re v.stride j P, value := _ } _ (hv _) fun u hu => ?_
    rcases List.mem_cons.mp hu with rfl | hu
    · exact h.cross j hj j hj
    · obtain ⟨i, hi, hij, hu | hu⟩ := later u hu
      · rw [hu]; exact h.re j hj i hi (Ne.symm hij)
      · rw [hu]; exact h.cross j hj i hi
  · rw [loadElem, storeSplit, hcut, List.append_cons]
    refine readElem_storeAll_last P m _ { addr := eaNat v.im v.stride j P, value := _ } _ (hv _) fun u hu => ?_
    obtain ⟨i, hi, hij, hu | hu⟩ := later u hu
    · rw [hu]; exact (h.cross i hi j hj).symm
    · rw [hu]; exact h.im j hj i hi (Ne.symm hij)

/-- A byte outside the slots of a split vector is unchanged by its stores. -/
theorem readByte_storeSplit_other (P : Prec) (m : Memory) (v : SplitVec) (zs : List (Option (Cplx (Elem P)))) (b : Nat)
    (h : ∀ j < zs.length, (b < eaNat v.re v.stride j P ∨ eaNat v.re v.stride j P + P.esize ≤ b) ∧
      (b < eaNat v.im v.stride j P ∨ eaNat v.im v.stride j P + P.esize ≤ b)) :
    (storeSplit P m v zs).readByte b = m.readByte b := by
  refine readByte_storeAll_other P b _ m fun w hw => ?_
  obtain ⟨j, _, h2, h3 | h3⟩ := mem_splitStores P v zs 0 w hw
  · rw [h3]; exact (h j (by omega)).1
  · rw [h3]; exact (h j (by omega)).2

end Sys2Proof.Machine
end

