-- ==== Sys2Proof/Laws/Effects.lean ====
section
/-! SUPPORT. What a command that passes its checks does to DMEM: it keeps the canonical form, stays inside DMEM, and leaves every byte outside
the slots of its write regions alone (20_memory R92). -/

namespace Sys2Proof.Machine

theorem Region.mem_addrs (r : Region) (P : Prec) (a : Nat) :
    a ∈ r.addrs P ↔ ∃ i < r.count, eaNat r.base r.stride i P ≤ a ∧ a < eaNat r.base r.stride i P + r.slotBytes P := by
  simp only [Region.addrs, Region.slotAddrs, List.mem_flatMap, List.mem_range, List.mem_map]
  constructor
  · rintro ⟨i, hi, t, ht, rfl⟩
    exact ⟨i, hi, by omega, by omega⟩
  · rintro ⟨i, hi, h1, h2⟩
    exact ⟨i, hi, a - eaNat r.base r.stride i P, by omega, by omega⟩

/-- The bytes a command may write (20_memory R92). -/
theorem mem_writtenAddrs (i : Instr) (L : OperandRegs) (a : Nat) :
    a ∈ writtenAddrs i L ↔ ∃ r ∈ regions i L, r.written = true ∧ a ∈ r.addrs i.prec := by
  simp [writtenAddrs, and_assoc]

/-- The slots of a region that passes its bounds check lie in DMEM. -/
theorem Region.slot_inside (r : Region) (c : Config) (P : Prec) (h : r.boundsError c P = none) (i : Nat) (hi : i < r.count) :
    (eaNat r.base r.stride i P : Int) = ea r.base r.stride i P ∧ eaNat r.base r.stride i P + r.slotBytes P ≤ c.dmemBytes := by
  have h1 := (r.boundsError_eq_none c P).mp h
  have h2 : r.SlotsInside c P := by
    by_contra hn
    exact h1 ⟨by omega, hn⟩
  obtain ⟨h3, h4⟩ := h2 i hi
  have h5 := eaNat_cast r.base r.stride i P h3
  exact ⟨h5, by omega⟩

/-- A store that lies in a slot of a write region of the command. -/
def Covered (i : Instr) (L : OperandRegs) (w : Store i.prec) : Prop :=
  ∃ r ∈ regions i L, r.written = true ∧ ∃ j < r.count,
    eaNat r.base r.stride j i.prec ≤ w.addr ∧ w.addr + i.prec.esize ≤ eaNat r.base r.stride j i.prec + r.slotBytes i.prec

/-- Stores that all lie in write regions change no byte outside them. -/
theorem readByte_storeAll_covered (i : Instr) (L : OperandRegs) (m : Memory) (ws : List (Store i.prec))
    (h : ∀ w ∈ ws, Covered i L w) (a : Nat) (ha : a ∉ writtenAddrs i L) : (storeAll i.prec m ws).readByte a = m.readByte a := by
  refine readByte_storeAll_other i.prec a ws m fun w hw => ?_
  obtain ⟨r, hr, hwr, j, hj, h1, h2⟩ := h w hw
  by_contra hn
  refine ha ((mem_writtenAddrs i L a).mpr ⟨r, hr, hwr, (r.mem_addrs i.prec a).mpr ⟨j, hj, by omega, by omega⟩⟩)

/-- Stores that all lie in regions that pass their bounds check stay inside DMEM. -/
theorem storeAll_covered_below (i : Instr) (L : OperandRegs) (c : Config) (m : Memory) (ws : List (Store i.prec))
    (h : ∀ w ∈ ws, Covered i L w) (hb : ∀ r ∈ regions i L, r.boundsError c i.prec = none) (hm : m.below c.dmemBytes) :
    (storeAll i.prec m ws).below c.dmemBytes := by
  refine storeAll_below i.prec _ ws m hm fun w hw => ?_
  obtain ⟨r, hr, _, j, hj, h1, h2⟩ := h w hw
  have := (r.slot_inside c i.prec (hb r hr) j hj).2
  omega

/-- The length of what a command of the FFT family writes. -/
theorem fftOutput_length (P : Prec) (f : List (Cplx (Elem P)) → List (Cplx (Elem P))) (n : Nat)
    (hf : ∀ z, (f z).length = z.length) (m : Memory) (v : SplitVec) : (fftOutput P f n (loadSplit P m v n)).length = n := by
  cases h : loadSplit P m v n with
  | none => simp [fftOutput]
  | some z =>
    rw [loadSplit, allSome_eq_some_iff] at h
    have := congrArg List.length h
    simp at this
    simp [fftOutput, hf, this]

/-- The stores of a command that passes its checks. -/
def effectStores (i : Instr) (s : State) : List (Store i.prec) :=
  let L := s.latch.ops
  match i with
  | .nop _ | .twbuild _ | .twfree _ => []
  | .bitrev P => splitStores P L.x 0 (fftOutput P (bitRev (ieee P)) L.n.toNat (loadSplit P s.mem L.x L.n.toNat))
  | .bflyF P st =>
    splitStores P L.x 0 (fftOutput P (fun z => stage (ieee P) z st .fwd s.log2N) L.n.toNat (loadSplit P s.mem L.x L.n.toNat))
  | .bflyI P st =>
    splitStores P L.x 0 (fftOutput P (fun z => stage (ieee P) z st .inv s.log2N) L.n.toNat (loadSplit P s.mem L.x L.n.toNat))
  | .fftF P => splitStores P L.x 0 (fftOutput P (fft (ieee P) .fwd s.log2N) L.n.toNat (loadSplit P s.mem L.x L.n.toNat))
  | .fftI P => splitStores P L.x 0 (fftOutput P (fft (ieee P) .inv s.log2N) L.n.toNat (loadSplit P s.mem L.x L.n.toNat))
  | .rfftIp P =>
    splitStores P L.x 0 (fftOutput P (realFft (ieee P) s.log2N) (L.n.toNat / 2) (loadSplit P s.mem L.x (L.n.toNat / 2)))
  | .rfftOp P =>
    splitStores P L.y 0 (fftOutput P (realFft (ieee P) s.log2N) (L.n.toNat / 2) (loadSplit P s.mem L.x (L.n.toNat / 2)))
  | .pack P => (List.range L.len.toNat).flatMap (packStores P s.mem L)
  | .unpack P => (List.range L.len.toNat).flatMap (unpackStores P s.mem L)
  | .conv P => (List.range L.len.toNat).map (convStore P s.mem L)

/-- Every command changes DMEM by its stores alone. -/
theorem effect_mem (i : Instr) (s : State) : (effect i s).1 = storeAll i.prec s.mem (effectStores i s) := by
  cases i <;> rfl

theorem effect_twN (i : Instr) (s : State) (h : ∀ P, i ≠ .twbuild P ∧ i ≠ .twfree P) : (effect i s).2 = s.twN := by
  cases i
  case twbuild P => exact absurd rfl (h P).1
  case twfree P => exact absurd rfl (h P).2
  all_goals rfl

/-- Every store of a command lies in a slot of one of its write regions. -/
theorem effectStores_covered (i : Instr) (s : State) (w : Store i.prec) (hw : w ∈ effectStores i s) :
    Covered i s.latch.ops w := by
  have split : ∀ (P : Prec) (v : SplitVec) (n : Nat) (m : Memory) (u : SplitVec) (f : List (Cplx (Elem P)) → List (Cplx (Elem P)))
      (hf : ∀ z, (f z).length = z.length) (w : Store P), w ∈ splitStores P v 0 (fftOutput P f n (loadSplit P m u n)) →
      ∃ j < n, w.addr = eaNat v.re v.stride j P ∨ w.addr = eaNat v.im v.stride j P := by
    intro P v n m u f hf w hw
    obtain ⟨j, _, h2, h3⟩ := mem_splitStores P v _ 0 w hw
    rw [fftOutput_length P f n hf] at h2
    exact ⟨j, by omega, h3⟩
  cases i
  case nop => simp [effectStores] at hw
  case twbuild => simp [effectStores] at hw
  case twfree => simp [effectStores] at hw
  case pack P =>
    obtain ⟨k, hk, hw⟩ := List.mem_flatMap.mp (show (w : Store P) ∈ List.flatMap _ _ from hw)
    have hk := List.mem_range.mp hk
    rcases List.mem_cons.mp hw with rfl | hw
    · exact ⟨_, .tail _ (.head _), rfl, k, hk, Nat.le_refl _, Nat.le_refl _⟩
    · obtain rfl := List.mem_singleton.mp hw
      exact ⟨_, .tail _ (.tail _ (.head _)), rfl, k, hk, Nat.le_refl _, Nat.le_refl _⟩
  case unpack P =>
    obtain ⟨k, hk, hw⟩ := List.mem_flatMap.mp (show (w : Store P) ∈ List.flatMap _ _ from hw)
    have hk := List.mem_range.mp hk
    rcases List.mem_cons.mp hw with rfl | hw
    · exact ⟨_, .tail _ (.tail _ (.head _)), rfl, k, hk, Nat.le_refl _,
        Nat.add_le_add_left (Nat.le_mul_of_pos_left P.esize (by decide : 0 < 2)) _⟩
    · obtain rfl := List.mem_singleton.mp hw
      exact ⟨_, .tail _ (.tail _ (.head _)), rfl, k, hk, Nat.le_add_right _ _,
        (by
          show eaNat s.latch.ops.yRe s.latch.ops.yStride k P + P.esize + P.esize ≤
            eaNat s.latch.ops.yRe s.latch.ops.yStride k P + 2 * P.esize
          omega)⟩
  case conv P =>
    obtain ⟨k, hk, rfl⟩ := List.mem_map.mp (show (w : Store P) ∈ List.map _ _ from hw)
    exact ⟨_, .tail _ (.head _), rfl, k, List.mem_range.mp hk, Nat.le_refl _, Nat.le_refl _⟩
  case rfftOp P =>
    obtain ⟨j, hj, h | h⟩ := split P _ _ _ _ _ (realFft_length _ _) w hw
    · exact ⟨_, .tail _ (.tail _ (.head _)), rfl, j, hj, h.symm.le, by rw [h]; exact Nat.le_refl _⟩
    · exact ⟨_, .tail _ (.tail _ (.tail _ (.head _))), rfl, j, hj, h.symm.le, by rw [h]; exact Nat.le_refl _⟩
  all_goals
    obtain ⟨j, hj, h | h⟩ := split _ _ _ _ _ _
      (by first | exact bitRev_length _ | exact fun z => stage_length _ z _ _ _ | exact fft_length _ _ _ | exact realFft_length _ _) w hw
    · exact ⟨_, .head _, rfl, j, hj, h.symm.le, by rw [h]; exact Nat.le_refl _⟩
    · exact ⟨_, .tail _ (.head _), rfl, j, hj, h.symm.le, by rw [h]; exact Nat.le_refl _⟩

theorem effect_wf (i : Instr) (s : State) (h : s.mem.wf) : (effect i s).1.wf := by
  rw [effect_mem]
  exact storeAll_wf _ _ _ h

theorem effect_below (i : Instr) (s : State) (hc : commandError i s = none) (h : s.mem.below s.config.dmemBytes) :
    (effect i s).1.below s.config.dmemBytes := by
  rw [effect_mem]
  exact storeAll_covered_below i s.latch.ops s.config s.mem _ (effectStores_covered i s)
    ((commandError_eq_none i s).mp hc).2.2.2.2.2.1 h

theorem effect_other (i : Instr) (s : State) (a : Nat) (ha : a ∉ writtenAddrs i s.latch.ops) :
    (effect i s).1.readByte a = s.mem.readByte a := by
  rw [effect_mem]
  exact readByte_storeAll_covered i s.latch.ops s.mem _ (effectStores_covered i s) a ha

/-- A nonempty region of a command that passes its checks has a nonzero stride, and its slots lie in DMEM. -/
theorem region_of_pass (i : Instr) (s : State) (hc : commandError i s = none) (r : Region) (hr : r ∈ regions i s.latch.ops)
    (hn : r.count ≠ 0) :
    r.stride ≠ 0 ∧ ∀ j < r.count, (eaNat r.base r.stride j i.prec : Int) = ea r.base r.stride j i.prec := by
  have h := (commandError_eq_none i s).mp hc
  refine ⟨fun h0 => (r.strideError_eq_none.mp (h.2.2.2.1 r hr)) ⟨hn, h0⟩, fun j hj => ?_⟩
  exact (r.slot_inside s.config i.prec (h.2.2.2.2.2.1 r hr) j hj).1

/-- Two slots of one element region are apart. -/
theorem slots_apart_of_pass (i : Instr) (s : State) (hc : commandError i s = none) (r : Region) (hr : r ∈ regions i s.latch.ops)
    (j k : Nat) (hj : j < r.count) (hk : k < r.count) (hjk : j ≠ k) :
    eaNat r.base r.stride j i.prec + i.prec.esize ≤ eaNat r.base r.stride k i.prec ∨
      eaNat r.base r.stride k i.prec + i.prec.esize ≤ eaNat r.base r.stride j i.prec := by
  obtain ⟨h0, h1⟩ := region_of_pass i s hc r hr (by omega)
  have := ea_apart r.base r.stride i.prec h0 j k hjk
  have := h1 j hj
  have := h1 k hk
  omega

/-- Slots of two regions whose pair is tested for overlap are apart (20_memory R90). -/
theorem regions_apart_of_pass (i : Instr) (s : State) (hc : commandError i s = none) (a b : Region)
    (ha : a ∈ regions i s.latch.ops) (hb : b ∈ regions i s.latch.ops) (hp : (a.id, b.id) ∈ overlapPairs i)
    (j k : Nat) (hj : j < a.count) (hk : k < b.count) :
    eaNat a.base a.stride j i.prec + a.slotBytes i.prec ≤ eaNat b.base b.stride k i.prec ∨
      eaNat b.base b.stride k i.prec + b.slotBytes i.prec ≤ eaNat a.base a.stride j i.prec := by
  have h := ((commandError_eq_none i s).mp hc).2.2.2.2.2.2 _ hp
  have hm : ¬ PairMeets (regions i s.latch.ops) i.prec (a.id, b.id) := fun hm => by
    rw [(pairError_eq _ (regions_nodup i s.latch.ops) i.prec (a.id, b.id)).1 hm] at h
    cases h
  have h1 := (region_of_pass i s hc a ha (by omega)).2 j hj
  have h2 := (region_of_pass i s hc b hb (by omega)).2 k hk
  have h3 := a.slot_in_interval i.prec j hj
  have h4 := b.slot_in_interval i.prec k hk
  by_contra hn
  exact hm ⟨a, ha, b, hb, rfl, rfl, by omega, by omega, by omega, by omega⟩

/-- The vector that a command with an in-place X of n elements stores has its slots apart. -/
theorem slotsApart_inPlace (i : Instr) (s : State) (n : Nat) (hr : regions i s.latch.ops = inPlaceRegions s.latch.ops n)
    (hp : overlapPairs i = [(.xRe, .xIm)]) (hc : commandError i s = none) : SlotsApart i.prec s.latch.ops.x n := by
  have h1 : ({ id := .xRe, kind := .elem, role := .readWrite, base := s.latch.ops.xRe, stride := s.latch.ops.xStride, count := n } : Region) ∈
      regions i s.latch.ops := hr ▸ .head _
  have h2 : ({ id := .xIm, kind := .elem, role := .readWrite, base := s.latch.ops.xIm, stride := s.latch.ops.xStride, count := n } : Region) ∈
      regions i s.latch.ops := hr ▸ .tail _ (.head _)
  exact ⟨fun j hj k hk hjk => slots_apart_of_pass i s hc _ h1 j k hj hk hjk,
    fun j hj k hk hjk => slots_apart_of_pass i s hc _ h2 j k hj hk hjk,
    fun j hj k hk => regions_apart_of_pass i s hc _ _ h1 h2 (hp ▸ .head _) j k hj hk⟩

/-- The vector RFFT.OP stores has its slots apart. -/
theorem slotsApart_rfftOp (P : Prec) (s : State) (hc : commandError (.rfftOp P) s = none) :
    SlotsApart P s.latch.ops.y (s.latch.ops.n.toNat / 2) := by
  have h1 : ({ id := .yRe, kind := .elem, role := .write, base := s.latch.ops.yRe, stride := s.latch.ops.yStride, count := s.latch.ops.n.toNat / 2 } :
      Region) ∈ regions (.rfftOp P) s.latch.ops := .tail _ (.tail _ (.head _))
  have h2 : ({ id := .yIm, kind := .elem, role := .write, base := s.latch.ops.yIm, stride := s.latch.ops.yStride, count := s.latch.ops.n.toNat / 2 } :
      Region) ∈ regions (.rfftOp P) s.latch.ops := .tail _ (.tail _ (.tail _ (.head _)))
  exact ⟨fun j hj k hk hjk => slots_apart_of_pass _ s hc _ h1 j k hj hk hjk,
    fun j hj k hk hjk => slots_apart_of_pass _ s hc _ h2 j k hj hk hjk,
    fun j hj k hk => regions_apart_of_pass _ s hc _ _ h1 h2 (.head _) j k hj hk⟩

/-- What a vector transform leaves: element j of the destination is element j of the transform. -/
theorem loadCplx_transform (P : Prec) (m : Memory) (src dst : SplitVec) (n : Nat)
    (f : List (Cplx (Elem P)) → List (Cplx (Elem P))) (hf : ∀ z, (f z).length = z.length) (z : Nat → Cplx (Elem P))
    (hz : ∀ j < n, loadCplx P m src j = some (z j)) (ha : SlotsApart P dst n) (j : Nat) (hj : j < n) :
    loadCplx P (transform P m src dst n f) dst j = some (elemAt (ieee P) (f ((List.range n).map z)) j) := by
  have hl : (f ((List.range n).map z)).length = n := by simp [hf]
  rw [transform, loadSplit_eq_some P m src n z hz, fftOutput, loadCplx_eq_some, elemAt_of_lt _ _ _ (by rw [hl]; exact hj)]
  have := loadElem_storeSplit P m dst ((f ((List.range n).map z)).map some) (.inr (by simp)) (by simpa [hl] using ha) j
    (by simpa [hl] using hj)
  simpa using this

end Sys2Proof.Machine
end

