-- ==== Sys2Proof/Laws/PerInstr.lean ====
section
/-! SUPPORT. One statement for each instruction: the fields of its word. -/

namespace Sys2Proof.Laws.WordFields

/-- The word of a well-formed instruction holds its OP at [5:0], its PREC at bit 6, its STAGE at [12:8], and 0 in RSV0 (bit 7) and RSV1
([31:13]) (30_encoding R120, R124). -/
def Statement (i : Instr) : Prop :=
  i.wf = true →
    (encode i).toNat % 64 = i.op ∧ (encode i).toNat / 64 % 2 = i.prec.bit ∧ (encode i).toNat / 128 % 2 = 0 ∧
      (encode i).toNat / 256 % 32 = i.stage ∧ (encode i).toNat / 8192 = 0

theorem nop (P : Prec) : Statement (.nop P) := by
  unfold Statement
  cases P <;> decide

theorem twbuild (P : Prec) : Statement (.twbuild P) := by
  unfold Statement
  cases P <;> decide

theorem twfree (P : Prec) : Statement (.twfree P) := by
  unfold Statement
  cases P <;> decide

theorem bitrev (P : Prec) : Statement (.bitrev P) := by
  unfold Statement
  cases P <;> decide

theorem bflyF (P : Prec) (stage : Nat) : Statement (.bflyF P stage) := by
  intro h
  have hs : stage < 32 := of_decide_eq_true h
  clear h
  cases P <;> interval_cases stage <;> decide

theorem bflyI (P : Prec) (stage : Nat) : Statement (.bflyI P stage) := by
  intro h
  have hs : stage < 32 := of_decide_eq_true h
  clear h
  cases P <;> interval_cases stage <;> decide

theorem fftF (P : Prec) : Statement (.fftF P) := by
  unfold Statement
  cases P <;> decide

theorem fftI (P : Prec) : Statement (.fftI P) := by
  unfold Statement
  cases P <;> decide

theorem rfftIp (P : Prec) : Statement (.rfftIp P) := by
  unfold Statement
  cases P <;> decide

theorem rfftOp (P : Prec) : Statement (.rfftOp P) := by
  unfold Statement
  cases P <;> decide

theorem pack (P : Prec) : Statement (.pack P) := by
  unfold Statement
  cases P <;> decide

theorem unpack (P : Prec) : Statement (.unpack P) := by
  unfold Statement
  cases P <;> decide

theorem conv (P : Prec) : Statement (.conv P) := by
  unfold Statement
  cases P <;> decide

end Sys2Proof.Laws.WordFields
end

