-- ==== Sys2Proof/Tests/Slice0.lean ====
section
/-! SUPPORT. Tests: the smoke test of WellFormed, the decoding of words written out from 30_encoding R130 and 95_test_vectors, single steps whose
expected results are the vectors of 95_test_vectors, and a witness for every obligation that has hypotheses. -/

open Sys2Proof Sys2Proof.Machine

set_option Elab.async false

namespace Sys2Proof.Tests

/-! ### Helpers -/

/-- 32-bit words stored from offset a. -/
def words (a : Nat) : List Nat → Memory → Memory
  | [], m => m
  | v :: vs, m => words (a + 4) vs (m.writeLE a 4 v)

/-- 64-bit words stored from offset a. -/
def dwords (a : Nat) : List Nat → Memory → Memory
  | [], m => m
  | v :: vs, m => dwords (a + 8) vs (m.writeLE a 8 v)

/-- The n elements from offset a. -/
def elems (P : Prec) (a n : Nat) (s : State) : List (Option Nat) :=
  (List.range n).map (fun i => (readElem P s.mem (a + i * P.esize)).map BitVec.toNat)

/-- A unit whose command w was accepted with operands L, with table size tw and DMEM m; nothing is at its port. -/
def running (w : Word) (L : OperandRegs) (tw : Word) (m : Memory) : State :=
  { State.reset with eng := .busy, latch := { cmd := w, ops := L }, lastCmd := w, twN := tw, mem := m }

/-- The state after one step. -/
def after (s : State) : State :=
  match step s with
  | .next t => t
  | .fault _ => s
  | .refused _ => s

/-- The state after a host access, performed by one step. -/
def accessed (op : AccessOp) (width : Width) (offset : Nat) (s : State) : State :=
  after (s.stimulate (.access { op := op, width := width, offset := BitVec.ofNat 25 offset }))

/-- Operands: an in-place X of n elements with stride 1, real parts from 0x000, imaginary parts from 0x100, as in 95_test_vectors 2.11. -/
def opsX (n : Word) : OperandRegs := { OperandRegs.zero with n := n, xRe := 0x000, xIm := 0x100, xStride := 1 }

/-- DMEM for opsX: real and imaginary parts, binary32. -/
def memX (re im : List Nat) : Memory := words 0x100 im (words 0 re [])

/-- The binary32 patterns of 1.0, 2.0, 3.0 and 4.0. -/
def oneToFour : List Nat := [0x3F800000, 0x40000000, 0x40400000, 0x40800000]

/-! ### WellFormed smoke: an ill-formed term for each check -/

theorem test_wf_instr : Instr.wf (.bflyF .binary32 31) = true ∧ Instr.wf (.conv .binary64) = true := by decide
theorem test_illformed_stage : Instr.wf (.bflyF .binary32 32) = false ∧ Instr.wf (.bflyI .binary64 40) = false := by decide
theorem test_wf_config : Config.reference.wf = true := by decide
theorem test_illformed_small_nmax : Config.wf { log2NMax := 9, log2DmemBytes := 22, unitBase := 0, irqLine := 0 } = false := by decide
theorem test_illformed_large_nmax : Config.wf { log2NMax := 25, log2DmemBytes := 22, unitBase := 0, irqLine := 0 } = false := by decide
theorem test_illformed_small_dmem : Config.wf { log2NMax := 16, log2DmemBytes := 11, unitBase := 0, irqLine := 0 } = false := by decide
theorem test_illformed_large_dmem : Config.wf { log2NMax := 16, log2DmemBytes := 25, unitBase := 0, irqLine := 0 } = false := by decide
theorem test_illformed_base : Config.wf { log2NMax := 16, log2DmemBytes := 22, unitBase := 0x1000000, irqLine := 0 } = false := by decide

/-! ### Decoding: the words of 30_encoding R130, one or both precisions of every command -/

theorem test_decode_nop : decode 0x00000000#32 = .ok (.nop .binary32) ∧ decode 0x00000040#32 = .ok (.nop .binary64) := by decide
theorem test_decode_twbuild : decode 0x00000001#32 = .ok (.twbuild .binary32) ∧ decode 0x00000041#32 = .ok (.twbuild .binary64) := by decide
theorem test_decode_twfree : decode 0x00000002#32 = .ok (.twfree .binary32) ∧ decode 0x00000042#32 = .ok (.twfree .binary64) := by decide
theorem test_decode_bitrev : decode 0x00000008#32 = .ok (.bitrev .binary32) ∧ decode 0x00000048#32 = .ok (.bitrev .binary64) := by decide
/-- V-DEC-9, and P4's words. -/
theorem test_decode_bflyF : decode 0x00000109#32 = .ok (.bflyF .binary32 1) ∧ decode 0x00000349#32 = .ok (.bflyF .binary64 3) := by decide
/-- V-DEC-10, and the example of R128. -/
theorem test_decode_bflyI : decode 0x00001F4A#32 = .ok (.bflyI .binary64 31) ∧ decode 0x0000034A#32 = .ok (.bflyI .binary64 3) := by decide
theorem test_decode_fftF : decode 0x0000000B#32 = .ok (.fftF .binary32) ∧ decode 0x0000004B#32 = .ok (.fftF .binary64) := by decide
theorem test_decode_fftI : decode 0x0000000C#32 = .ok (.fftI .binary32) ∧ decode 0x0000004C#32 = .ok (.fftI .binary64) := by decide
theorem test_decode_rfftIp : decode 0x0000000D#32 = .ok (.rfftIp .binary32) ∧ decode 0x0000004D#32 = .ok (.rfftIp .binary64) := by decide
theorem test_decode_rfftOp : decode 0x0000000E#32 = .ok (.rfftOp .binary32) ∧ decode 0x0000004E#32 = .ok (.rfftOp .binary64) := by decide
theorem test_decode_pack : decode 0x00000010#32 = .ok (.pack .binary32) ∧ decode 0x00000050#32 = .ok (.pack .binary64) := by decide
theorem test_decode_unpack : decode 0x00000011#32 = .ok (.unpack .binary32) ∧ decode 0x00000051#32 = .ok (.unpack .binary64) := by decide
theorem test_decode_conv : decode 0x00000018#32 = .ok (.conv .binary32) ∧ decode 0x00000058#32 = .ok (.conv .binary64) := by decide
/-- V-DEC-3, V-DEC-7, V-DEC-8. -/
theorem test_decode_reserved_bits :
    decode 0x00000080#32 = .error .reservedBits ∧ decode 0x00002009#32 = .error .reservedBits ∧
      decode 0x80000000#32 = .error .reservedBits := by decide
/-- V-DEC-4, V-DEC-5. -/
theorem test_decode_reserved_op : decode 0x00000003#32 = .error .reservedOp ∧ decode 0x0000003F#32 = .error .reservedOp := by decide
/-- V-DEC-6. -/
theorem test_decode_stray_stage : decode 0x0000010B#32 = .error .strayStage := by decide
/-- The examples of R128. -/
theorem test_encode_examples :
    encode (.fftF .binary32) = 0x0000000B#32 ∧ encode (.fftF .binary64) = 0x0000004B#32 ∧
      encode (.bflyI .binary64 3) = 0x0000034A#32 ∧ encode (.conv .binary32) = 0x00000018#32 := by decide
/-- The very next step runs a placed word as the first command after reset: TWFREE sets DONE. -/
theorem test_placed_word_runs :
    decodeTableWord 32 0x2 = some (.twfree .binary32) ∧ (after (State.reset.withFetchWord 32 0x2)).status = 0x2#32 := by decide

/-! ### The control commands -/

/-- V-DEC-1: NOP from reset. -/
theorem test_nop : (after (running 0x00000000#32 OperandRegs.zero 0 [])).status = 0x2#32 ∧
    (after (running 0x00000000#32 OperandRegs.zero 0 [])).errcode = 0 := by decide
/-- E1: size 1024; STATUS is DONE and TWV. -/
theorem test_twbuild : (after (running 0x00000001#32 (opsX 1024) 0 [])).twN = 1024 ∧
    (after (running 0x00000001#32 (opsX 1024) 0 [])).status = 0x12#32 := by decide
/-- V-TW-3 and V-TW-5: a failed build keeps the old table. -/
theorem test_twbuild_keeps : (after (running 0x00000001#32 (opsX 100) 8 [])).twN = 8 ∧
    (after (running 0x00000001#32 (opsX 100) 8 [])).errcode = 0x2#32 ∧
    (after (running 0x00000001#32 (opsX 131072) 8 [])).errcode = 0x2#32 := by decide
/-- V-REG-12. -/
theorem test_twfree : (after (running 0x00000002#32 OperandRegs.zero 8 [])).twN = 0 ∧
    (after (running 0x00000002#32 OperandRegs.zero 8 [])).status = 0x2#32 := by decide
/-- V-DEC-3 and V-ERR-19: an ILLEGAL word, decoded before any size check. -/
theorem test_illegal : (after (running 0x00000080#32 (opsX 6) 0 [])).errcode = 0x1#32 ∧
    (after (running 0x00000080#32 (opsX 6) 0 [])).status = 0x6#32 := by decide

/-! ### The FFT commands -/

/-- V-BR-4: bit patterns exact, no quieting of NaNs. -/
theorem test_bitrev :
    elems .binary32 0 4 (after (running 0x00000008#32 (opsX 4) 4 (memX [0x7F800001, 0xFFC12345, 0x80000000, 0x3F800000] [0, 0, 0, 0]))) =
      [some 0x7F800001, some 0x80000000, some 0xFFC12345, some 0x3F800000] := by decide +kernel
/-- V-BR-1. -/
theorem test_bitrev_eight : (List.range 8).map (bitRevIndex 3) = [0, 4, 2, 6, 1, 5, 3, 7] := by decide
/-- V-BF-1: only signs of zeros. -/
theorem test_bflyF_zeros :
    let t := after (running 0x00000109#32 (opsX 2) 2 (memX [0x80000000, 0x80000000] [0x80000000, 0x80000000]))
    elems .binary32 0 2 t = [some 0x80000000, some 0] ∧ elems .binary32 0x100 2 t = [some 0, some 0x80000000] := by decide +kernel
/-- V-BF-6: the last stage of the transform of [1, 2, 3, 4]. -/
theorem test_bflyF_stage :
    let t := after (running 0x00000209#32 (opsX 4) 4 (memX [0x40800000, 0xC0000000, 0x40C00000, 0xC0000000] [0, 0, 0, 0]))
    elems .binary32 0 4 t = [some 0x41200000, some 0xC0000000, some 0xC0000000, some 0xC0000000] ∧
      elems .binary32 0x100 4 t = [some 0, some 0x40000000, some 0, some 0xC0000000] := by decide +kernel
/-- V-BF-2. -/
theorem test_bflyI_zeros :
    let t := after (running 0x0000010A#32 (opsX 2) 2 (memX [0x80000000, 0x80000000] [0x80000000, 0x80000000]))
    elems .binary32 0 2 t = [some 0, some 0x80000000] ∧ elems .binary32 0x100 2 t = [some 0x80000000, some 0] := by decide +kernel
/-- V-BF-5. -/
theorem test_bflyI_stage :
    let t := after (running 0x0000020A#32 (opsX 4) 4 (memX [0x40800000, 0xC0000000, 0x40C00000, 0xC0000000] [0, 0, 0, 0]))
    elems .binary32 0 4 t = [some 0x41200000, some 0xC0000000, some 0xC0000000, some 0xC0000000] ∧
      elems .binary32 0x100 4 t = [some 0, some 0xC0000000, some 0, some 0x40000000] := by decide +kernel
/-- V-FFT-1. -/
theorem test_fftF :
    let t := after (running 0x0000000B#32 (opsX 4) 4 (memX oneToFour [0, 0, 0, 0]))
    elems .binary32 0 4 t = [some 0x41200000, some 0xC0000000, some 0xC0000000, some 0xC0000000] ∧
      elems .binary32 0x100 4 t = [some 0, some 0x40000000, some 0, some 0xC0000000] := by decide +kernel
/-- V-FFT-10, binary64: an infinity in the input. -/
theorem test_fftF_infinity :
    let t := after (running 0x0000004B#32 (opsX 4) 4 (dwords 0x100 [0, 0, 0, 0] (dwords 0 [0x3FF0000000000000, 0x7FF0000000000000, 0, 0] [])))
    elems .binary64 0 4 t = [some 0x7FF0000000000000, some 0x7FF8000000000000, some 0xFFF0000000000000, some 0x7FF8000000000000] ∧
      elems .binary64 0x100 4 t =
        [some 0x7FF8000000000000, some 0xFFF0000000000000, some 0x7FF8000000000000, some 0x7FF0000000000000] := by decide +kernel
/-- V-FFT-2: unscaled. -/
theorem test_fftI :
    let t := after (running 0x0000000C#32 (opsX 4) 4
      (memX [0x41200000, 0xC0000000, 0xC0000000, 0xC0000000] [0, 0x40000000, 0, 0xC0000000]))
    elems .binary32 0 4 t = [some 0x40800000, some 0x41000000, some 0x41400000, some 0x41800000] ∧
      elems .binary32 0x100 4 t = [some 0, some 0, some 0, some 0] := by decide +kernel
/-- V-RFFT-2. -/
theorem test_rfftIp :
    let t := after (running 0x0000000D#32 (opsX 4) 4 (memX [0x3F800000, 0x40400000] [0x40000000, 0x40800000]))
    elems .binary32 0 2 t = [some 0x41200000, some 0xC0000000] ∧
      elems .binary32 0x100 2 t = [some 0xC0000000, some 0x40000000] := by decide +kernel
/-- V-RFFT-3 through RFFT.OP (program P2, step 6). -/
theorem test_rfftOp :
    let t := after (running 0x0000000E#32 { opsX 8 with yRe := 0x300, yIm := 0x400, yStride := 1 } 8
      (memX [0x3F800000, 0x40400000, 0x40A00000, 0x40E00000] [0x40000000, 0x40800000, 0x40C00000, 0x41000000]))
    elems .binary32 0x300 4 t = [some 0x42100000, some 0xC0800000, some 0xC0800000, some 0xC0800000] ∧
      elems .binary32 0x400 4 t = [some 0xC0800000, some 0x411A827A, some 0x40800000, some 0x3FD413CC] := by decide +kernel
/-- 20_memory R99 and 93 I2: an unspecified input element leaves the whole vector unspecified, and the command succeeds. -/
theorem test_fftF_unspecified :
    let t := after (running 0x0000000B#32 (opsX 4) 4 (memX [0x3F800000, 0x40000000, 0x40400000] [0, 0, 0, 0]))
    elems .binary32 0 4 t = [none, none, none, none] ∧ t.status = 0x12#32 := by decide +kernel

/-! ### Packing -/

/-- V-PK-2: a negative stride. -/
theorem test_pack :
    let t := after (running 0x00000010#32
      { OperandRegs.zero with len := 2, xRe := 0x008, xStride := 0xFFFFFFFE, yRe := 0x100, yIm := 0x200, yStride := 1 } 0 (words 0 [1, 2, 3, 4] []))
    elems .binary32 0x100 2 t = [some 3, some 1] ∧ elems .binary32 0x200 2 t = [some 4, some 2] := by decide +kernel
/-- V-PK-3: an empty region is not checked. -/
theorem test_pack_empty : (after (running 0x00000010#32 OperandRegs.zero 0 [])).errcode = 0 := by decide
/-- V-UP-2: consecutive pairs share an element and the later write wins. -/
theorem test_unpack :
    elems .binary32 0x200 3 (after (running 0x00000011#32
      { OperandRegs.zero with len := 2, xRe := 0x000, xIm := 0x100, xStride := 1, yRe := 0x200, yStride := 1 } 0 (memX [10, 11] [20, 21]))) =
      [some 10, some 11, some 21] := by decide +kernel
/-- V-UP-3. -/
theorem test_unpack_overlap :
    (after (running 0x00000011#32
      { OperandRegs.zero with len := 2, xRe := 0x000, xIm := 0x100, xStride := 1, yRe := 0x004, yStride := 2 } 0 [])).errcode = 0x308#32 := by decide

/-! ### Convolution -/

/-- The operands of the convolution tests: signal at 0, filter at 0x100, result at 0x200. -/
def opsC (len flen : Word) : OperandRegs :=
  { OperandRegs.zero with len := len, flen := flen, xRe := 0, xStride := 1, yRe := 0x200, yStride := 1, fBase := 0x100, fStride := 1 }

/-- V-CONV-2. -/
theorem test_conv :
    elems .binary32 0x200 3 (after (running 0x00000018#32 (opsC 3 3) 0
      (words 0x100 [0x3E99999A, 0x3E99999A, 0x3E99999A] (words 0 [0x3DCCCCCD, 0x3E4CCCCD, 0x3E99999A, 0x3ECCCCCD, 0x3F000000] [])))) =
      [some 0x3E3851EC, some 0x3E8A3D71, some 0x3EB851EC] := by decide +kernel
/-- V-CONV-4: an empty filter gives +0. -/
theorem test_conv_no_filter :
    elems .binary32 0x200 2 (after (running 0x00000018#32 (opsC 2 0) 0 [])) = [some 0, some 0] := by decide +kernel

/-! ### The order of the checks (95_test_vectors 2.11) -/

/-- V-ERR-3, V-ERR-4, V-ERR-7. -/
theorem test_size_table_stage :
    (after (running 0x0000000B#32 { opsX 6 with xStride := 0 } 0 [])).errcode = 0x002#32 ∧
    (after (running 0x0000000B#32 (opsX 8) 0 [])).errcode = 0x003#32 ∧
    (after (running 0x00000409#32 { opsX 8 with xStride := 0 } 8 [])).errcode = 0x004#32 := by decide
/-- V-ERR-9, V-ERR-11, V-ERR-14. -/
theorem test_stride_align_bounds :
    (after (running 0x0000000B#32 { opsX 8 with xStride := 0, xRe := 2 } 8 [])).errcode = 0x105#32 ∧
    (after (running 0x0000004B#32 { opsX 8 with xIm := 0x104 } 8 [])).errcode = 0x206#32 ∧
    (after (running 0x0000000B#32 { opsX 8 with xRe := 0x3FFFF0, xIm := 2 } 8 [])).errcode = 0x206#32 := by decide
/-- V-ERR-12, V-ERR-13, V-CONV-11. -/
theorem test_bounds :
    (after (running 0x0000000B#32 { opsX 8 with xIm := 0x3FFFF0 } 8 [])).errcode = 0x207#32 ∧
    (after (running 0x0000000B#32 { opsX 8 with xRe := 0x010, xStride := 0xFFFFFFFF } 8 [])).errcode = 0x107#32 ∧
    (after (running 0x00000018#32 { opsC 3 3 with xRe := 0x3FFFF0 } 0 [])).errcode = 0x107#32 := by decide
/-- V-ERR-16, V-ERR-17, V-ERR-18. -/
theorem test_overlap :
    (after (running 0x0000000B#32 { opsX 8 with xIm := 0x004, xStride := 2 } 8 [])).errcode = 0x108#32 ∧
    (after (running 0x0000000E#32 { opsX 8 with yRe := 0x200, yIm := 0x100, yStride := 1 } 8 [])).errcode = 0x408#32 ∧
    (after (running 0x0000000E#32 { opsX 8 with yRe := 0x000, yIm := 0x300, yStride := 1 } 8 [])).errcode = 0x308#32 := by decide

/-! ### Registers and the port (95_test_vectors 2.2) -/

/-- V-REG-1. -/
theorem test_identity :
    State.reset.readWord 0x000 = 0x52324654#32 ∧ State.reset.readWord 0x004 = 0x00010000#32 ∧ State.reset.readWord 0x008 = 0x00001610#32 := by
  decide
/-- V-REG-3: bus errors with data 0. -/
theorem test_bus_errors :
    (accessed .read .w16 0x010 State.reset).responses = [{ status := .error, data := some 0 }] ∧
    (accessed .read .w32 0x2000 State.reset).responses = [{ status := .error, data := some 0 }] ∧
    (accessed .read .w32 0x012 State.reset).responses = [{ status := .error, data := some 0 }] := by decide
/-- V-REG-4: all bits stored. -/
theorem test_operand_register : (accessed (.write 0xFFFFFFFF) .w32 0x01C State.reset).readWord 0x01C = 0xFFFFFFFF#32 := by decide
/-- R81, R97: a little-endian DMEM write. -/
theorem test_dmem_write :
    (accessed (.write 0x44332211) .w32 0x1000008 State.reset).mem = [(8, 0x11), (9, 0x22), (10, 0x33), (11, 0x44)] := by decide
/-- V-REG-8, V-REG-9. -/
theorem test_irq :
    State.irq { State.reset with done := true, ieDone := true } = true ∧ State.irq { State.reset with done := true, ieErr := true } = false ∧
    State.irq { State.reset with ovr := true, ieErr := true } = true := by decide
/-- V-REG-10: a soft reset when IDLE keeps DMEM. -/
theorem test_soft_reset :
    accessed (.write 0x80000000) .w32 0x00C { State.reset with twN := 8, ieDone := true, ieErr := true, mem := [(3, 7)] } =
      { State.reset with mem := [(3, 7)], responses := [{ status := .ok, data := none }] } := by decide
/-- V-REG-11: a soft reset when BUSY is pending, and is performed at the completion. -/
theorem test_soft_reset_pending :
    let s := { running 0x00000008#32 (opsX 2) 2 (memX [1, 2] [3, 4]) with ieDone := true, srstPending := true }
    s.ctrl = 0x80000001#32 ∧ (after s).ctrl = 0 ∧ (after s).status = 0 ∧ elems .binary32 0 2 (after s) = [some 1, some 2] := by decide +kernel
/-- V-REG-7 (a): a CMD write while BUSY is dropped and sets OVR. -/
theorem test_command_while_busy :
    (accessed (.write 0) .w32 0x018 { running 0x0000000B#32 (opsX 8) 8 [] with delay := 1 }).ovr = true ∧
    (accessed (.write 0) .w32 0x018 { running 0x0000000B#32 (opsX 8) 8 [] with delay := 1 }).lastCmd = 0x0B#32 := by decide
/-- 70_reset R280 and 93 I11: a host access while the reset input is asserted, also where the input is released before a step. -/
theorem test_access_during_reset :
    let s := (State.reset.stimulate .assertReset).stimulate (.access { op := .read, width := .w32, offset := 0 })
    step s = .fault .hostAccessDuringReset ∧ step (s.stimulate .releaseReset) = .fault .hostAccessDuringReset :=
  ⟨rfl, rfl⟩
/-- 70_reset R280: a pulse of the reset input resets the unit though no step falls into it. -/
theorem test_reset_pulse :
    let s := (({ running 0x00000002#32 (opsX 4) 8 [] with done := true, ieDone := true } : State).stimulate .assertReset).stimulate .releaseReset
    s.eng = .idle ∧ s.twN = 0 ∧ s.irq = false ∧ s.turn = .wait := by decide
/-- 93 I1: a power loss makes every byte ⊥, and no free value is drawn twice. -/
theorem test_power_cycle :
    let s := ({ State.reset with mem := [(3, 7)], fresh := 5 } : State).stimulate .powerCycle
    s.mem = [] ∧ s.fresh = 5 := by decide

/-! ### The datapath -/

/-- V-TWT-1, binary32 and binary64, j = 1 and 3. -/
theorem test_twiddles :
    twCos .binary32 3 1 = 0x3F3504F3#32 ∧ twSin .binary32 3 3 = 0x3F3504F3#32 ∧ twCos .binary64 3 3 = 0xBFE6A09E667F3BCD#64 := by decide +kernel
/-- V-TWT-2, N = 16. -/
theorem test_twiddles_sixteen :
    twCos .binary32 4 1 = 0x3F6C835E#32 ∧ twCos .binary64 4 3 = 0x3FD87DE2A6AEA963#64 ∧ twSin .binary64 4 1 = 0x3FD87DE2A6AEA963#64 := by
  decide +kernel
/-- V-CM-2: the twiddle multiplier on an infinity. -/
theorem test_cmul :
    cmul (ieee .binary32) { re := 0x3F800000#32, im := 0x80000000#32 } { re := 0x7F800000#32, im := 0#32 } =
      { re := 0x7F800000#32, im := 0x7FC00000#32 } := by decide +kernel
/-- Rounding by hand: 2^24 + 1 is a tie and goes to the even 2^24; 2^24 + 3 goes to 2^24 + 4; the largest finite value doubled is infinity. -/
theorem test_fadd_rounds :
    fadd .binary32 0x4B800000#32 0x3F800000#32 = 0x4B800000#32 ∧ fadd .binary32 0x4B800001#32 0x3F800000#32 = 0x4B800002#32 ∧
      fadd .binary32 0x7F7FFFFF#32 0x7F7FFFFF#32 = 0x7F800000#32 := by decide +kernel
/-- Subnormal products by hand: 2^-75 · 2^-74 is the least subnormal, and 2^-75 · 2^-75 is half of it, a tie that goes to the even 0. -/
theorem test_fmul_subnormal :
    fmul .binary32 0x1A000000#32 0x1A800000#32 = 0x00000001#32 ∧ fmul .binary32 0x1A000000#32 0x9A000000#32 = 0x80000000#32 := by decide +kernel

/-! ### Witnesses: for every obligation with hypotheses, concrete inputs that meet them all together -/

/-- The parts of Accepts that Lean decides, and the size check. -/
theorem accepts_intro (i : Instr) (s : State) (size : SizePasses i s)
    (rest : TablePasses i s ∧ StagePasses i s ∧ (∀ r ∈ regions i s.latch.ops, ¬ r.BadStride) ∧
      (∀ r ∈ regions i s.latch.ops, ¬ r.Misaligned i.prec) ∧ (∀ r ∈ regions i s.latch.ops, ¬ r.Outside s.config i.prec) ∧
      ∀ p ∈ overlapPairs i, ¬ PairMeets (regions i s.latch.ops) i.prec p) : Accepts i s :=
  ⟨size, rest.1, rest.2.1, rest.2.2.1, rest.2.2.2.1, rest.2.2.2.2.1, rest.2.2.2.2.2⟩

/-- A running command that decodes completes, and `after` is the state it leaves. -/
theorem after_completion (i : Instr) (s : State) (ht : s.turn = .completion) (hd : decode s.latch.cmd = .ok i) :
    step s = .next (after s) ∧ exec i s = .next (after s) := by
  have hs : step s = exec i s := by simp [step, ht, hd]
  rcases exec_cases i s with ⟨e, _, h⟩ | ⟨_, h⟩ <;> simp [after, hs, h]

/-- A running command on the four elements 1, 2, 3, 4 with a table of size 4. -/
def runningX (w : Word) : State := running w (opsX 4) 4 (memX oneToFour [0, 0, 0, 0])

/-- The elements of runningX. -/
def elemX (j : Nat) : Cplx (Elem .binary32) := { re := BitVec.ofNat 32 (oneToFour.getD j 0), im := 0#32 }

/-- The operands and DMEM of a real transform of four samples out of place. -/
def runningOp : State := running 0x0000000E#32 { opsX 4 with yRe := 0x300, yIm := 0x400, yStride := 1 } 4 (memX oneToFour [0, 0, 0, 0])

/-- A running PACK of two pairs from 0x000 with stride 2. -/
def runningPack : State :=
  running 0x00000010#32 { OperandRegs.zero with len := 2, xRe := 0, xStride := 2, yRe := 0x100, yIm := 0x200, yStride := 1 } 0 (words 0 [1, 2, 3, 4] [])

/-- The UNPACK that undoes runningPack, to 0x300, on the DMEM it left. -/
def runningUnpack : State :=
  running 0x00000011#32
    { OperandRegs.zero with len := 2, xRe := 0x100, xIm := 0x200, xStride := 1, yRe := 0x300, yStride := 2 } 0 (after runningPack).mem

/-- A running CONV of three outputs with a filter of two elements, all elements 1.0. -/
def runningConv : State :=
  running 0x00000018#32 (opsC 3 2) 0
    (words 0x100 [0x3F800000, 0x3F800000] (words 0 [0x3F800000, 0x3F800000, 0x3F800000, 0x3F800000] []))

/-- runningConv with the filter read from its last element backwards. -/
def runningConvBack : State :=
  running 0x00000018#32 { opsC 3 2 with fBase := 0x104, fStride := 0xFFFFFFFF } 0 runningConv.mem

/-- A state with one access at the port. -/
def waiting (op : AccessOp) (width : Width) (offset : Nat) (s : State) : State :=
  { s with port := [{ op := op, width := width, offset := BitVec.ofNat 25 offset }] }

theorem witness_DecodeOfEncode : Instr.wf (.bflyI .binary64 31) = true := by decide
theorem witness_EncodeOfDecode : decode 0x00001F4A#32 = .ok (.bflyI .binary64 31) := by decide
theorem witness_ReservedBitsDecodeToIllegal :
    (∀ b ∈ [7, 13, 31], (b = 7 ∨ (13 ≤ b ∧ b < 32)) ∧ (BitVec.ofNat 32 (2 ^ b)).getLsbD b = true) ∧
    (running 0x80000000#32 OperandRegs.zero 0 []).turn = .completion ∧ (running 0x80000000#32 OperandRegs.zero 0 []).srstPending = false := by
  decide
/-- One illegal word for each cause (RSV0, RSV1, OP, STAGE), a legal one with the greatest STAGE, and a state that completes one. -/
theorem witness_DecodeFollowsPseudocode :
    (0x00000080#32).toNat / 128 % 2 ≠ 0 ∧ (0x00002009#32).toNat / 8192 ≠ 0 ∧
    (0x0000003F#32).toNat % 64 ∉ [0x00, 0x01, 0x02, 0x08, 0x09, 0x0A, 0x0B, 0x0C, 0x0D, 0x0E, 0x10, 0x11, 0x18] ∧
    ((0x0000010B#32).toNat % 64 ∉ [0x09, 0x0A] ∧ (0x0000010B#32).toNat / 256 % 32 ≠ 0) ∧
    ((0x00001F4A#32).toNat % 64 ∈ [0x09, 0x0A] ∧ (0x00001F4A#32).toNat / 128 % 2 = 0 ∧ (0x00001F4A#32).toNat / 8192 = 0) ∧
    (running 0x0000003F#32 OperandRegs.zero 0 []).turn = .completion ∧ (running 0x0000003F#32 OperandRegs.zero 0 []).srstPending = false := by
  decide
theorem witness_StepRunsDecodedCommand :
    (runningX 0x0000000B#32).turn = .completion ∧ decode (runningX 0x0000000B#32).latch.cmd = .ok (.fftF .binary32) := by decide
theorem witness_PlacedCommandRunsNext : decodeTableWord 32 0x0000034A = some (.bflyI .binary64 3) := by decide
theorem witness_AcceptedCommandCompletes :
    let s := { waiting .read .w32 0x010 (runningX 0x0000000B#32) with delay := 3 }
    s.accessInReset = false ∧ s.resetPin = false ∧ s.eng = .busy := by decide
theorem witness_PowerOnValues : Config.reference.wf = true := by decide
theorem witness_ResultIgnoresLiveRegisters :
    let s := runningX 0x0000000B#32
    let s' := { s with regs := opsX 16, done := true, lastCmd := 0 }
    s'.latch = s.latch ∧ s'.twN = s.twN ∧ s'.mem = s.mem ∧ s'.config = s.config ∧ s.srstPending = false ∧ s'.srstPending = false := by
  refine ⟨rfl, rfl, rfl, rfl, rfl, rfl⟩
theorem witness_SoftResetRequest :
    (0x80000000#32).getLsbD 31 = true ∧ State.reset.eng = .idle ∧ (runningX 0x0000000B#32).eng = .busy := by decide
/-- A command and an ILLEGAL word in flight, each with a soft reset pending. -/
theorem witness_PendingSoftResetAtCompletion :
    (let s := { runningX 0x0000000B#32 with srstPending := true }
     s.srstPending = true ∧ s.turn = .completion) ∧
    (let s := { runningX 0x0000003F#32 with srstPending := true }
     s.srstPending = true ∧ s.turn = .completion ∧ decode s.latch.cmd = .error .reservedOp) := by decide
/-- A command in flight that would pass its checks: byte 0 is abandoned, byte 0x200 is retained. -/
theorem witness_HardwareResetStep :
    let s := { runningX 0x0000000B#32 with resetPin := true }
    s.accessInReset = false ∧ s.resetPin = true ∧ s.port = [] ∧ s.mem.wf ∧ s.eng = .busy ∧ decode s.latch.cmd = .ok (.fftF .binary32) ∧
      commandError (.fftF .binary32) s = none ∧ 0 ∈ writtenAddrs (.fftF .binary32) s.latch.ops ∧
      0x200 ∉ writtenAddrs (.fftF .binary32) s.latch.ops := by decide +kernel
theorem witness_IdentityRegisters : State.reset.config.wf = true := by decide
theorem witness_ReservedAndStoredBits :
    ∀ o ∈ [0x02C, 0x03C, 0x04C, 0x058, 0xFFC], o = 0x02C ∨ o = 0x03C ∨ o = 0x04C ∨ (0x058 ≤ o ∧ o ≤ 0xFFC) := by decide
/-- The failures of 95_test_vectors 2.11 reach the codes and regions; two of them, and a write with bit 31 clear. -/
theorem witness_CtrlAndErrcodeBits :
    (after (running 0x0000000B#32 (opsX 6) 0 [])).errCode = .invalidSize ∧
    (after (running 0x0000000B#32 { opsX 8 with xStride := 0, xRe := 2 } 8 [])).errSrc = some .xRe ∧
    (0x00000003#32).getLsbD 31 = false := by decide
theorem witness_CommandWrite : State.reset.eng = .idle ∧ (runningX 0x0000000B#32).eng = .busy := by decide
/-- The clauses at their boundaries: 0xFFC performed, 0xFFE misaligned, 0x1000 and 0xFFFFFF unmapped, and the first offset after DMEM. -/
theorem witness_RegisterWindowAccess :
    (∀ o ∈ [0x000, 0xFFC], (waiting .read .w32 o State.reset).turn =
      .port { op := .read, width := .w32, offset := BitVec.ofNat 25 o } [] ∧ (BitVec.ofNat 25 o).toNat < 0x1000 ∧ (BitVec.ofNat 25 o).toNat % 4 = 0) ∧
    (waiting (.write 1) .w32 0xFFC State.reset).turn = .port { op := .write 1, width := .w32, offset := 0xFFC } [] ∧
    (waiting .read .w32 0xFFE State.reset).turn = .port { op := .read, width := .w32, offset := 0xFFE } [] ∧ (0xFFE#25).toNat % 4 ≠ 0 ∧
    (∀ o ∈ [0x1000, 0xFFFFFF], (waiting .read .w32 o State.reset).turn =
      .port { op := .read, width := .w32, offset := BitVec.ofNat 25 o } [] ∧
      0x1000 ≤ (BitVec.ofNat 25 o).toNat ∧ (BitVec.ofNat 25 o).toNat < 0x01000000) ∧
    (waiting .read .w32 0x1400000 State.reset).turn = .port { op := .read, width := .w32, offset := 0x1400000 } [] ∧
    0x01000000 + State.reset.config.dmemBytes ≤ (0x1400000#25).toNat := by decide +kernel
/-- The first and the last aligned 64-bit DMEM access, and a misaligned one. -/
theorem witness_DmemAccess :
    (∀ d ∈ [0, 0x3FFFF8], (waiting (.write 5) .w64 (0x01000000 + d) State.reset).turn =
      .port { op := .write 5, width := .w64, offset := BitVec.ofNat 25 (0x01000000 + d) } [] ∧
      (BitVec.ofNat 25 (0x01000000 + d)).toNat = 0x01000000 + d ∧ d < State.reset.config.dmemBytes ∧ d % Width.bytes .w64 = 0) ∧
    (waiting .read .w16 0x01000001 State.reset).turn = .port { op := .read, width := .w16, offset := 0x01000001 } [] ∧
    1 < State.reset.config.dmemBytes ∧ 1 % Width.bytes .w16 ≠ 0 := by decide +kernel
theorem witness_DmemAccessHeldWhileBusy :
    (let s := waiting .read .w32 0x01000000 (runningX 0x0000000B#32)
     s.accessInReset = false ∧ s.resetPin = false ∧ s.eng = .busy ∧ s.port = [{ op := .read, width := .w32, offset := 0x01000000 }] ∧
     0x01000000 ≤ (0x01000000#25).toNat ∧ (0x01000000#25).toNat < 0x01000000 + s.config.dmemBytes) ∧
    (let s := { waiting .read .w32 0x010 (runningX 0x0000000B#32) with delay := 1 }
     s.accessInReset = false ∧ s.resetPin = false ∧ s.eng = .busy ∧ s.port = [{ op := .read, width := .w32, offset := 0x010 }] ∧ (0x010#25).toNat < 0x1000 ∧ 0 < s.delay) := by
  decide +kernel
theorem witness_HostAccessDuringResetFaults :
    (waiting .read .w32 0 State.reset).port = [{ op := .read, width := .w32, offset := 0 }] ∧
    (State.reset.stimulate .assertReset).resetPin = true := by decide
theorem witness_IdleUnitWaits : State.reset.accessInReset = false ∧ State.reset.resetPin = false ∧ State.reset.eng = .idle ∧ State.reset.port = [] := by decide
theorem witness_NopCompletes : (runningX 0x00000000#32).srstPending = false := by decide
/-- The least and the greatest size, and the sizes just outside. -/
theorem witness_TwbuildSetsTable :
    (running 0x00000001#32 (opsX 2) 0 []).srstPending = false ∧ SizeOk Config.reference 2 ∧ SizeOk Config.reference 65536 ∧
      ¬ SizeOk Config.reference 1 ∧ ¬ SizeOk Config.reference 131072 ∧ ¬ SizeOk Config.reference 100 := by
  simp only [← validSize_iff]
  decide
theorem witness_TwfreeClearsTable : (running 0x00000002#32 (opsX 2) 8 []).srstPending = false := by decide
theorem witness_BitrevPermutes :
    Accepts (.bitrev .binary32) (runningX 0x00000008#32) ∧ (runningX 0x00000008#32).srstPending = false ∧
      ∀ j < (runningX 0x00000008#32).latch.ops.n.toNat, loadCplx .binary32 (runningX 0x00000008#32).mem (runningX 0x00000008#32).latch.ops.x j = some (elemX j) :=
  ⟨accepts_intro _ _ (fun _ => ⟨2, by decide⟩) (by decide +kernel), by decide +kernel⟩
/-- The last stage, st = 2 on 4 elements: the blocks b = 0 and positions j = 0 and 1. -/
theorem witness_ForwardStageOfButterflies :
    Accepts (.bflyF .binary32 2) (runningX 0x00000209#32) ∧ (runningX 0x00000209#32).srstPending = false ∧
      (∀ j < (runningX 0x00000209#32).latch.ops.n.toNat, loadCplx .binary32 (runningX 0x00000209#32).mem (runningX 0x00000209#32).latch.ops.x j = some (elemX j)) ∧
      2 ^ 2 ∣ 0 ∧ 0 < (runningX 0x00000209#32).latch.ops.n.toNat ∧ 1 < 2 ^ (2 - 1) :=
  ⟨accepts_intro _ _ (fun _ => ⟨2, by decide⟩) (by decide +kernel), by decide +kernel⟩
/-- The first stage, st = 1: the last block b = 2. -/
theorem witness_InverseStageOfButterflies :
    Accepts (.bflyI .binary32 1) (runningX 0x0000010A#32) ∧ (runningX 0x0000010A#32).srstPending = false ∧
      (∀ j < (runningX 0x0000010A#32).latch.ops.n.toNat, loadCplx .binary32 (runningX 0x0000010A#32).mem (runningX 0x0000010A#32).latch.ops.x j = some (elemX j)) ∧
      2 ^ 1 ∣ 2 ∧ 2 < (runningX 0x0000010A#32).latch.ops.n.toNat ∧ 0 < 2 ^ (1 - 1) :=
  ⟨accepts_intro _ _ (fun _ => ⟨2, by decide⟩) (by decide +kernel), by decide +kernel⟩
theorem witness_ForwardFftResult :
    Accepts (.fftF .binary32) (runningX 0x0000000B#32) ∧ (runningX 0x0000000B#32).srstPending = false ∧
      ∀ j < (runningX 0x0000000B#32).latch.ops.n.toNat, loadCplx .binary32 (runningX 0x0000000B#32).mem (runningX 0x0000000B#32).latch.ops.x j = some (elemX j) :=
  ⟨accepts_intro _ _ (fun _ => ⟨2, by decide⟩) (by decide +kernel), by decide +kernel⟩
theorem witness_InverseFftResult :
    Accepts (.fftI .binary32) (runningX 0x0000000C#32) ∧ (runningX 0x0000000C#32).srstPending = false ∧
      ∀ j < (runningX 0x0000000C#32).latch.ops.n.toNat, loadCplx .binary32 (runningX 0x0000000C#32).mem (runningX 0x0000000C#32).latch.ops.x j = some (elemX j) :=
  ⟨accepts_intro _ _ (fun _ => ⟨2, by decide⟩) (by decide +kernel), by decide +kernel⟩
theorem witness_RealFftInPlaceResult :
    Accepts (.rfftIp .binary32) (runningX 0x0000000D#32) ∧ (runningX 0x0000000D#32).srstPending = false ∧
      ∀ j < (runningX 0x0000000D#32).latch.ops.n.toNat / 2, loadCplx .binary32 (runningX 0x0000000D#32).mem (runningX 0x0000000D#32).latch.ops.x j = some (elemX j) :=
  ⟨accepts_intro _ _ (fun _ => ⟨2, by decide⟩) (by decide +kernel), by decide +kernel⟩
theorem witness_RealFftOutOfPlaceResult :
    Accepts (.rfftOp .binary32) runningOp ∧ runningOp.srstPending = false ∧
      ∀ j < runningOp.latch.ops.n.toNat / 2, loadCplx .binary32 runningOp.mem runningOp.latch.ops.x j = some (elemX j) :=
  ⟨accepts_intro _ _ (fun _ => ⟨2, by decide⟩) (by decide +kernel), by decide +kernel⟩
/-- Element 3 of a complex transform, and element 1 of a real one, unspecified. -/
theorem witness_UnspecifiedInputMarksOutput :
    (let s := running 0x0000000B#32 (opsX 4) 4 (memX [1, 2, 3] [0, 0, 0, 0])
     Instr.isFft (.fftF .binary32) = true ∧ Accepts (.fftF .binary32) s ∧ s.srstPending = false ∧ s.mem.wf ∧ 3 < s.latch.ops.n.toNat ∧
       loadCplx .binary32 s.mem s.latch.ops.x 3 = none) ∧
    (let s := running 0x0000000D#32 (opsX 4) 4 (memX [1] [0, 0])
     Instr.isFft (.rfftIp .binary32) = true ∧ Accepts (.rfftIp .binary32) s ∧ s.srstPending = false ∧ s.mem.wf ∧ 1 < s.latch.ops.n.toNat / 2 ∧
       loadCplx .binary32 s.mem s.latch.ops.x 1 = none) :=
  ⟨⟨rfl, accepts_intro _ _ (fun _ => ⟨2, by decide⟩) (by decide +kernel), by decide +kernel⟩,
    ⟨rfl, accepts_intro _ _ (fun _ => ⟨2, by decide⟩) (by decide +kernel), by decide +kernel⟩⟩
theorem witness_PackSplitsPairs :
    Accepts (.pack .binary32) runningPack ∧ runningPack.srstPending = false ∧ runningPack.mem.wf ∧ 1 < runningPack.latch.ops.len.toNat :=
  ⟨accepts_intro _ _ (fun h => by cases h) (by decide +kernel), by decide +kernel⟩
/-- Strides 2, 1 and −1. -/
theorem witness_UnpackInterleaves :
    ∀ y ∈ [2#32, 1#32, 0xFFFFFFFF#32],
      let s := running 0x00000011#32
        { OperandRegs.zero with len := 2, xRe := 0x000, xIm := 0x100, xStride := 1, yRe := 0x300, yStride := y } 0 (memX [10, 11] [20, 21])
      Accepts (.unpack .binary32) s ∧ s.srstPending = false ∧ s.mem.wf ∧
        (2 ≤ s.latch.ops.yStride.toInt.natAbs ∨ s.latch.ops.yStride.toInt = 1 ∨ s.latch.ops.yStride.toInt = -1) := by
  have sizes : ∀ s, SizePasses (.unpack .binary32) s := fun s h => by cases h
  intro y hy
  fin_cases hy <;> exact ⟨accepts_intro _ _ (sizes _) (by decide +kernel), by decide +kernel⟩
theorem witness_UnpackUndoesPack :
    Accepts (.pack .binary32) runningPack ∧ runningPack.srstPending = false ∧ runningPack.mem.wf ∧
      exec (.pack .binary32) runningPack = .next (after runningPack) ∧ runningUnpack.mem = (after runningPack).mem ∧
      Accepts (.unpack .binary32) runningUnpack ∧ runningUnpack.srstPending = false ∧
      exec (.unpack .binary32) runningUnpack = .next (after runningUnpack) ∧
      runningUnpack.latch.ops.len = runningPack.latch.ops.len ∧ runningUnpack.latch.ops.xRe = runningPack.latch.ops.yRe ∧
      runningUnpack.latch.ops.xIm = runningPack.latch.ops.yIm ∧ runningUnpack.latch.ops.xStride = runningPack.latch.ops.yStride ∧
      runningUnpack.latch.ops.yStride = runningPack.latch.ops.xStride ∧ 1 < runningPack.latch.ops.len.toNat :=
  ⟨accepts_intro _ _ (fun h => by cases h) (by decide +kernel), by decide, by decide +kernel,
    (after_completion _ _ (by decide) (by decide)).2, rfl,
    accepts_intro _ _ (fun h => by cases h) (by decide +kernel), by decide, (after_completion _ _ (by decide) (by decide)).2,
    by decide +kernel⟩
/-- Every element specified, and the same with the filter unspecified. -/
theorem witness_ConvIsSlidingDotProduct :
    Accepts (.conv .binary32) runningConv ∧ runningConv.srstPending = false ∧ runningConv.mem.wf ∧
      (∀ j < runningConv.latch.ops.flen.toNat,
        loadElem .binary32 runningConv.mem runningConv.latch.ops.xRe runningConv.latch.ops.xStride (2 + j) = some 0x3F800000#32 ∧
        loadElem .binary32 runningConv.mem runningConv.latch.ops.fBase runningConv.latch.ops.fStride j = some 0x3F800000#32) ∧
      loadElem .binary32 (running 0x00000018#32 (opsC 3 2) 0 []).mem 0x100 1 0 = none :=
  ⟨accepts_intro _ _ (fun h => by cases h) (by decide +kernel), by decide +kernel⟩
theorem witness_ReversedFilterIsReversedStride :
    Accepts (.conv .binary32) runningConvBack ∧ Accepts (.conv .binary32) runningConv ∧ runningConvBack.srstPending = false ∧
      runningConv.srstPending = false ∧ runningConvBack.mem.wf ∧ runningConv.mem.wf ∧
      exec (.conv .binary32) runningConvBack = .next (after runningConvBack) ∧ exec (.conv .binary32) runningConv = .next (after runningConv) ∧
      runningConvBack.latch.ops.fBase.toNat = 0x100 + (runningConvBack.latch.ops.flen.toNat - 1) * Prec.esize .binary32 ∧
      runningConvBack.latch.ops.fStride.toInt = -1 ∧ runningConv.latch.ops.fBase.toNat = 0x100 ∧ runningConv.latch.ops.fStride.toInt = 1 ∧
      runningConv.latch.ops.flen = runningConvBack.latch.ops.flen ∧ runningConv.latch.ops.len = runningConvBack.latch.ops.len ∧
      (∀ j < runningConvBack.latch.ops.flen.toNat,
        readElem .binary32 runningConv.mem (0x100 + j * Prec.esize .binary32) =
          readElem .binary32 runningConvBack.mem (0x100 + (runningConvBack.latch.ops.flen.toNat - 1 - j) * Prec.esize .binary32)) ∧
      ∀ k < signalCount runningConvBack.latch.ops.len.toNat runningConvBack.latch.ops.flen.toNat,
        loadElem .binary32 runningConv.mem runningConv.latch.ops.xRe runningConv.latch.ops.xStride k =
          loadElem .binary32 runningConvBack.mem runningConvBack.latch.ops.xRe runningConvBack.latch.ops.xStride k :=
  ⟨accepts_intro _ _ (fun h => by cases h) (by decide +kernel), accepts_intro _ _ (fun h => by cases h) (by decide +kernel),
    by decide, by decide, by decide +kernel, by decide +kernel,
    (after_completion _ _ (by decide) (by decide)).2, (after_completion _ _ (by decide) (by decide)).2, by decide +kernel⟩
theorem witness_BoxcarIsFilterLength :
    Accepts (.conv .binary32) runningConv ∧ runningConv.srstPending = false ∧
      runningConv.latch.ops.flen.toNat ≤ 2 ^ (fracBits .binary32 + 1) ∧
      (∀ k < signalCount runningConv.latch.ops.len.toNat runningConv.latch.ops.flen.toNat,
        loadElem .binary32 runningConv.mem runningConv.latch.ops.xRe runningConv.latch.ops.xStride k = some (one .binary32)) ∧
      ∀ j < runningConv.latch.ops.flen.toNat,
        loadElem .binary32 runningConv.mem runningConv.latch.ops.fBase runningConv.latch.ops.fStride j = some (one .binary32) :=
  ⟨accepts_intro _ _ (fun h => by cases h) (by decide +kernel), by decide +kernel⟩
/-- A region with a positive and one with a negative stride. -/
theorem witness_RegionIntervalIsMinMax :
    (let r : Region := { id := .xRe, kind := .pair, role := .read, base := 0x100, stride := 3, count := 4 }
     r.count ≠ 0 ∧ r.stride ≠ 0) ∧
    (let r : Region := { id := .xRe, kind := .elem, role := .read, base := 0x100, stride := 0xFFFFFFFE, count := 1 }
     r.count ≠ 0 ∧ r.stride ≠ 0) := by decide +kernel
/-- The states of the failing commands below, one for each kind of error. -/
def failing (w : Word) (L : OperandRegs) : State := running w L 8 []
/-- A size that is no power of two fails the size check. -/
theorem witness_FailedCommandOnlyReports :
    FirstError (.fftF .binary32) (failing 0xB#32 (opsX 6)) { code := .invalidSize, src := none } ∧
      (failing 0xB#32 (opsX 6)).srstPending = false :=
  ⟨.size fun h => absurd ((validSize_iff _ _).mpr (h rfl)) (by decide), by decide⟩
theorem witness_FirstError_table : FirstError (.fftF .binary32) (failing 0xB#32 (opsX 16)) { code := .sizeMismatch, src := none } :=
  .table (fun _ => ⟨4, by decide⟩) (by decide)
theorem witness_FirstError_stage : FirstError (.bflyF .binary32 4) (failing 0x409#32 (opsX 8)) { code := .invalidStage, src := none } :=
  .stage (fun _ => ⟨3, by decide⟩) (by decide) (by decide)
theorem witness_FirstError_stride :
    FirstError (.fftF .binary32) (failing 0xB#32 { opsX 8 with xStride := 0 }) { code := .invalidStride, src := some .xRe } :=
  .stride (fun _ => ⟨3, by decide⟩) (by decide) (by decide)
    { id := .xRe, kind := .elem, role := .readWrite, base := 0, stride := 0, count := 8 } ⟨[], _, rfl, by decide, by decide⟩
theorem witness_FirstError_align :
    FirstError (.fftF .binary32) (failing 0xB#32 { opsX 8 with xIm := 2 }) { code := .misaligned, src := some .xIm } :=
  .align (fun _ => ⟨3, by decide⟩) (by decide) (by decide) (by decide)
    { id := .xIm, kind := .elem, role := .readWrite, base := 2, stride := 1, count := 8 } ⟨[_], _, rfl, by decide, by decide⟩
theorem witness_FirstError_bounds :
    FirstError (.fftF .binary32) (failing 0xB#32 { opsX 8 with xRe := 0x3FFFF0 }) { code := .addrRange, src := some .xRe } :=
  .bounds (fun _ => ⟨3, by decide⟩) (by decide) (by decide) (by decide) (by decide)
    { id := .xRe, kind := .elem, role := .readWrite, base := 0x3FFFF0, stride := 1, count := 8 } ⟨[], _, rfl, by decide +kernel, by decide⟩
theorem witness_FirstError_overlap :
    FirstError (.fftF .binary32) (failing 0xB#32 { opsX 8 with xIm := 0x010 }) { code := .overlap, src := some .xRe } :=
  .overlap (fun _ => ⟨3, by decide⟩) (by decide) (by decide) (by decide) (by decide) (by decide +kernel) (.xRe, .xIm)
    ⟨[], _, rfl, by decide +kernel, by decide⟩
theorem witness_CommandFrame : (runningX 0x0000000B#32).srstPending = false ∧ ∀ P, Instr.fftF .binary32 ≠ .twbuild P ∧ Instr.fftF .binary32 ≠ .twfree P :=
  ⟨by decide, fun _ => ⟨nofun, nofun⟩⟩
/-- A state that meets the invariant and whose step answers a next state. -/
theorem witness_StepKeepsInv : State.Inv (runningX 0x0000000B#32) ∧ step (runningX 0x0000000B#32) = .next (after (runningX 0x0000000B#32)) :=
  ⟨⟨by decide, by decide +kernel, by decide +kernel, .inr ⟨2, by decide⟩, by decide, by decide, nofun⟩,
    (after_completion (.fftF .binary32) _ (by decide) (by decide)).1⟩
theorem witness_ResetAndStimuliKeepInv : Config.reference.wf = true ∧ State.Inv (running 0#32 (opsX 0) 0 []) :=
  ⟨by decide, by decide, by decide, by decide, .inl rfl, by decide, by decide, nofun⟩
/-- 1.0 and 2.0, whose sum is below the threshold, and the largest finite element twice, whose sum is not. -/
theorem witness_SumRoundsToNearest :
    finiteUnits .binary32 0x3F800000#32 = some (2 ^ 149) ∧ finiteUnits .binary32 0x40000000#32 = some (2 ^ 150) ∧
    ((2 ^ 149 : Int) + 2 ^ 150).natAbs < overflowUnits .binary32 ∧
    finiteUnits .binary32 0x7F7FFFFF#32 = some ((2 ^ 24 - 1) * 2 ^ 253) ∧
    overflowUnits .binary32 ≤ ((2 ^ 24 - 1) * 2 ^ 253 + (2 ^ 24 - 1) * 2 ^ 253 : Int).natAbs := by decide +kernel
/-- 1.0 times 2.0, and the largest finite element squared. -/
theorem witness_ProductRoundsToNearest :
    finiteUnits .binary32 0x3F800000#32 = some (2 ^ 149) ∧ finiteUnits .binary32 0x40000000#32 = some (2 ^ 150) ∧
    ((2 ^ 149 : Int) * 2 ^ 150).natAbs < overflowUnits .binary32 * 2 ^ unitPlaces .binary32 ∧
    finiteUnits .binary32 0x7F7FFFFF#32 = some ((2 ^ 24 - 1) * 2 ^ 253) ∧
    overflowUnits .binary32 * 2 ^ unitPlaces .binary32 ≤ ((2 ^ 24 - 1) * 2 ^ 253 * ((2 ^ 24 - 1) * 2 ^ 253) : Int).natAbs := by decide +kernel
theorem witness_NanResultsAreCanonical : isNaN .binary32 0x7F800001#32 = true ∧ isNaN .binary64 0xFFF8000000000000#64 = true := by decide
theorem witness_SignedZerosAndInfinities :
    finiteUnits .binary32 0xBF800000#32 = some (-(2 ^ 149)) ∧ isNaN .binary32 (fmul .binary32 0xBF800000#32 0xBF800000#32) = false := by decide +kernel
theorem witness_BitReversalIsInvolution : 6 < 2 ^ 4 ∧ (4 : Nat) = 3 + 1 ∧ 6 < 2 ^ 3 := by decide
/-- The enclosures of cos and sin of 2π/8 settle their roundings. -/
theorem witness_TwiddlesAreRoundedCosines :
    roundFixed .binary64 (cosEnclosure 1 3).1 = roundFixed .binary64 (cosEnclosure 1 3).2 ∧
    roundFixed .binary64 (cosEnclosure (4 * 1 + 3 * 2 ^ 3) (3 + 2)).1 = roundFixed .binary64 (cosEnclosure (4 * 1 + 3 * 2 ^ 3) (3 + 2)).2 := by
  decide +kernel
theorem witness_TwiddleTableSymmetries : 2 ≤ 3 ∧ 0 < 1 ∧ 1 < 2 ^ (3 - 2) := by decide
theorem witness_FftIsBitrevThenStages :
    Accepts (.fftF .binary32) (runningX 0x0000000B#32) ∧ Accepts (.fftI .binary32) (runningX 0x0000000C#32) ∧
      (runningX 0x0000000B#32).srstPending = false ∧ (runningX 0x0000000C#32).srstPending = false ∧ (runningX 0x0000000B#32).mem.wf ∧
      (runningX 0x0000000C#32).mem.wf ∧ (runningX 0x0000000B#32).latch.ops.n.toNat = 2 ^ 2 ∧ (runningX 0x0000000C#32).latch.ops.n.toNat = 2 ^ 2 :=
  ⟨accepts_intro _ _ (fun _ => ⟨2, by decide⟩) (by decide +kernel), accepts_intro _ _ (fun _ => ⟨2, by decide⟩) (by decide +kernel),
    by decide +kernel⟩
theorem witness_ExactFftIsDft : 3 ≤ 4 ∧ 7 < 2 ^ 3 := by decide
/-- A state for each clause: with an access at the port, with a command in flight, with a soft reset pending, and final. -/
theorem witness_ObservationIgnoresTiming :
    (waiting .read .w32 0 State.reset).port ≠ [] ∧ (runningX 0x0000000B#32).eng = .busy ∧
    State.srstPending { runningX 0x0000000B#32 with srstPending := true } = true ∧
    State.reset.port = [] ∧ State.reset.eng = .idle ∧ State.reset.srstPending = false := by decide
theorem witness_ExactRealFftIsPackedSpectrum : 1 ≤ 3 ∧ 0 < 3 ∧ 3 < 2 ^ (3 - 1) := by decide

end Sys2Proof.Tests
end

section
/-! SUPPORT. The invariant of the machine (State.Inv): what each operation of the port and of the engine does to it, and the step that keeps it. -/

namespace Sys2Proof.Machine

/-! ### Host accesses inside DMEM (20_memory R80, R97) -/

/-- DMEM holds a whole number of accesses of every width. -/
theorem Width.bytes_dvd_dmemBytes (w : Width) (c : Config) (hc : c.wf = true) : w.bytes ∣ c.dmemBytes := by
  have h12 : 12 ≤ c.log2DmemBytes := by
    simp only [Config.wf, Bool.and_eq_true, decide_eq_true_eq] at hc
    omega
  have h8 : w.bytes ∣ 2 ^ 12 := by cases w <;> decide
  exact h8.trans (pow_dvd_pow 2 h12)

/-- A DMEM access falls below the size of DMEM. -/
theorem Access.lt_dmemBytes_of_target (a : Access) (c : Config) (d : Nat) (h : a.target c = .dmem d) : d < c.dmemBytes := by
  simp only [Access.target] at h
  split at h
  · cases h
  · split at h
    · obtain rfl := Target.dmem.inj h
      omega
    · cases h

/-- Every byte of a naturally aligned DMEM access lies in DMEM. -/
theorem Access.aligned_inside (a : Access) (c : Config) (hc : c.wf = true) (d : Nat) (h : a.target c = .dmem d)
    (ha : d % a.width.bytes = 0) : d + a.width.bytes ≤ c.dmemBytes := by
  have hd : a.width.bytes ∣ c.dmemBytes - d := Nat.dvd_sub (a.width.bytes_dvd_dmemBytes c hc) (Nat.dvd_of_mod_eq_zero ha)
  have hlt := a.lt_dmemBytes_of_target c d h
  have := Nat.le_of_dvd (by omega) hd
  omega

/-! ### Resets and completions -/

/-- A reset leaves a state of the invariant whenever DMEM is in its form: the registers come out at their reset values. -/
theorem State.Inv.softReset {s : State} (h : s.Inv) : s.softReset.Inv where
  config := h.config
  memSorted := h.memSorted
  memInside := h.memInside
  table := .inl rfl
  pending _ := rfl
  source := rfl
  held _ := rfl

/-- A completion keeps the invariant when the error it reports, if any, names a region for the codes 5 to 8 only. -/
theorem State.Inv.complete {s : State} (h : s.Inv) (hp : s.resetPin = false) (e : Option CmdError)
    (he : ∀ x ∈ e, x.src.isSome = x.code.hasRegion) : (s.complete e).Inv := by
  cases hs : s.srstPending with
  | true =>
    rw [complete_pending e s hs]
    exact h.softReset
  | false =>
    cases e with
    | none =>
      rw [complete_none s hs]
      exact { h with pending := fun _ => hs, source := rfl, held := by simp [hp] }
    | some e =>
      rw [complete_some e s hs]
      exact { h with pending := fun _ => hs, source := he e rfl, held := by simp [hp] }

/-! ### Commands -/

/-- A command that passes its checks leaves TW_N zero or a valid size (10_state R52): TWBUILD has checked the size it sets. -/
theorem effect_table (i : Instr) (s : State) (hc : commandError i s = none) (h : s.twN = 0 ∨ SizeOk s.config s.twN.toNat) :
    (effect i s).2 = 0 ∨ SizeOk s.config (effect i s).2.toNat := by
  cases i with
  | twbuild P =>
    refine .inr ?_
    have hs : SizePasses (.twbuild P) s := by
      by_contra hn
      have := (sizeError_eq (.twbuild P) s).2 hn
      rw [((commandError_eq_none _ s).mp hc).1] at this
      cases this
    exact hs rfl
  | twfree P => exact .inl rfl
  | _ => exact h

/-- The effect of a command that passes its checks, before the completion bookkeeping, keeps the invariant. -/
theorem State.Inv.effect {s : State} (h : s.Inv) (hp : s.resetPin = false) (i : Instr) (hc : commandError i s = none) :
    ({ s with mem := (effect i s).1, twN := (effect i s).2 } : State).Inv :=
  { h with
    memSorted := effect_wf i s h.memSorted
    memInside := effect_below i s hc h.memInside
    table := effect_table i s hc h.table
    held := by simp [hp] }

/-- The completion step of a command keeps the invariant. -/
theorem State.Inv.exec {s t : State} (h : s.Inv) (hp : s.resetPin = false) (i : Instr) (ht : exec i s = .next t) : t.Inv := by
  rcases exec_cases i s with ⟨e, he, hx⟩ | ⟨hc, hx⟩ <;> rw [hx] at ht <;> cases ht
  · exact h.complete hp _ fun x hxe => by
      cases hxe
      exact (commandError_code i s e he).2
  · exact (h.effect hp i hc).complete hp none nofun

/-! ### The port -/

/-- A response changes nothing the invariant speaks of. -/
theorem State.Inv.respond {s : State} (h : s.Inv) (hp : s.resetPin = false) (r : Response) : (s.respond r).Inv :=
  { h with held := by simp [hp] }

/-- A CTRL write asks for a soft reset only while BUSY (10_state R35). -/
theorem State.Inv.writeCtrl {s : State} (h : s.Inv) (hp : s.resetPin = false) (v : Word) : (s.writeCtrl v).Inv := by
  unfold State.writeCtrl
  split
  · split
    · exact h.softReset
    · rename_i he
      exact { h with pending := fun hi => (by simp [he] at hi), held := by simp [hp] }
  · exact { h with held := by simp [hp] }

/-- A CMD write is accepted, with the engine BUSY, or sets OVR. -/
theorem State.Inv.writeCmd {s : State} (h : s.Inv) (hp : s.resetPin = false) (w : Word) : (s.writeCmd w).Inv := by
  unfold State.writeCmd
  split
  · exact { h with pending := nofun, held := by simp [hp] }
  · exact { h with held := by simp [hp] }

/-- A register write keeps the invariant: only CTRL and CMD touch what it speaks of. -/
theorem State.Inv.writeReg {s : State} (h : s.Inv) (hp : s.resetPin = false) (r : Reg) (v : Word) : (s.writeReg r v).Inv := by
  cases r with
  | id | version | cap | errcode | twN => exact h
  | ctrl => exact h.writeCtrl hp v
  | cmd => exact h.writeCmd hp v
  | _ => exact { h with held := by simp [hp, State.writeReg] }

theorem writeCtrl_resetPin (v : Word) (s : State) : (s.writeCtrl v).resetPin = s.resetPin := by
  unfold State.writeCtrl
  split
  · split <;> rfl
  · rfl

theorem writeCmd_resetPin (w : Word) (s : State) : (s.writeCmd w).resetPin = s.resetPin := by
  unfold State.writeCmd
  split <;> rfl

/-- No register write moves the reset input. -/
theorem writeReg_resetPin (r : Reg) (v : Word) (s : State) : (s.writeReg r v).resetPin = s.resetPin := by
  cases r with
  | ctrl => exact writeCtrl_resetPin v s
  | cmd => exact writeCmd_resetPin v s
  | _ => rfl

/-- A register-window access keeps the invariant (20_memory R96). -/
theorem State.Inv.accessRegister {s : State} (h : s.Inv) (hp : s.resetPin = false) (a : Access) (o : Nat) :
    (s.accessRegister a o).Inv := by
  unfold State.accessRegister
  split
  · split
    · exact h.respond hp _
    · unfold State.writeWord
      split
      · exact (h.writeReg hp _ _).respond (by rw [writeReg_resetPin, hp]) _
      · exact h.respond hp _
  · exact h.respond hp _

/-- A DMEM access keeps the invariant: what it writes is aligned, so it lies in DMEM (R97). -/
theorem State.Inv.accessDmem {s : State} (h : s.Inv) (hp : s.resetPin = false) (a : Access) (d : Nat)
    (hd : a.target s.config = .dmem d) : (s.accessDmem a d).Inv := by
  unfold State.accessDmem
  split
  · rename_i ha
    split
    · exact { h with held := by simp [hp] }
    · exact { h with
        memSorted := Memory.writeLE_wf _ _ h.memSorted _ _
        memInside := Memory.writeLE_below _ _ _ h.memInside _ _ (a.aligned_inside s.config h.config d hd ha)
        held := by simp [hp] }
  · exact h.respond hp _

/-- A host access keeps the invariant. -/
theorem State.Inv.access {s : State} (h : s.Inv) (hp : s.resetPin = false) (a : Access) : (s.access a).Inv := by
  unfold State.access
  split
  · exact h.accessRegister hp a _
  · exact h.accessDmem hp a _ ‹_›
  · exact h.respond hp _

/-- A step of the port keeps the invariant. -/
theorem State.Inv.portStep {s t : State} (h : s.Inv) (hp : s.resetPin = false) (a : Access) (rest : List Access)
    (ht : portStep a rest s = .next t) : t.Inv := by
  cases ht
  have h' : ({ s with port := rest, delay := s.delay - 1 } : State).Inv := { h with held := by simp [hp] }
  exact h'.access hp a

/-- Settles O47, by what a step can answer: a reset step changes nothing in a state whose registers are held at their reset values, and every
other step is a completion or a port access with the reset input released. -/
theorem stepKeepsInv : Obligations.StepKeepsInv := by
  intro s t h ht
  rcases step_cases s with ⟨_, hs⟩ | ⟨hp, hs⟩ | ⟨_, _, _, hs⟩ | ⟨hp, _, i, _, hs⟩ | ⟨hp, _, e, _, hs⟩ | ⟨hp, a, rest, _, hs⟩ <;>
    rw [hs] at ht
  · cases ht
  · cases ht
    rwa [hardReset_of_reset s (h.held hp)]
  · cases ht
    exact h
  · exact h.exec hp i ht
  · cases ht
    exact h.complete hp _ fun x hx => by cases hx; rfl
  · exact h.portStep hp a rest ht

end Sys2Proof.Machine
end

section
/-! SUPPORT. Rounding to nearest, ties to even (00_scope R16, 40_datapath R150): the whole number a shift rounds to, the element a number of units
rounds to, and that no element is nearer. -/

namespace Sys2Proof.Machine

/-! ### Rounding a shift -/

/-- roundShift is within half a place of the exact quotient, and even where it is half a place away: this fixes it. -/
theorem roundShift_half (n d : Nat) :
    2 * (roundShift n d * 2 ^ d) ≤ 2 * n + 2 ^ d ∧ 2 * n ≤ 2 * (roundShift n d * 2 ^ d) + 2 ^ d ∧
      (2 * (roundShift n d * 2 ^ d) = 2 * n + 2 ^ d ∨ 2 * n = 2 * (roundShift n d * 2 ^ d) + 2 ^ d →
        roundShift n d % 2 = 0) := by
  have hn := Nat.div_add_mod' n (2 ^ d)
  have hr : n % 2 ^ d < 2 ^ d := Nat.mod_lt _ (by positivity)
  unfold roundShift
  split
  · rw [Nat.add_mul, Nat.one_mul]
    refine ⟨by omega, by omega, fun _ => ?_⟩
    omega
  · refine ⟨by omega, by omega, fun _ => ?_⟩
    omega

/-- A bound on the exact quotient bounds the rounded one. -/
theorem roundShift_le (n d b : Nat) (h : n ≤ b * 2 ^ d) : roundShift n d ≤ b := by
  obtain ⟨h1, _, _⟩ := roundShift_half n d
  have hd : 0 < 2 ^ d := by positivity
  by_contra hb
  have := Nat.mul_le_mul_right (2 ^ d) (show b + 1 ≤ roundShift n d by omega)
  rw [Nat.add_mul] at this
  omega

theorem le_roundShift (n d b : Nat) (h : b * 2 ^ d ≤ n) : b ≤ roundShift n d := by
  obtain ⟨_, h2, _⟩ := roundShift_half n d
  have hd : 0 < 2 ^ d := by positivity
  by_contra hb
  have := Nat.mul_le_mul_right (2 ^ d) (show roundShift n d + 1 ≤ b by omega)
  rw [Nat.add_mul] at this
  omega

/-- The exact quotient rounds below an even b exactly when it lies below b − 1/2, since the tie there goes up to b. -/
theorem roundShift_lt_iff (n d b : Nat) (hb : b % 2 = 0) : roundShift n d < b ↔ 2 * n + 2 ^ d < 2 * (b * 2 ^ d) := by
  obtain ⟨h1, h2, h3⟩ := roundShift_half n d
  have hd : 0 < 2 ^ d := by positivity
  constructor
  · intro h
    rcases Nat.lt_or_ge (roundShift n d + 1) b with hlt | hge
    · have := Nat.mul_le_mul_right (2 ^ d) (show roundShift n d + 2 ≤ b by omega)
      rw [Nat.add_mul] at this
      omega
    · obtain rfl : b = roundShift n d + 1 := by omega
      rw [Nat.add_mul]
      omega
  · intro h
    by_contra hn
    have := Nat.mul_le_mul_right (2 ^ d) (show b ≤ roundShift n d by omega)
    omega

/-- No other whole number of places is nearer, and where one is as near the rounded number is even. -/
theorem roundShift_nearest (n d : Nat) (z : Int) :
    (roundShift n d * 2 ^ d - n : Int).natAbs ≤ (z * 2 ^ d - n).natAbs ∧
      ((roundShift n d * 2 ^ d - n : Int).natAbs = (z * 2 ^ d - n).natAbs → z ≠ roundShift n d → roundShift n d % 2 = 0) := by
  obtain ⟨h1, h2, h3⟩ := roundShift_half n d
  have hcast : ((roundShift n d * 2 ^ d : Nat) : Int) = roundShift n d * 2 ^ d := by push_cast; rfl
  have hpow : ((2 ^ d : Nat) : Int) = 2 ^ d := by push_cast; rfl
  rcases lt_trichotomy z (roundShift n d) with h | rfl | h
  · have := mul_le_mul_of_nonneg_right (show z + 1 ≤ roundShift n d by omega) (show (0 : Int) ≤ 2 ^ d by positivity)
    rw [add_mul, one_mul] at this
    omega
  · exact ⟨le_rfl, fun _ hz => absurd rfl hz⟩
  · have := mul_le_mul_of_nonneg_right (show (roundShift n d : Int) + 1 ≤ z by omega) (show (0 : Int) ≤ 2 ^ d by positivity)
    rw [add_mul, one_mul] at this
    omega

/-! ### The kept bits of n / 2^scale units -/

/-- How many places above one unit the last kept bit of n / 2^scale units stands. -/
def lastPlace (P : Prec) (n scale : Nat) : Nat := n.log2 - (fracBits P + scale)

/-- The kept bits of n / 2^scale units, rounded: fracBits + 1 of them, or fewer for a subnormal. -/
def keptBits (P : Prec) (n scale : Nat) : Nat := roundShift n (scale + lastPlace P n scale)

theorem roundMag_eq (P : Prec) (n scale : Nat) :
    roundMag P n scale = min (lastPlace P n scale * 2 ^ fracBits P + keptBits P n scale) (infBits P) := rfl

theorem lt_of_lastPlace (P : Prec) (n scale : Nat) : n < 2 * 2 ^ fracBits P * 2 ^ (scale + lastPlace P n scale) := by
  rw [← pow_succ', ← pow_add]
  refine lt_of_lt_of_le Nat.lt_log2_self (Nat.pow_le_pow_right (by decide) ?_)
  unfold lastPlace
  omega

theorem le_of_lastPlace_pos (P : Prec) (n scale : Nat) (h : 0 < lastPlace P n scale) :
    2 ^ fracBits P * 2 ^ (scale + lastPlace P n scale) ≤ n := by
  have hn : n ≠ 0 := by
    rintro rfl
    simp [lastPlace] at h
  rw [← pow_add, ← Nat.le_log2 hn]
  unfold lastPlace at h ⊢
  omega

/-- The rounding may carry out of the significand, and no further. -/
theorem keptBits_le (P : Prec) (n scale : Nat) : keptBits P n scale ≤ 2 * 2 ^ fracBits P :=
  roundShift_le _ _ _ (lt_of_lastPlace P n scale).le

/-- Above the subnormals the leading bit is kept. -/
theorem le_keptBits (P : Prec) (n scale : Nat) (h : 0 < lastPlace P n scale) : 2 ^ fracBits P ≤ keptBits P n scale :=
  le_roundShift _ _ _ (le_of_lastPlace_pos P n scale h)

/-- The magnitude bits of infinity and the overflow threshold, by the last place E of the largest finite elements. -/
theorem overflow_lastPlace (P : Prec) :
    ∃ E, infBits P = (E + 2) * 2 ^ fracBits P ∧ 2 * overflowUnits P + 2 ^ E = 4 * 2 ^ fracBits P * 2 ^ E := by
  have h : 4 ≤ 2 ^ expBits P := by cases P <;> decide
  have hE : 2 ^ expBits P - 3 = (2 ^ expBits P - 4) + 1 := by omega
  refine ⟨2 ^ expBits P - 3, by rw [infBits]; congr 1; omega, ?_⟩
  have hf : 2 ^ (fracBits P + 2) - 1 + 1 = 4 * 2 ^ fracBits P := by
    rw [Nat.sub_add_cancel Nat.one_le_two_pow, pow_add]
    ring
  rw [overflowUnits, ← hf, hE, pow_succ]
  ring

/-- The rounded magnitude stays below infinity exactly below the overflow threshold. -/
theorem magnitude_lt_infBits_iff (P : Prec) (n scale : Nat) :
    lastPlace P n scale * 2 ^ fracBits P + keptBits P n scale < infBits P ↔ n < overflowUnits P * 2 ^ scale := by
  obtain ⟨E, hinf, hov⟩ := overflow_lastPlace P
  have hov' : 2 * (overflowUnits P * 2 ^ scale) + 2 ^ (scale + E) = 2 * (2 * 2 ^ fracBits P * 2 ^ (scale + E)) := by
    rw [pow_add]
    calc 2 * (overflowUnits P * 2 ^ scale) + 2 ^ scale * 2 ^ E = (2 * overflowUnits P + 2 ^ E) * 2 ^ scale := by ring
      _ = 2 * (2 * 2 ^ fracBits P * (2 ^ scale * 2 ^ E)) := by rw [hov]; ring
  have hlt := lt_of_lastPlace P n scale
  have hle := keptBits_le P n scale
  have hF : 0 < 2 ^ fracBits P := by positivity
  have hD : 0 < 2 ^ (scale + E) := by positivity
  have hFD := Nat.le_mul_of_pos_left (2 ^ (scale + E)) hF
  rw [Nat.mul_assoc] at hov' hlt
  rw [hinf, Nat.add_mul]
  rcases lt_trichotomy (lastPlace P n scale) E with h | h | h
  · have h1 := Nat.mul_le_mul_right (2 ^ fracBits P) (show lastPlace P n scale + 1 ≤ E from h)
    have h2 : 2 ^ (scale + lastPlace P n scale) * 2 ≤ 2 ^ (scale + E) := by
      rw [← pow_succ]
      exact Nat.pow_le_pow_right (by decide) (by omega)
    have h3 := Nat.mul_le_mul_left (2 ^ fracBits P) h2
    rw [← Nat.mul_assoc] at h3
    rw [Nat.add_mul] at h1
    omega
  · have key := roundShift_lt_iff n (scale + lastPlace P n scale) (2 * 2 ^ fracBits P) (by omega)
    change keptBits P n scale < _ ↔ _ at key
    rw [h, Nat.mul_assoc] at key
    rw [h]
    omega
  · have h0 := le_keptBits P n scale (by omega)
    have hn := le_of_lastPlace_pos P n scale (by omega)
    have h1 := Nat.mul_le_mul_right (2 ^ fracBits P) (show E + 1 ≤ lastPlace P n scale from h)
    have h2 : 2 ^ (scale + E) * 2 ≤ 2 ^ (scale + lastPlace P n scale) := by
      rw [← pow_succ]
      exact Nat.pow_le_pow_right (by decide) (by omega)
    have h3 := Nat.mul_le_mul_left (2 ^ fracBits P) h2
    rw [← Nat.mul_assoc] at h3
    rw [Nat.add_mul] at h1
    omega

/-! ### The fields of an element (20_memory R82) -/

theorem infBits_lt (P : Prec) : infBits P < 2 ^ (P.bits - 1) := by cases P <;> decide

theorem withSign_toNat (P : Prec) (neg : Bool) (mag : Nat) (h : mag < 2 ^ (P.bits - 1)) :
    (withSign P neg mag).toNat = (if neg then 2 ^ (P.bits - 1) else 0) + mag := by
  have hbits : 2 ^ P.bits = 2 * 2 ^ (P.bits - 1) := by cases P <;> rfl
  rw [withSign, BitVec.toNat_ofNat]
  refine Nat.mod_eq_of_lt ?_
  split <;> omega

theorem expField_withSign (P : Prec) (neg : Bool) (mag : Nat) (h : mag < 2 ^ (P.bits - 1)) :
    expField P (withSign P neg mag) = mag / 2 ^ fracBits P := by
  rw [expField, withSign_toNat P neg mag h]
  cases P <;> cases neg <;> simp [fracBits, expBits] at h ⊢ <;> omega

theorem fracField_withSign (P : Prec) (neg : Bool) (mag : Nat) (h : mag < 2 ^ (P.bits - 1)) :
    fracField P (withSign P neg mag) = mag % 2 ^ fracBits P := by
  rw [fracField, withSign_toNat P neg mag h]
  cases P <;> cases neg <;> simp [fracBits] at h ⊢ <;> omega

theorem msb_withSign (P : Prec) (neg : Bool) (mag : Nat) (h : mag < 2 ^ (P.bits - 1)) : (withSign P neg mag).msb = neg := by
  rw [BitVec.msb_eq_decide, withSign_toNat P neg mag h]
  cases P <;> cases neg <;> simp at h ⊢ <;> omega

/-- The value of magnitude bits below infinity, by the exponent field and the fraction in them. -/
theorem unpack_withSign (P : Prec) (neg : Bool) (mag : Nat) (h : mag < infBits P) :
    unpack P (withSign P neg mag) = .finite neg
      (if mag / 2 ^ fracBits P = 0 then mag % 2 ^ fracBits P
       else (2 ^ fracBits P + mag % 2 ^ fracBits P) * 2 ^ (mag / 2 ^ fracBits P - 1)) := by
  have hb := h.trans (infBits_lt P)
  have he : mag / 2 ^ fracBits P ≠ 2 ^ expBits P - 1 := (Nat.div_lt_of_lt_mul (by rwa [Nat.mul_comm])).ne
  rw [unpack, expField_withSign P neg mag hb, fracField_withSign P neg mag hb, msb_withSign P neg mag hb, if_neg he]
  split <;> rfl

/-- The element whose last place stands k units' places up and whose kept bits are q stands for q·2^k units, also when the rounding carried
out of the significand (q = 2^(fracBits + 1)). -/
theorem unpack_kept (P : Prec) (neg : Bool) (k q : Nat) (hq : q ≤ 2 * 2 ^ fracBits P) (hk : 0 < k → 2 ^ fracBits P ≤ q)
    (h : k * 2 ^ fracBits P + q < infBits P) :
    unpack P (withSign P neg (k * 2 ^ fracBits P + q)) = .finite neg (q * 2 ^ k) := by
  have hF : 0 < 2 ^ fracBits P := by positivity
  rw [unpack_withSign P neg _ h, Nat.mul_add_mod', Nat.add_comm (k * _), Nat.add_mul_div_right _ _ hF]
  congr 1
  rcases Nat.lt_or_ge q (2 ^ fracBits P) with h1 | h1
  · obtain rfl : k = 0 := by omega
    simp [Nat.div_eq_of_lt h1, Nat.mod_eq_of_lt h1]
  · rcases hq.lt_or_eq with h2 | rfl
    · have hdiv : q / 2 ^ fracBits P = 1 := Nat.div_eq_of_lt_le (by omega) (by omega)
      have hmod : 2 ^ fracBits P + q % 2 ^ fracBits P = q := by
        have := Nat.div_add_mod q (2 ^ fracBits P)
        rw [hdiv] at this
        omega
      simp [hdiv, hmod]
    · rw [Nat.mul_div_cancel _ hF, Nat.mul_mod_left, if_neg (by omega), show 2 + k - 1 = k + 1 by omega, pow_succ]
      ring

theorem finiteUnits_eq_some_iff (P : Prec) (x : Elem P) (u : Int) :
    finiteUnits P x = some u ↔ ∃ neg m, unpack P x = .finite neg m ∧ signed neg m = u := by
  unfold finiteUnits
  split <;> rename_i h <;> simp [h]

theorem natAbs_signed (neg : Bool) (m : Nat) : (signed neg m).natAbs = m := by cases neg <;> simp [signed]

/-- A finite element is a multiple of 2^k units or lies below the elements whose last place is 2^k. -/
theorem unpack_granular (P : Prec) (y : Elem P) (neg : Bool) (m : Nat) (h : unpack P y = .finite neg m) (k : Nat) :
    2 ^ k ∣ m ∨ m < 2 ^ (fracBits P + k) := by
  have hf : fracField P y < 2 ^ fracBits P := Nat.mod_lt _ (by positivity)
  unfold unpack at h
  split at h
  · split at h <;> cases h
  · split at h <;> cases h
    · exact .inr (hf.trans_le (Nat.pow_le_pow_right (by decide) (by omega)))
    · rcases Nat.lt_or_ge (expField P y - 1) k with hk | hk
      · refine .inr ?_
        calc (2 ^ fracBits P + fracField P y) * 2 ^ (expField P y - 1)
            < 2 ^ (fracBits P + 1) * 2 ^ (expField P y - 1) :=
              Nat.mul_lt_mul_of_pos_right (by rw [pow_succ]; omega) (by positivity)
          _ = 2 ^ (fracBits P + 1 + (expField P y - 1)) := (pow_add _ _ _).symm
          _ ≤ 2 ^ (fracBits P + k) := Nat.pow_le_pow_right (by decide) (by omega)
      · exact .inl (Dvd.dvd.mul_left (pow_dvd_pow 2 hk) _)

/-- The same of the signed number of units. -/
theorem units_granular (P : Prec) (y : Elem P) (v : Int) (h : finiteUnits P y = some v) (k : Nat) :
    (2 : Int) ^ k ∣ v ∨ v.natAbs < 2 ^ (fracBits P + k) := by
  obtain ⟨neg, m, hm, rfl⟩ := (finiteUnits_eq_some_iff P y v).mp h
  rw [← Int.natAbs_dvd_natAbs, Int.natAbs_pow, natAbs_signed]
  exact unpack_granular P y neg m hm k

/-! ### roundPack rounds to nearest -/

section
variable (P : Prec) (neg : Bool) (n scale : Nat)

/-- At or above the threshold the result is infinite. -/
theorem roundPack_of_overflow (h : overflowUnits P * 2 ^ scale ≤ n) : roundPack P neg n scale = infinity P neg := by
  have := (magnitude_lt_infBits_iff P n scale).not.mpr (by omega)
  rw [roundPack, roundMag_eq, min_eq_right (by omega), infinity]

theorem roundMag_of_lt (h : n < overflowUnits P * 2 ^ scale) :
    roundMag P n scale = lastPlace P n scale * 2 ^ fracBits P + keptBits P n scale := by
  rw [roundMag_eq, min_eq_left ((magnitude_lt_infBits_iff P n scale).mpr h).le]

/-- Below the threshold the result is the kept bits, at their place. -/
theorem finiteUnits_roundPack (h : n < overflowUnits P * 2 ^ scale) :
    finiteUnits P (roundPack P neg n scale) = some (signed neg (keptBits P n scale * 2 ^ lastPlace P n scale)) := by
  rw [finiteUnits, roundPack, roundMag_of_lt P n scale h, unpack_kept P neg _ _ (keptBits_le P n scale) (le_keptBits P n scale)
    ((magnitude_lt_infBits_iff P n scale).mpr h)]

/-- The last bit of the result is the last kept bit. -/
theorem roundPack_even (h : n < overflowUnits P * 2 ^ scale) (he : keptBits P n scale % 2 = 0) :
    (roundPack P neg n scale).toNat % 2 = 0 := by
  have hlt := (magnitude_lt_infBits_iff P n scale).mpr h
  rw [roundPack, roundMag_of_lt P n scale h, withSign_toNat P neg _ (hlt.trans (infBits_lt P))]
  cases P <;> cases neg <;> simp [fracBits] <;> omega

/-- No finite element is nearer to n / 2^scale units than the kept bits at their place, and where another is as near the last kept bit is 0. -/
theorem keptBits_nearest (v : Int)
    (hv : (2 : Int) ^ lastPlace P n scale ∣ v ∨ v.natAbs < 2 ^ (fracBits P + lastPlace P n scale)) :
    ((keptBits P n scale * 2 ^ lastPlace P n scale : Nat) * 2 ^ scale - n : Int).natAbs ≤ (v * 2 ^ scale - n).natAbs ∧
      (((keptBits P n scale * 2 ^ lastPlace P n scale : Nat) * 2 ^ scale - n : Int).natAbs = (v * 2 ^ scale - n).natAbs →
        v ≠ (keptBits P n scale * 2 ^ lastPlace P n scale : Nat) → keptBits P n scale % 2 = 0) := by
  have place : ∀ z : Int, z * 2 ^ lastPlace P n scale * 2 ^ scale = z * 2 ^ (scale + lastPlace P n scale) := by
    intro z
    rw [pow_add]
    ring
  have near := roundShift_nearest n (scale + lastPlace P n scale)
  push_cast
  rw [place]
  by_cases hd : (2 : Int) ^ lastPlace P n scale ∣ v
  · obtain ⟨z, rfl⟩ := hd
    rw [mul_comm _ z, place]
    exact ⟨(near z).1, fun he hz => (near z).2 he fun h => hz (by rw [h]; rfl)⟩
  · have hlt := hv.resolve_left hd
    have hpos : 0 < lastPlace P n scale := by
      by_contra h0
      exact hd (by simp [show lastPlace P n scale = 0 by omega])
    have hn := le_of_lastPlace_pos P n scale hpos
    have hb := (near (2 ^ fracBits P)).1
    have hv1 : v < 2 ^ (fracBits P + lastPlace P n scale) := by
      have : ((2 ^ (fracBits P + lastPlace P n scale) : Nat) : Int) = 2 ^ (fracBits P + lastPlace P n scale) := by push_cast; rfl
      omega
    have hv2 : v * 2 ^ scale < 2 ^ fracBits P * 2 ^ (scale + lastPlace P n scale) := by
      rw [← place, ← pow_add]
      exact mul_lt_mul_of_pos_right hv1 (by positivity)
    have hn' : (2 : Int) ^ fracBits P * 2 ^ (scale + lastPlace P n scale) ≤ n := by exact_mod_cast hn
    change (keptBits P n scale * _ - _ : Int).natAbs ≤ _ at hb
    omega

end

/-- The distance from w units to N / 2^scale units, counted in 1 / 2^scale units. -/
theorem abs_sub_scaled (w N : Int) (scale : Nat) :
    |(w : ℝ) - (N : ℝ) / 2 ^ scale| = ((w * 2 ^ scale - N).natAbs : ℝ) / 2 ^ scale := by
  have hs : (0 : ℝ) < 2 ^ scale := by positivity
  rw [Nat.cast_natAbs, Int.cast_abs, ← abs_of_pos hs, ← abs_div, abs_of_pos hs]
  congr 1
  push_cast
  field_simp

/-- roundPack gives the nearest finite element, ties to even, below the overflow threshold. -/
theorem isNearest_roundPack (P : Prec) (neg : Bool) (n scale : Nat) (h : n < overflowUnits P * 2 ^ scale) :
    IsNearest P ((signed neg n : ℝ) / 2 ^ scale) (roundPack P neg n scale) := by
  refine ⟨_, finiteUnits_roundPack P neg n scale h, fun y v hy => ?_⟩
  have hs : (0 : ℝ) < 2 ^ scale := by positivity
  rw [abs_sub_scaled, abs_sub_scaled, div_le_div_iff_of_pos_right hs, div_left_inj' hs.ne', Nat.cast_le, Nat.cast_inj]
  have hg := units_granular P y v hy (lastPlace P n scale)
  cases neg with
  | false =>
    obtain ⟨h1, h2⟩ := keptBits_nearest P n scale v hg
    exact ⟨h1, fun he hne => roundPack_even P false n scale h (h2 he hne)⟩
  | true =>
    obtain ⟨h1, h2⟩ := keptBits_nearest P n scale (-v) (by rwa [dvd_neg, Int.natAbs_neg])
    have flip : ∀ w : Int, (w * 2 ^ scale - signed true n).natAbs = (-w * 2 ^ scale - n).natAbs := by
      intro w
      rw [← Int.natAbs_neg]
      congr 1
      simp only [signed, if_true]
      ring
    rw [flip, flip]
    simp only [signed, if_true, neg_neg]
    exact ⟨h1, fun he hne => roundPack_even P true n scale h (h2 he fun hv => hne (by simp [← hv]))⟩

end Sys2Proof.Machine
end

section
/-! SUPPORT. The arithmetic of the unit is exact arithmetic rounded once (00_scope R16, 40_datapath R150): sums, differences and products of finite
elements. -/

namespace Sys2Proof.Machine

/-! ### Finite elements and their signs -/

theorem signed_natAbs (w : Int) : signed (decide (w < 0)) w.natAbs = w := by
  unfold signed
  split <;> rename_i h <;> rw [decide_eq_true_eq] at h <;> omega

theorem signed_mul (s t : Bool) (m n : Nat) : signed (s ^^ t) (m * n) = signed s m * signed t n := by
  cases s <;> cases t <;> simp [signed]

/-- A number that is not 0 has one sign. -/
theorem neg_eq_of_signed (neg : Bool) (w : Int) (h : signed neg w.natAbs = w) (hw : w ≠ 0) : neg = decide (w < 0) := by
  cases neg with
  | false =>
    have h' : (w.natAbs : Int) = w := h
    exact (decide_eq_false (by omega)).symm
  | true =>
    have h' : -(w.natAbs : Int) = w := h
    exact (decide_eq_true (by omega)).symm

/-! ### Negation flips the sign bit alone -/

theorem fneg_toNat_mod (P : Prec) (x : Elem P) : (fneg P x).toNat % 2 ^ (P.bits - 1) = x.toNat % 2 ^ (P.bits - 1) := by
  have h : (BitVec.ofNat P.bits (2 ^ (P.bits - 1))).toNat % 2 ^ (P.bits - 1) = 0 := by cases P <;> decide
  rw [fneg, BitVec.toNat_xor, Nat.xor_mod_two_pow, h, Nat.xor_zero]

theorem expField_fneg (P : Prec) (x : Elem P) : expField P (fneg P x) = expField P x := by
  have h := fneg_toNat_mod P x
  cases P <;> simp [expField, fracBits, expBits] at h ⊢ <;> omega

theorem fracField_fneg (P : Prec) (x : Elem P) : fracField P (fneg P x) = fracField P x := by
  have h := fneg_toNat_mod P x
  cases P <;> simp [fracField, fracBits] at h ⊢ <;> omega

theorem msb_fneg (P : Prec) (x : Elem P) : (fneg P x).msb = !x.msb := by
  have h : (BitVec.ofNat P.bits (2 ^ (P.bits - 1))).msb = true := by cases P <;> decide
  rw [fneg, BitVec.msb_xor, h, Bool.xor_true]

theorem unpack_fneg_of_finite (P : Prec) (x : Elem P) (neg : Bool) (m : Nat) (h : unpack P x = .finite neg m) :
    unpack P (fneg P x) = .finite (!neg) m := by
  unfold unpack at h ⊢
  rw [expField_fneg, fracField_fneg, msb_fneg]
  split at h
  · split at h <;> cases h
  · rename_i h1
    rw [if_neg h1]
    split at h <;> rename_i h2 <;> cases h
    · rw [if_pos h2]
    · rw [if_neg h2]

theorem finiteUnits_fneg (P : Prec) (x : Elem P) (u : Int) (h : finiteUnits P x = some u) :
    finiteUnits P (fneg P x) = some (-u) := by
  obtain ⟨neg, m, hx, rfl⟩ := (finiteUnits_eq_some_iff P x u).mp h
  refine (finiteUnits_eq_some_iff P _ _).mpr ⟨_, m, unpack_fneg_of_finite P x neg m hx, ?_⟩
  cases neg <;> simp [signed]

/-! ### Each operation rounds its exact result once -/

/-- roundPack of w / 2^scale units, with the sign of w, is that number rounded: the nearest element below the overflow threshold, and infinity of
its sign from the threshold on. -/
theorem roundPack_rounds (P : Prec) (neg : Bool) (w : Int) (scale : Nat) (h : signed neg w.natAbs = w) :
    (w.natAbs < overflowUnits P * 2 ^ scale → IsNearest P ((w : ℝ) / 2 ^ scale) (roundPack P neg w.natAbs scale)) ∧
      (overflowUnits P * 2 ^ scale ≤ w.natAbs → roundPack P neg w.natAbs scale = infinity P (decide (w < 0))) := by
  constructor
  · intro hw
    have := isNearest_roundPack P neg w.natAbs scale hw
    rwa [h] at this
  · intro hw
    have hov : 0 < overflowUnits P * 2 ^ scale := by
      have : 1 < 2 ^ (fracBits P + 2) := Nat.one_lt_two_pow (by omega)
      exact Nat.mul_pos (Nat.mul_pos (by omega) (by positivity)) (by positivity)
    rw [← neg_eq_of_signed neg w h (by omega)]
    exact roundPack_of_overflow P neg w.natAbs scale hw

/-- A zero is the rounding of no units, whatever its sign. -/
theorem zero_eq_roundPack (P : Prec) (neg : Bool) : zero P neg = roundPack P neg 0 0 := by
  cases P <;> rfl

theorem fadd_eq_roundPack (P : Prec) (a b : Elem P) (u v : Int) (ha : finiteUnits P a = some u) (hb : finiteUnits P b = some v) :
    ∃ neg, fadd P a b = roundPack P neg (u + v).natAbs 0 ∧ signed neg (u + v).natAbs = u + v := by
  obtain ⟨s, m, hs, rfl⟩ := (finiteUnits_eq_some_iff P a u).mp ha
  obtain ⟨t, n, ht, rfl⟩ := (finiteUnits_eq_some_iff P b v).mp hb
  simp only [fadd, hs, ht]
  split
  · rename_i h0
    refine ⟨s && t, by rw [h0, zero_eq_roundPack]; rfl, ?_⟩
    rw [h0]
    cases s && t <;> rfl
  · exact ⟨_, rfl, signed_natAbs _⟩

theorem fmul_eq_roundPack (P : Prec) (a b : Elem P) (u v : Int) (ha : finiteUnits P a = some u) (hb : finiteUnits P b = some v) :
    ∃ neg, fmul P a b = roundPack P neg (u * v).natAbs (unitPlaces P) ∧ signed neg (u * v).natAbs = u * v := by
  obtain ⟨s, m, hs, rfl⟩ := (finiteUnits_eq_some_iff P a u).mp ha
  obtain ⟨t, n, ht, rfl⟩ := (finiteUnits_eq_some_iff P b v).mp hb
  rw [← signed_mul, natAbs_signed]
  exact ⟨s ^^ t, by simp only [fmul, hs, ht], rfl⟩

/-- The sum of two finite elements is the exact sum rounded. -/
theorem fadd_rounds (P : Prec) (a b : Elem P) (u v : Int) (ha : finiteUnits P a = some u) (hb : finiteUnits P b = some v) :
    ((u + v).natAbs < overflowUnits P → IsNearest P ((u + v : Int) : ℝ) (fadd P a b)) ∧
      (overflowUnits P ≤ (u + v).natAbs → fadd P a b = infinity P (decide (u + v < 0))) := by
  obtain ⟨neg, heq, hneg⟩ := fadd_eq_roundPack P a b u v ha hb
  have := roundPack_rounds P neg (u + v) 0 hneg
  rwa [← heq, pow_zero, Nat.mul_one, pow_zero, div_one] at this

/-- Settles O49: the sum is the exact sum rounded, and the difference is the sum with the negated element. -/
theorem sumRoundsToNearest : Obligations.SumRoundsToNearest := by
  intro P a b u v ha hb
  obtain ⟨h1, h2⟩ := fadd_rounds P a b u v ha hb
  obtain ⟨h3, h4⟩ := fadd_rounds P a (fneg P b) u (-v) ha (finiteUnits_fneg P b v hb)
  rw [← sub_eq_add_neg] at h3 h4
  exact ⟨h1, h2, h3, h4⟩

/-- Settles O50: the product of the units is the exact product in 2^−unitPlaces units, rounded once. -/
theorem productRoundsToNearest : Obligations.ProductRoundsToNearest := by
  intro P a b u v ha hb
  obtain ⟨neg, heq, hneg⟩ := fmul_eq_roundPack P a b u v ha hb
  rw [heq]
  exact roundPack_rounds P neg (u * v) (unitPlaces P) hneg

end Sys2Proof.Machine
end

section
/-! SUPPORT. In exact arithmetic the dataflow of FFT.F and FFT.I is the DFT (40_datapath R162): the roots of unity of a twiddle table, the split of a
DFT into its even and odd halves, and the shorter transforms each stage leaves. -/

namespace Sys2Proof.Machine

open Complex Finset

/-! ### Roots of unity -/

/-- The sign of the exponent of a transform (00_scope R21): −1 forward, 1 inverse. -/
def Dir.sign : Dir → ℂ
  | .fwd => -1
  | .inv => 1

/-- e^(±2πi·t/L). -/
noncomputable def root (d : Dir) (L t : Nat) : ℂ := exp (d.sign * (2 * Real.pi * I * t / L))

theorem dft_eq_sum_root (d : Dir) (L : Nat) (y : Nat → ℂ) (j : Nat) :
    dft d.sign L y j = ∑ n ∈ range L, y n * root d L (j * n) := by
  refine sum_congr rfl fun n _ => ?_
  rw [root, Nat.cast_mul, ← mul_assoc]

@[simp] theorem root_zero (d : Dir) (L : Nat) : root d L 0 = 1 := by simp [root]

theorem root_add (d : Dir) (L s t : Nat) : root d L (s + t) = root d L s * root d L t := by
  rw [root, root, root, ← exp_add]
  push_cast
  ring_nf

theorem root_mul_mul (d : Dir) (a L t : Nat) (ha : a ≠ 0) : root d (a * L) (a * t) = root d L t := by
  have ha' : (a : ℂ) ≠ 0 := by exact_mod_cast ha
  rw [root, root, Nat.cast_mul, Nat.cast_mul, mul_left_comm _ (a : ℂ), mul_div_mul_left _ _ ha']

/-- A whole turn. -/
theorem root_self (d : Dir) (L : Nat) (hL : L ≠ 0) : root d L L = 1 := by
  have hL' : (L : ℂ) ≠ 0 := by exact_mod_cast hL
  rw [root, mul_div_cancel_right₀ _ hL']
  cases d <;> simp [Dir.sign, exp_neg]

theorem root_mul_self (d : Dir) (L n : Nat) (hL : L ≠ 0) : root d L (L * n) = 1 := by
  induction n with
  | zero => simp
  | succ n ih => rw [Nat.mul_succ, root_add, ih, root_self d L hL, one_mul]

/-- Half a turn. -/
theorem root_half (d : Dir) (L : Nat) (hL : L ≠ 0) : root d (2 * L) L = -1 := by
  have h := root_mul_mul d L 2 1 hL
  rw [Nat.mul_one, Nat.mul_comm] at h
  rw [h, root, Nat.cast_one, Nat.cast_ofNat, mul_one, mul_assoc 2, mul_div_cancel_left₀ _ two_ne_zero]
  cases d <;> simp [Dir.sign, exp_neg]

/-! ### A DFT of 2L points is two of L points -/

theorem sum_range_two_mul (f : Nat → ℂ) (L : Nat) :
    ∑ n ∈ range (2 * L), f n = ∑ n ∈ range L, f (2 * n) + ∑ n ∈ range L, f (2 * n + 1) := by
  induction L with
  | zero => simp
  | succ L ih =>
    rw [Nat.mul_succ, sum_range_succ, sum_range_succ, ih, sum_range_succ, sum_range_succ]
    ring

/-- The DFT has period L. -/
theorem dft_add_period (d : Dir) (L : Nat) (hL : L ≠ 0) (y : Nat → ℂ) (j : Nat) : dft d.sign L y (L + j) = dft d.sign L y j := by
  simp only [dft_eq_sum_root, Nat.add_mul, root_add, root_mul_self d L _ hL, one_mul]

/-- Decimation in time: the even and the odd elements are transformed apart, and the odd half is turned by the twiddle factor. -/
theorem dft_two_mul (d : Dir) (L : Nat) (y : Nat → ℂ) (j : Nat) :
    dft d.sign (2 * L) y j =
      dft d.sign L (fun n => y (2 * n)) j + root d (2 * L) j * dft d.sign L (fun n => y (2 * n + 1)) j := by
  have heven : ∀ n, root d (2 * L) (j * (2 * n)) = root d L (j * n) := by
    intro n
    rw [Nat.mul_left_comm, root_mul_mul d 2 L _ (by decide)]
  simp only [dft_eq_sum_root, sum_range_two_mul, mul_sum, Nat.mul_add, Nat.mul_one, root_add, heven]
  congr 1
  exact sum_congr rfl fun n _ => by ring

/-- The second half of the outputs takes the same two transforms, the odd one subtracted. -/
theorem dft_two_mul_high (d : Dir) (L : Nat) (hL : L ≠ 0) (y : Nat → ℂ) (j : Nat) :
    dft d.sign (2 * L) y (L + j) =
      dft d.sign L (fun n => y (2 * n)) j - root d (2 * L) j * dft d.sign L (fun n => y (2 * n + 1)) j := by
  rw [dft_two_mul, root_add, root_half d L hL, dft_add_period d L hL, dft_add_period d L hL]
  ring

/-! ### The datapath in exact arithmetic -/

theorem toComplex_cadd (p v : Cplx ℝ) : toComplex (cadd exact p v) = toComplex p + toComplex v := rfl

theorem toComplex_csub (p v : Cplx ℝ) : toComplex (csub exact p v) = toComplex p - toComplex v := rfl

theorem toComplex_cmul (w q : Cplx ℝ) : toComplex (cmul exact w q) = toComplex w * toComplex q := rfl

/-- The exact twiddle factor (R156) is a root of unity. -/
theorem toComplex_twiddle (d : Dir) (K t : Nat) : toComplex (twiddle exact K t d) = root d (2 ^ K) t := by
  have harg : (2 * Real.pi * I * t / (2 ^ K : Nat) : ℂ) = ((2 * Real.pi * t / 2 ^ K : ℝ) : ℂ) * I := by
    push_cast
    ring
  rw [root, harg]
  cases d with
  | fwd =>
    rw [Dir.sign, neg_one_mul, ← neg_mul, ← ofReal_neg]
    apply Complex.ext
    · rw [exp_ofReal_mul_I_re, Real.cos_neg]; rfl
    · rw [exp_ofReal_mul_I_im, Real.sin_neg]; rfl
  | inv =>
    rw [Dir.sign, one_mul]
    apply Complex.ext
    · rw [exp_ofReal_mul_I_re]; rfl
    · rw [exp_ofReal_mul_I_im]; rfl

/-- The twiddle index of a stage of 2^s-point blocks (R159) picks the 2^s-th roots of unity out of any table at least that large. -/
theorem toComplex_stage_twiddle (d : Dir) (K s r : Nat) (hs : s ≤ K) :
    toComplex (twiddle exact K (r * (2 ^ K / 2 ^ s)) d) = root d (2 ^ s) r := by
  rw [toComplex_twiddle, Nat.pow_div hs (by decide), Nat.mul_comm, ← root_mul_mul d (2 ^ (K - s)) (2 ^ s) r (by positivity),
    ← pow_add, Nat.sub_add_cancel hs]

section
variable (z : List (Cplx ℝ)) (d : Dir) (K c b r : Nat) (hc : c + 1 ≤ K) (hr : r < 2 ^ c)
include hc hr

/-- The upper output of the butterfly at position r of block b of stage c + 1 (R158, R159). -/
theorem elemAt_stage_upper (hi : b * 2 ^ (c + 1) + r < z.length) :
    toComplex (elemAt exact (stage exact z (c + 1) d K) (b * 2 ^ (c + 1) + r)) =
      toComplex (elemAt exact z (2 * b * 2 ^ c + r)) + root d (2 ^ (c + 1)) r * toComplex (elemAt exact z ((2 * b + 1) * 2 ^ c + r)) := by
  have hp : 2 ^ (c + 1) = 2 * 2 ^ c := pow_succ' 2 c
  have hmod : (b * 2 ^ (c + 1) + r) % 2 ^ (c + 1) = r := by
    rw [Nat.mul_add_mod', Nat.mod_eq_of_lt (by omega)]
  have hhalf : 2 ^ (c + 1) / 2 = 2 ^ c := by omega
  rw [elemAt_stage exact z _ d K _ hi, stageElem, hmod, hhalf, if_pos hr, bfly, toComplex_cadd, toComplex_cmul,
    toComplex_stage_twiddle d K _ r hc]
  have h1 : b * 2 ^ (c + 1) + r = 2 * b * 2 ^ c + r := by rw [hp]; ring
  have h2 : 2 * b * 2 ^ c + r + 2 ^ c = (2 * b + 1) * 2 ^ c + r := by ring
  rw [h1, h2]

/-- The lower output of the same butterfly. -/
theorem elemAt_stage_lower (hi : b * 2 ^ (c + 1) + (2 ^ c + r) < z.length) :
    toComplex (elemAt exact (stage exact z (c + 1) d K) (b * 2 ^ (c + 1) + (2 ^ c + r))) =
      toComplex (elemAt exact z (2 * b * 2 ^ c + r)) - root d (2 ^ (c + 1)) r * toComplex (elemAt exact z ((2 * b + 1) * 2 ^ c + r)) := by
  have hp : 2 ^ (c + 1) = 2 * 2 ^ c := pow_succ' 2 c
  have hmod : (b * 2 ^ (c + 1) + (2 ^ c + r)) % 2 ^ (c + 1) = 2 ^ c + r := by
    rw [Nat.mul_add_mod', Nat.mod_eq_of_lt (by omega)]
  have hhalf : 2 ^ (c + 1) / 2 = 2 ^ c := by omega
  rw [elemAt_stage exact z _ d K _ hi, stageElem, hmod, hhalf, if_neg (by omega), bfly, toComplex_csub, toComplex_cmul,
    Nat.add_sub_cancel_left, toComplex_stage_twiddle d K _ r hc]
  have h1 : b * 2 ^ (c + 1) + (2 ^ c + r) = (2 * b + 1) * 2 ^ c + r := by rw [hp]; ring
  have h2 : (2 * b + 1) * 2 ^ c + r - 2 ^ c = 2 * b * 2 ^ c + r := by
    rw [Nat.add_mul]
    omega
  rw [h1, h2]

end

/-! ### The stages -/

theorem bitRevIndex_lt (k i : Nat) : bitRevIndex k i < 2 ^ k := by
  induction k generalizing i with
  | zero => exact Nat.one_pos
  | succ k ih =>
    have hi := ih (i / 2)
    have hm := Nat.mul_le_mul_right (2 ^ k) (show i % 2 ≤ 1 by omega)
    rw [bitRevIndex, pow_succ]
    omega

theorem bitRevIndex_even (k b : Nat) : bitRevIndex (k + 1) (2 * b) = bitRevIndex k b := by
  simp [bitRevIndex]

theorem bitRevIndex_odd (k b : Nat) : bitRevIndex (k + 1) (2 * b + 1) = 2 ^ k + bitRevIndex k b := by
  simp [bitRevIndex, Nat.add_mod, show (2 * b + 1) / 2 = b by omega]

/-- Element i of the bit reversal of the vector x(0), …, x(2^k − 1) (R160). -/
theorem elemAt_bitRev_range (k i : Nat) (x : Nat → Cplx ℝ) (hi : i < 2 ^ k) :
    elemAt exact (bitRev exact ((List.range (2 ^ k)).map x)) i = x (bitRevIndex k i) := by
  rw [elemAt_bitRev exact _ i (by simpa using hi), List.length_map, List.length_range, Nat.log2_two_pow,
    elemAt_of_lt exact _ _ (by simpa using bitRevIndex_lt k i), List.getElem_map, List.getElem_range]

/-- What c stages leave (R161): block b holds the 2^c-point DFT of the elements in steps of 2^(k − c) from the bit reversal of b. -/
theorem stages_eq_dft (k K : Nat) (d : Dir) (x : Nat → Cplx ℝ) (hK : k ≤ K) (c j : Nat) (hk : k = j + c) (b r : Nat)
    (hb : b < 2 ^ j) (hr : r < 2 ^ c) :
    toComplex (elemAt exact (stages exact d K c (bitRev exact ((List.range (2 ^ k)).map x))) (b * 2 ^ c + r)) =
      dft d.sign (2 ^ c) (fun n => toComplex (x (bitRevIndex j b + n * 2 ^ j))) r := by
  induction c generalizing j b r with
  | zero =>
    obtain rfl : k = j := hk
    obtain rfl : r = 0 := by simpa using hr
    rw [stages, pow_zero, Nat.mul_one, Nat.add_zero, elemAt_bitRev_range k b x hb, dft_eq_sum_root]
    simp
  | succ c ih =>
    have hp : 2 ^ (c + 1) = 2 * 2 ^ c := pow_succ' 2 c
    have heven : ∀ r < 2 ^ c, _ := fun r hr => ih (j + 1) (by omega) (2 * b) r (by rw [pow_succ]; omega) hr
    have hodd : ∀ r < 2 ^ c, _ := fun r hr => ih (j + 1) (by omega) (2 * b + 1) r (by rw [pow_succ]; omega) hr
    have hstep : ∀ n, bitRevIndex j b + n * 2 ^ (j + 1) = bitRevIndex j b + 2 * n * 2 ^ j := fun n => by ring
    have hstep' : ∀ n, 2 ^ j + bitRevIndex j b + n * 2 ^ (j + 1) = bitRevIndex j b + (2 * n + 1) * 2 ^ j := fun n => by ring
    simp only [bitRevIndex_even, bitRevIndex_odd, hstep, hstep'] at heven hodd
    have hlen : (b + 1) * 2 ^ (c + 1) ≤ 2 ^ k := by
      rw [hk, pow_add 2 j]
      exact Nat.mul_le_mul_right _ hb
    rw [Nat.add_mul, Nat.one_mul] at hlen
    rw [stages]
    rcases Nat.lt_or_ge r (2 ^ c) with h | h
    · rw [elemAt_stage_upper _ d K c b r (by omega) h (by simp; omega), heven r h, hodd r h, hp, dft_two_mul]
    · obtain ⟨r', rfl⟩ := Nat.exists_eq_add_of_le h
      have hr' : r' < 2 ^ c := by omega
      rw [elemAt_stage_lower _ d K c b r' (by omega) hr' (by simp; omega), heven r' hr', hodd r' hr', hp,
        dft_two_mul_high d _ (by positivity)]

/-- The whole transform is the last of the stages: one block, the DFT of the vector. -/
theorem fft_eq_dft (k K : Nat) (d : Dir) (x : Nat → Cplx ℝ) (j : Nat) (hK : k ≤ K) (hj : j < 2 ^ k) :
    toComplex (elemAt exact (fft exact d K ((List.range (2 ^ k)).map x)) j) = dft d.sign (2 ^ k) (fun n => toComplex (x n)) j := by
  have h := stages_eq_dft k K d x hK k 0 (by omega) 0 j (by decide) hj
  simp only [bitRevIndex, Nat.zero_mul, Nat.zero_add, pow_zero, Nat.mul_one] at h
  rw [fft, List.length_map, List.length_range, Nat.log2_two_pow, h]

/-- Settles O57: each stage doubles the length of the DFTs it leaves, by decimation in time. -/
theorem exactFftIsDft : Obligations.ExactFftIsDft := fun k K x j hK hj =>
  ⟨fft_eq_dft k K .fwd x j hK hj, fft_eq_dft k K .inv x j hK hj⟩

end Sys2Proof.Machine
end

section
/-! SUPPORT. The registers as the host reads and writes them (10_state section 2): the words composed from flags and fields, bit by bit, and the
obligations on the register map. -/

namespace Sys2Proof.Machine

/-! ### Words composed from flags: CTRL and STATUS -/

theorem bitAt_le (b : Bool) (k : Nat) : bitAt b k ≤ 2 ^ k := by
  cases b <;> simp [bitAt]

/-- A flag added above all bits of n is its bit k, and the bits of n stay. -/
theorem testBit_add_bitAt (n k j : Nat) (b : Bool) (h : n < 2 ^ k) :
    (n + bitAt b k).testBit j = if j = k then b else n.testBit j := by
  have hsum : n + bitAt b k = 2 ^ k * b.toNat + n := by
    cases b <;> simp [bitAt, Nat.add_comm]
  rw [hsum, Nat.testBit_two_pow_mul_add _ h]
  rcases Nat.lt_trichotomy j k with hj | rfl | hj
  · rw [if_pos hj, if_neg (by omega)]
  · cases b <;> simp
  · have hn : n.testBit j = false := Nat.testBit_lt_two_pow (h.trans (Nat.pow_lt_pow_right (by decide) hj))
    have hb : b.toNat.testBit (j - k) = false :=
      Nat.testBit_lt_two_pow (b.toNat_lt.trans_le (Nat.pow_le_pow_right (n := 2) (by decide) (show 1 ≤ j - k by omega)))
    rw [if_neg (by omega), if_neg (by omega), hn, hb]

theorem testBit_bitAt (b : Bool) (k j : Nat) : (bitAt b k).testBit j = if j = k then b else false := by
  simpa using testBit_add_bitAt 0 k j b (Nat.two_pow_pos k)

/-- Every bit of CTRL (10_state R35). -/
theorem getLsbD_ctrl (s : State) (j : Nat) :
    s.ctrl.getLsbD j = if j = 31 then s.srstPending else if j = 1 then s.ieErr else if j = 0 then s.ieDone else false := by
  have h0 := bitAt_le s.ieDone 0
  have h1 := bitAt_le s.ieErr 1
  rw [State.ctrl, BitVec.getLsbD_ofNat, testBit_add_bitAt _ _ _ _ (by omega), testBit_add_bitAt _ _ _ _ (by omega), testBit_bitAt]
  by_cases hj : j < 32
  · simp [hj]
  · rw [if_neg (by omega), if_neg (by omega), if_neg (by omega), Bool.and_false]

/-- Every bit of STATUS (10_state R36). -/
theorem getLsbD_status (s : State) (j : Nat) :
    s.status.getLsbD j =
      if j = 4 then s.twv else if j = 3 then s.ovr else if j = 2 then s.err else if j = 1 then s.done
      else if j = 0 then s.busy else false := by
  have h0 := bitAt_le s.busy 0
  have h1 := bitAt_le s.done 1
  have h2 := bitAt_le s.err 2
  have h3 := bitAt_le s.ovr 3
  rw [State.status, BitVec.getLsbD_ofNat, testBit_add_bitAt _ _ _ _ (by omega), testBit_add_bitAt _ _ _ _ (by omega),
    testBit_add_bitAt _ _ _ _ (by omega), testBit_add_bitAt _ _ _ _ (by omega), testBit_bitAt]
  by_cases hj : j < 32
  · simp [hj]
  · rw [if_neg (by omega), if_neg (by omega), if_neg (by omega), if_neg (by omega), if_neg (by omega), Bool.and_false]

/-- The reserved bits of CTRL between the enables and SRST (R49). -/
theorem ctrl_reserved (s : State) : s.ctrl.extractLsb' 2 29 = 0 := by
  ext i hi
  rw [BitVec.getElem_extractLsb', getLsbD_ctrl, if_neg (by omega), if_neg (by omega), if_neg (by omega)]
  simp

/-- The reserved bits of STATUS above TWV (R49). -/
theorem status_reserved (s : State) : s.status.extractLsb' 5 27 = 0 := by
  ext i hi
  rw [BitVec.getElem_extractLsb', getLsbD_status, if_neg (by omega), if_neg (by omega), if_neg (by omega), if_neg (by omega),
    if_neg (by omega)]
  simp

/-! ### Words composed from fields: CAP and ERRCODE -/

/-- A bit field of a word as a number. -/
theorem toNat_extractLsb' (w : Word) (lo len : Nat) : (w.extractLsb' lo len).toNat = w.toNat / 2 ^ lo % 2 ^ len := by
  rw [BitVec.extractLsb'_toNat, Nat.shiftRight_eq_div_pow]

theorem extractLsb'_eq_zero (w : Word) (lo len : Nat) (h : w.toNat / 2 ^ lo % 2 ^ len = 0) : w.extractLsb' lo len = 0 :=
  BitVec.eq_of_toNat_eq ((toNat_extractLsb' w lo len).trans h)

/-- The two parameters CAP reports fit their fields (00_scope R7, R8). -/
theorem parameters_le_of_wf (c : Config) (h : c.wf = true) : c.log2NMax ≤ 24 ∧ c.log2DmemBytes ≤ 24 := by
  simp only [Config.wf, Bool.and_eq_true, decide_eq_true_eq] at h
  omega

/-- CAP in a configuration the spec allows (10_state R34). -/
theorem capValue_eq (c : Config) (h : c.wf = true) : capValue c = BitVec.ofNat 32 (c.log2NMax + c.log2DmemBytes * 256) := by
  obtain ⟨hn, hd⟩ := parameters_le_of_wf c h
  rw [capValue, Nat.mod_eq_of_lt (by omega), Nat.mod_eq_of_lt (by omega)]
  rfl

theorem capValue_toNat (c : Config) (h : c.wf = true) : (capValue c).toNat = c.log2NMax + c.log2DmemBytes * 256 := by
  obtain ⟨hn, hd⟩ := parameters_le_of_wf c h
  rw [capValue_eq c h, BitVec.toNat_ofNat, Nat.mod_eq_of_lt (by omega)]

theorem ErrCode.toNat_le (e : ErrCode) : e.toNat ≤ 8 := by cases e <;> decide

theorem srcField_le (r : Option RegionId) : srcField r ≤ 5 := by
  rcases r with _ | r
  · decide
  · cases r <;> decide

theorem errcode_toNat (s : State) : s.errcode.toNat = s.errCode.toNat + srcField s.errSrc * 2 ^ 8 := by
  have hc := s.errCode.toNat_le
  have hs := srcField_le s.errSrc
  rw [State.errcode, BitVec.toNat_ofNat, Nat.mod_eq_of_lt (by omega)]

/-- ERRCODE.CODE, ERRCODE.SRC and the reserved bits (10_state R37, R49). -/
theorem errcode_fields (s : State) :
    (s.errcode.extractLsb' 0 4).toNat = s.errCode.toNat ∧ s.errcode.extractLsb' 4 4 = 0 ∧
      (s.errcode.extractLsb' 8 3).toNat = srcField s.errSrc ∧ s.errcode.extractLsb' 11 21 = 0 := by
  have hc := s.errCode.toNat_le
  have hs := srcField_le s.errSrc
  have hw := errcode_toNat s
  refine ⟨(toNat_extractLsb' _ _ _).trans ?_, extractLsb'_eq_zero _ _ _ ?_, (toNat_extractLsb' _ _ _).trans ?_,
    extractLsb'_eq_zero _ _ _ ?_⟩ <;> omega

/-- The fields of CAP and its reserved bits (R34). -/
theorem capValue_fields (c : Config) (h : c.wf = true) :
    ((capValue c).extractLsb' 0 5).toNat = c.log2NMax ∧ (capValue c).extractLsb' 5 3 = 0 ∧
      ((capValue c).extractLsb' 8 5).toNat = c.log2DmemBytes ∧ (capValue c).extractLsb' 13 19 = 0 := by
  obtain ⟨hn, hd⟩ := parameters_le_of_wf c h
  have hw := capValue_toNat c h
  refine ⟨(toNat_extractLsb' _ _ _).trans ?_, extractLsb'_eq_zero _ _ _ ?_, (toNat_extractLsb' _ _ _).trans ?_,
    extractLsb'_eq_zero _ _ _ ?_⟩ <;> omega

/-! ### The register map -/

/-- The offsets that are reserved up to the end of the register window (10_state R49). -/
theorem Reg.ofOffset_reserved (o : Nat) (h : o = 0x02C ∨ o = 0x03C ∨ o = 0x04C ∨ (0x058 ≤ o ∧ o ≤ 0xFFC)) :
    Reg.ofOffset o = none := by
  unfold Reg.ofOffset
  split
  case h_20 => rfl
  all_goals omega

theorem readWord_of_none (s : State) (o : Nat) (h : Reg.ofOffset o = none) : s.readWord o = 0 := by
  rw [State.readWord, h]

theorem writeWord_of_none (s : State) (o : Nat) (v : Word) (h : Reg.ofOffset o = none) : s.writeWord o v = s := by
  rw [State.writeWord, h]

/-- The operand registers (10_state R30, R39, R41 to R48). -/
def Reg.operands : List Reg := [.n, .len, .flen, .xRe, .xIm, .xStride, .yRe, .yIm, .yStride, .fBase, .fStride]

/-- A write of an operand register touches the operand registers alone. -/
theorem writeReg_operand (s : State) (v : Word) (r : Reg) (hr : r ∈ Reg.operands) :
    s.writeReg r v = { s with regs := (s.writeReg r v).regs } := by
  fin_cases hr <;> rfl

/-- After a write of an operand register that register reads as the word written, all 32 bits of it, and every other reads as before (R49). -/
theorem readReg_writeReg_operand (s : State) (v : Word) (r q : Reg) (hr : r ∈ Reg.operands) :
    (s.writeReg r v).readReg q = if q = r then v else s.readReg q := by
  fin_cases hr <;> cases q <;> rfl

theorem and_not_eq_ite (b c : Bool) : (b && !c) = if c then false else b := by
  cases c <;> simp

/-- A CTRL write with bit 31 clear sets the interrupt enables (R35). -/
theorem writeCtrl_enables (s : State) (v : Word) (h : v.getLsbD 31 = false) :
    s.writeCtrl v = { s with ieDone := v.getLsbD 0, ieErr := v.getLsbD 1 } := by
  rw [State.writeCtrl, h]
  rfl

/-- A CTRL write with bit 31 set resets an IDLE unit at once (R35, 70_reset R282). -/
theorem writeCtrl_reset_idle (s : State) (v : Word) (h : v.getLsbD 31 = true) (he : s.eng = .idle) : s.writeCtrl v = s.softReset := by
  rw [State.writeCtrl, if_pos h, he]

/-- A CTRL write with bit 31 set only marks the request in a BUSY unit. -/
theorem writeCtrl_reset_busy (s : State) (v : Word) (h : v.getLsbD 31 = true) (he : s.eng = .busy) :
    s.writeCtrl v = { s with srstPending := true } := by
  rw [State.writeCtrl, if_pos h, he]

/-! ### The obligations -/

/-- Settles O16, by the fields of CAP. -/
theorem identityRegisters : Obligations.IdentityRegisters := by
  intro s v h
  obtain ⟨hn, h5, hd, h13⟩ := capValue_fields s.config h
  exact ⟨rfl, rfl, hn, h5, hd, h13, rfl, rfl, rfl⟩

/-- Settles O17: the reserved offsets name no register, and the composed words have nothing in their reserved bits. -/
theorem reservedAndStoredBits : Obligations.ReservedAndStoredBits := by
  intro s v
  obtain ⟨-, h4, -, h11⟩ := errcode_fields s
  refine ⟨fun o ho => ?_, ctrl_reserved s, status_reserved s, h4, h11, fun r hr => ?_⟩
  · have hnone := Reg.ofOffset_reserved o ho
    exact ⟨readWord_of_none s o hnone, writeWord_of_none s o v hnone⟩
  · exact ⟨(readReg_writeReg_operand s v r r hr).trans (if_pos rfl), writeReg_operand s v r hr,
      fun q _ hne => (readReg_writeReg_operand s v r q hr).trans (if_neg hne)⟩

/-- Settles O18, bit by bit. -/
theorem statusBits : Obligations.StatusBits := by
  intro s v
  have htwv : s.twv = decide (s.twN ≠ 0) := Bool.eq_iff_iff.mpr (by simp [State.twv])
  refine ⟨getLsbD_status s 0, getLsbD_status s 1, getLsbD_status s 2, getLsbD_status s 3, (getLsbD_status s 4).trans htwv,
    fun b hb => ?_, ?_⟩
  · show s.status.getLsbD b = false
    rw [getLsbD_status, if_neg (by omega), if_neg (by omega), if_neg (by omega), if_neg (by omega), if_neg (by omega)]
  · simp only [State.writeReg, State.writeStatus, and_not_eq_ite]

/-- Settles O19: the numbers of the codes and regions are those of the tables of R240 and R86. -/
theorem ctrlAndErrcodeBits : Obligations.CtrlAndErrcodeBits := by
  intro s v
  obtain ⟨hcode, -, hsrc, -⟩ := errcode_fields s
  refine ⟨fun p hp hs => hcode.trans ?_, fun p hp hs => hsrc.trans ?_, getLsbD_ctrl s 0, getLsbD_ctrl s 1, getLsbD_ctrl s 31,
    writeCtrl_enables s v⟩
  · rw [hs]
    fin_cases hp <;> rfl
  · rw [hs]
    fin_cases hp <;> rfl

/-- Settles O20: each bit the formula of R54 names reads as the flag it is composed from. -/
theorem irqLevel : Obligations.IrqLevel := by
  refine ⟨fun s => ?_, rfl⟩
  obtain ⟨-, hdone, herr, hovr, -⟩ := statusBits s 0
  obtain ⟨-, -, hieDone, hieErr, -⟩ := ctrlAndErrcodeBits s 0
  rw [hdone, herr, hovr, hieDone, hieErr, State.irq]

/-- Settles O59: every offset of the table is an arm of the map. -/
theorem registerMap : Obligations.RegisterMap := by
  intro s v
  and_intros <;> rfl

end Sys2Proof.Machine
end

section
/-! SUPPORT. Resets (10_state R57, 70_reset): power-on, the soft reset request, and the hardware reset with what it does to DMEM; and that they and
everything else the outside does keep the invariant. -/

namespace Sys2Proof.Machine

/-! ### Bytes made ⊥ -/

/-- Making a byte ⊥ only drops it from the list of DMEM's bytes. -/
theorem Memory.writeByte_none_sublist (m : Memory) (a : Nat) : (m.writeByte a none).Sublist m := by
  induction m with
  | nil => exact .slnil
  | cons c m ih =>
    obtain ⟨b, w⟩ := c
    simp only [Memory.writeByte]
    split
    · exact ih.cons_cons _
    · split
      · exact List.sublist_cons_self _ _
      · exact .refl _

/-- DMEM with the bytes at every offset of a list made ⊥. -/
theorem Memory.undefineAll_sublist (as : List Nat) (m : Memory) : (as.foldl (fun m a => m.writeByte a none) m).Sublist m := by
  induction as generalizing m with
  | nil => exact .refl m
  | cons a as ih => exact (ih _).trans (m.writeByte_none_sublist a)

/-- Bytes made ⊥ read ⊥, and every other byte is retained. -/
theorem Memory.readByte_undefineAll (as : List Nat) (m : Memory) (hm : m.wf) (b : Nat) :
    (as.foldl (fun m a => m.writeByte a none) m).readByte b = if b ∈ as then none else m.readByte b := by
  induction as generalizing m with
  | nil => simp
  | cons a as ih =>
    rw [List.foldl_cons, ih _ (m.writeByte_wf hm a none)]
    by_cases hb : b = a
    · subst hb
      simp [m.readByte_writeByte_none hm]
    · simp [hb, m.readByte_writeByte_other a b none hb]

/-! ### The registers after a reset -/

/-- A register at its reset value reads 0, the three constants aside (R57). -/
theorem readReg_softReset (s : State) (r : Reg) (hr : r ∉ [Reg.id, .version, .cap]) : s.softReset.readReg r = 0 := by
  cases r with
  | id | version | cap => simp at hr
  | ctrl => simp [State.readReg, State.ctrl, bitAt]
  | status => simp [State.readReg, State.status, State.busy, State.twv, bitAt]
  | errcode => simp [State.readReg, State.errcode, ErrCode.toNat, srcField]
  | _ => rfl

theorem irq_softReset (s : State) : s.softReset.irq = false := rfl

theorem softReset_powerOn (c : Config) : (State.powerOn c).softReset = State.powerOn c := rfl

/-! ### Hardware reset -/

/-- The bytes a hardware reset makes ⊥ (70_reset R283): those the command in flight would have written. -/
theorem mem_inFlightAddrs (s : State) (a : Nat) :
    a ∈ s.inFlightAddrs ↔
      s.eng = .busy ∧ ∃ i, decode s.latch.cmd = .ok i ∧ commandError i s = none ∧ a ∈ writtenAddrs i s.latch.ops := by
  cases he : s.eng <;> cases hd : decode s.latch.cmd with
  | error e => simp [State.inFlightAddrs, he, hd]
  | ok i => simp [State.inFlightAddrs, he, hd]

/-- What asserting the reset input does to DMEM (R283). -/
theorem readByte_assertReset (s : State) (hm : s.mem.wf) (a : Nat) :
    (s.stimulate .assertReset).mem.readByte a = if a ∈ s.inFlightAddrs then none else s.mem.readByte a :=
  Memory.readByte_undefineAll s.inFlightAddrs s.mem hm a

/-- A step with the reset input asserted does what asserting it does (R280, log 15). -/
theorem step_of_resetPin (s : State) (ha : s.accessInReset = false) (hp : s.resetPin = true) (hq : s.port = []) :
    step s = .next (s.stimulate .assertReset) := by
  have hpin : ({ s.hardReset with resetPin := true } : State) = s.hardReset := by
    rw [← hp]
    rfl
  have hturn : s.turn = .reset := by simp [State.turn, ha, hp, hq]
  rw [step, hturn, State.stimulate, hpin]
  rfl

/-- Settles O13: the step while the input is asserted repeats the stimulus, so both are the one reset. -/
theorem hardwareResetStep : Obligations.HardwareResetStep := by
  intro s hm abandoned isReset
  have hreset : isReset (s.stimulate .assertReset) := by
    refine ⟨rfl, rfl, fun a => ⟨fun h => ?_, fun h => ?_⟩⟩
    · rw [readByte_assertReset s hm, if_pos ((mem_inFlightAddrs s a).mpr h)]
    · rw [readByte_assertReset s hm, if_neg (mt (mem_inFlightAddrs s a).mp h)]
  exact ⟨hreset, fun ha hp hq => ⟨_, step_of_resetPin s ha hp hq, hreset⟩⟩

/-! ### Power-on and soft reset -/

/-- Settles O10: the state after power-on has every register at its reset value. -/
theorem powerOnValues : Obligations.PowerOnValues := by
  intro c s
  have hs : s.softReset = s := softReset_powerOn c
  refine ⟨rfl, rfl, capValue_eq c, fun r hr => ?_, rfl, rfl, hs ▸ irq_softReset s, fun _ => rfl⟩
  have hr' : r ∉ [Reg.id, .version, .cap] := by fin_cases hr <;> decide
  exact hs ▸ readReg_softReset s r hr'

/-- Settles O11, by the two branches of a CTRL write with bit 31 set. -/
theorem softResetRequest : Obligations.SoftResetRequest := by
  intro s v h
  refine ⟨fun he => ?_, fun he => ?_⟩
  · have hw : s.writeReg .ctrl v = s.softReset := writeCtrl_reset_idle s v h he
    rw [hw]
    exact ⟨resetRegisters_softReset s, rfl⟩
  · have hw : s.writeReg .ctrl v = { s with srstPending := true } := writeCtrl_reset_busy s v h he
    rw [hw]
    exact ⟨rfl, getLsbD_ctrl _ 31⟩

/-! ### The invariant -/

theorem State.Inv.powerOn (c : Config) (hc : c.wf = true) : (State.powerOn c).Inv where
  config := hc
  memSorted := .nil
  memInside := nofun
  table := .inl rfl
  pending _ := rfl
  source := rfl
  held _ := rfl

/-- A hardware reset takes bytes from DMEM and puts every register at its reset value. -/
theorem State.Inv.hardReset {s : State} (h : s.Inv) : s.hardReset.Inv :=
  have hsub := Memory.undefineAll_sublist s.inFlightAddrs s.mem
  { config := h.config
    memSorted := h.memSorted.sublist hsub
    memInside := fun c hc => h.memInside c (hsub.subset hc)
    table := .inl rfl
    pending := fun _ => rfl
    source := rfl
    held := fun _ => rfl }

/-- An access that arrives leaves the registers as they are. -/
theorem resetRegisters_port (s : State) (port : List Access) (h : ResetRegisters s s) :
    ResetRegisters { s with port := port } { s with port := port } := by
  unfold ResetRegisters at h ⊢
  exact congrArg (fun t : State => { t with port := port }) h

/-- Whatever the outside does keeps the invariant. -/
theorem State.Inv.stimulate {s : State} (h : s.Inv) (x : Stimulus) : (s.stimulate x).Inv := by
  cases x with
  | access a => exact { h with held := fun hp => resetRegisters_port s _ (h.held hp) }
  | assertReset => exact { h.hardReset with held := fun _ => rfl }
  | releaseReset => exact { h with held := nofun }
  | powerCycle => exact { State.Inv.powerOn s.config h.config with held := nofun }

/-- Settles O48: power-on and reset put every register at its reset value, and an arriving access or a released input leaves the registers alone. -/
theorem resetAndStimuliKeepInv : Obligations.ResetAndStimuliKeepInv :=
  ⟨State.Inv.powerOn, State.Inv.powerOn _ (by decide), fun x _ h => h.stimulate x⟩

end Sys2Proof.Machine
end

section
/-! SUPPORT. The completion step of the command in flight (10_state R38, R50, 60_exceptions R246): which instruction it runs, and what its result
depends on. -/

namespace Sys2Proof.Machine

/-! ### The instruction the step runs -/

/-- When the completion is due, the step is the instruction the latched word decodes to. -/
theorem step_of_completion (s : State) (i : Instr) (ht : s.turn = .completion) (hd : decode s.latch.cmd = .ok i) : step s = exec i s := by
  rw [step, ht, hd]

/-- Settles O6: a due completion leaves the step no other branch. -/
theorem stepRunsDecodedCommand : Obligations.StepRunsDecodedCommand := step_of_completion

/-- A placed command is next to complete, whatever waits at the port (log 4). -/
theorem turn_placeCommand (w : Word) (s : State) : (s.placeCommand w).turn = .completion := by
  cases hq : s.port <;> simp [State.turn, hq]

theorem decode_of_decodeTableWord (nbits w : Nat) (i : Instr) (h : decodeTableWord nbits w = some i) :
    decode (BitVec.ofNat 32 (w % 2 ^ nbits)) = .ok i := by
  unfold decodeTableWord at h
  split at h
  · rwa [← Option.some.inj h]
  · cases h

/-- Settles O7: placing the command makes its completion due, and the table's word is the one placed. -/
theorem placedCommandRunsNext : Obligations.PlacedCommandRunsNext := fun s w i h =>
  step_of_completion _ i (turn_placeCommand _ s) (decode_of_decodeTableWord 32 w i h)

/-! ### What a result depends on -/

section
variable (i : Instr) {s s' : State} (hl : s'.latch = s.latch) (hw : s'.twN = s.twN)
include hl hw

/-- The checks of a command read the latch, TW_N and the configuration alone. -/
theorem commandError_congr (hc : s'.config = s.config) : commandError i s' = commandError i s := by
  simp only [commandError, sizeError, tableError, stageError, regionError, hl, hw, hc]

/-- The effect of a command reads the latch, TW_N and DMEM alone. -/
theorem effect_congr (hm : s'.mem = s.mem) : effect i s' = effect i s := by
  simp only [effect, State.log2N, hl, hw, hm]

end

/-- Settles O9: the checks agree in the two states, and so do the errors they report or the effects they let pass. -/
theorem resultIgnoresLiveRegisters : Obligations.ResultIgnoresLiveRegisters := by
  intro i s s' hl hw hm hc hp hp'
  have he := commandError_congr i hl hw hc
  rw [exec_eq i s, exec_eq i s', he]
  cases commandError i s with
  | some e => exact ⟨_, _, finishError_eq e s hp, finishError_eq e s' hp', hm, hw, rfl, rfl⟩
  | none =>
    rw [effect_congr i hl hw hm]
    exact ⟨_, _, finishOk_eq _ _ s hp, finishOk_eq _ _ s' hp', rfl, rfl, rfl, rfl⟩

end Sys2Proof.Machine
end

section
/-! SUPPORT. The checks against the rules (20_memory R84, R87 to R91, 60_exceptions R244): a command passes exactly when every rule holds for it, and
otherwise reports the first that fails. -/

namespace Sys2Proof.Machine

/-! ### A check answers none, or its one error -/

section
variable {β : Type} {o : Option β} {p : Prop} {e : β} (h : (p → o = none) ∧ (¬ p → o = some e))
include h

theorem check_eq_none_iff : o = none ↔ p := by
  by_cases hp : p
  · simp [hp, h.1 hp]
  · simp [hp, h.2 hp]

theorem check_eq_some_iff (x : β) : o = some x ↔ ¬ p ∧ x = e := by
  by_cases hp : p
  · simp [hp, h.1 hp]
  · simp [hp, h.2 hp, eq_comm]

end

/-- A check made of each element of a list in turn reports the first that fails it. -/
theorem findSome?_check_iff {α β : Type} {f : α → Option β} {bad : α → Prop} {err : α → β}
    (h : ∀ x, (bad x → f x = some (err x)) ∧ (¬ bad x → f x = none)) (l : List α) (e : β) :
    l.findSome? f = some e ↔ ∃ x, IsFirst l bad x ∧ e = err x := by
  have hcheck : ∀ x, (¬ bad x → f x = none) ∧ (¬ ¬ bad x → f x = some (err x)) := fun x =>
    ⟨(h x).2, fun hx => (h x).1 (not_not.mp hx)⟩
  simp only [List.findSome?_eq_some_iff, check_eq_none_iff (hcheck _), check_eq_some_iff (hcheck _), not_not]
  constructor
  · rintro ⟨before, x, after, hl, ⟨hx, he⟩, hb⟩
    exact ⟨x, ⟨before, after, hl, hx, hb⟩, he⟩
  · rintro ⟨x, ⟨before, after, hl, hx, hb⟩, he⟩
    exact ⟨before, x, after, hl, ⟨hx, he⟩, hb⟩

/-! ### The checks of regions -/

/-- A check that passes exactly when nothing is bad reports its error when something is. -/
theorem check_of_eq_none_iff {β : Type} {bad : Prop} {b : Bool} {e : β} (h : (if b then some e else none) = none ↔ ¬ bad) :
    (bad → (if b then some e else none) = some e) ∧ (¬ bad → (if b then some e else none) = none) := by
  refine ⟨fun hb => if_pos ?_, h.mpr⟩
  by_contra hn
  exact h.mp (if_neg hn) hb

theorem Region.strideError_eq (r : Region) :
    (r.BadStride → r.strideError = some { code := .invalidStride, src := some r.id }) ∧
      (¬ r.BadStride → r.strideError = none) := check_of_eq_none_iff r.strideError_eq_none

theorem Region.alignError_eq (P : Prec) (r : Region) :
    (r.Misaligned P → r.alignError P = some { code := .misaligned, src := some r.id }) ∧
      (¬ r.Misaligned P → r.alignError P = none) := check_of_eq_none_iff (r.alignError_eq_none P)

theorem Region.boundsError_eq (c : Config) (P : Prec) (r : Region) :
    (r.Outside c P → r.boundsError c P = some { code := .addrRange, src := some r.id }) ∧
      (¬ r.Outside c P → r.boundsError c P = none) := check_of_eq_none_iff (r.boundsError_eq_none c P)

theorem pairError_regions_eq_none_iff (i : Instr) (L : OperandRegs) (p : RegionId × RegionId) :
    pairError (regions i L) i.prec p = none ↔ ¬ PairMeets (regions i L) i.prec p := by
  obtain ⟨hmeet, hfree⟩ := pairError_eq (regions i L) (regions_nodup i L) i.prec p
  exact ⟨fun h hm => by simp [hmeet hm] at h, hfree⟩

/-! ### The checks of a command -/

/-- A command passes its checks exactly when the rules hold for it. -/
theorem commandError_eq_none_iff (i : Instr) (s : State) : commandError i s = none ↔ Accepts i s := by
  simp only [commandError_eq_none, check_eq_none_iff (sizeError_eq i s), check_eq_none_iff (tableError_eq i s),
    check_eq_none_iff (stageError_eq i s), Region.strideError_eq_none, Region.alignError_eq_none, Region.boundsError_eq_none,
    pairError_regions_eq_none_iff]
  exact ⟨fun ⟨size, table, stage, stride, align, bounds, overlap⟩ => ⟨size, table, stage, stride, align, bounds, overlap⟩,
    fun ⟨size, table, stage, stride, align, bounds, overlap⟩ => ⟨size, table, stage, stride, align, bounds, overlap⟩⟩

/-- Steps 5 to 8 of R244: the first of all strides, then of all alignments, then of all bounds, then of the overlap pairs. -/
theorem regionError_eq_some_iff (i : Instr) (s : State) (e : CmdError) :
    regionError i s = some e ↔
      (∃ r, IsFirst (regions i s.latch.ops) Region.BadStride r ∧ e = { code := .invalidStride, src := some r.id }) ∨
      (∀ r ∈ regions i s.latch.ops, ¬ r.BadStride) ∧
        ((∃ r, IsFirst (regions i s.latch.ops) (fun r => r.Misaligned i.prec) r ∧ e = { code := .misaligned, src := some r.id }) ∨
        (∀ r ∈ regions i s.latch.ops, ¬ r.Misaligned i.prec) ∧
          ((∃ r, IsFirst (regions i s.latch.ops) (fun r => r.Outside s.config i.prec) r ∧ e = { code := .addrRange, src := some r.id }) ∨
          (∀ r ∈ regions i s.latch.ops, ¬ r.Outside s.config i.prec) ∧
            ∃ p, IsFirst (overlapPairs i) (PairMeets (regions i s.latch.ops) i.prec) p ∧ e = { code := .overlap, src := some p.1 })) := by
  simp only [regionError, Option.or_assoc, Option.or_eq_some_iff, List.findSome?_eq_none_iff, Region.strideError_eq_none,
    Region.alignError_eq_none, Region.boundsError_eq_none, findSome?_check_iff Region.strideError_eq,
    findSome?_check_iff (Region.alignError_eq i.prec), findSome?_check_iff (Region.boundsError_eq s.config i.prec),
    findSome?_check_iff (pairError_eq _ (regions_nodup i s.latch.ops) i.prec)]

/-- The order of R244, step by step. -/
theorem commandError_eq_some_iff (i : Instr) (s : State) (e : CmdError) :
    commandError i s = some e ↔
      (¬ SizePasses i s ∧ e = { code := .invalidSize, src := none }) ∨
      SizePasses i s ∧
        ((¬ TablePasses i s ∧ e = { code := .sizeMismatch, src := none }) ∨
        TablePasses i s ∧
          ((¬ StagePasses i s ∧ e = { code := .invalidStage, src := none }) ∨
          StagePasses i s ∧ regionError i s = some e)) := by
  simp only [commandError, Option.or_assoc, Option.or_eq_some_iff, check_eq_none_iff (sizeError_eq i s),
    check_eq_some_iff (sizeError_eq i s), check_eq_none_iff (tableError_eq i s), check_eq_some_iff (tableError_eq i s),
    check_eq_none_iff (stageError_eq i s), check_eq_some_iff (stageError_eq i s)]

/-- The error reported is the first in the order of R244. -/
theorem commandError_eq_some_iff_firstError (i : Instr) (s : State) (e : CmdError) :
    commandError i s = some e ↔ FirstError i s e := by
  rw [commandError_eq_some_iff, regionError_eq_some_iff]
  constructor
  · rintro (⟨h, rfl⟩ | ⟨h, ⟨ht, rfl⟩ | ⟨ht, ⟨hs, rfl⟩ |
      ⟨hs, ⟨r, hr, rfl⟩ | ⟨h5, ⟨r, hr, rfl⟩ | ⟨h6, ⟨r, hr, rfl⟩ | ⟨h7, p, hp, rfl⟩⟩⟩⟩⟩⟩)
    · exact .size h
    · exact .table h ht
    · exact .stage h ht hs
    · exact .stride h ht hs r hr
    · exact .align h ht hs h5 r hr
    · exact .bounds h ht hs h5 h6 r hr
    · exact .overlap h ht hs h5 h6 h7 p hp
  · intro hf
    cases hf with
    | size h => exact .inl ⟨h, rfl⟩
    | table h ht => exact .inr ⟨h, .inl ⟨ht, rfl⟩⟩
    | stage h ht hs => exact .inr ⟨h, .inr ⟨ht, .inl ⟨hs, rfl⟩⟩⟩
    | stride h ht hs r hr => exact .inr ⟨h, .inr ⟨ht, .inr ⟨hs, .inl ⟨r, hr, rfl⟩⟩⟩⟩
    | align h ht hs h5 r hr => exact .inr ⟨h, .inr ⟨ht, .inr ⟨hs, .inr ⟨h5, .inl ⟨r, hr, rfl⟩⟩⟩⟩⟩
    | bounds h ht hs h5 h6 r hr => exact .inr ⟨h, .inr ⟨ht, .inr ⟨hs, .inr ⟨h5, .inr ⟨h6, .inl ⟨r, hr, rfl⟩⟩⟩⟩⟩⟩
    | overlap h ht hs h5 h6 h7 p hp => exact .inr ⟨h, .inr ⟨ht, .inr ⟨hs, .inr ⟨h5, .inr ⟨h6, .inr ⟨h7, p, hp, rfl⟩⟩⟩⟩⟩⟩

/-! ### The obligations -/

/-- Settles O42: every slot lies in the interval of the closed forms, and its two ends are those of the first and the last slot. -/
theorem regionIntervalIsMinMax : Obligations.RegionIntervalIsMinMax := by
  intro r P hc _
  obtain ⟨hlo, hhi⟩ := r.interval_attained P hc
  exact ⟨fun i hi => (r.slot_in_interval P i hi).1, hlo, fun i hi => (r.slot_in_interval P i hi).2, hhi⟩

/-- Settles O43, check by check. -/
theorem checksPassWhenRulesHold : Obligations.ChecksPassWhenRulesHold := commandError_eq_none_iff

/-- Settles O44, step by step of the order of R244. -/
theorem firstFailingCheckIsReported : Obligations.FirstFailingCheckIsReported := commandError_eq_some_iff_firstError

end Sys2Proof.Machine
end

section
/-! SUPPORT. The host port (20_memory R80, R95 to R98): where an access falls, what a register-window and a DMEM access do, and the accesses that wait
for a completion. -/

namespace Sys2Proof.Machine

/-! ### Where an access falls (20_memory R80) -/

section
variable (a : Access) (c : Config)

theorem Access.target_of_register (h : a.offset.toNat < 0x1000) : a.target c = .register a.offset.toNat := if_pos h

theorem Access.target_of_dmem (d : Nat) (ha : a.offset.toNat = 0x01000000 + d) (hd : d < c.dmemBytes) : a.target c = .dmem d := by
  rw [Access.target, if_neg (by omega), if_pos (by rw [dmemBase]; omega), ha, dmemBase, Nat.add_sub_cancel_left]

theorem Access.target_of_unmapped
    (h : (0x1000 ≤ a.offset.toNat ∧ a.offset.toNat < 0x01000000) ∨ 0x01000000 + c.dmemBytes ≤ a.offset.toNat) :
    a.target c = .unmapped := by
  rw [Access.target, if_neg (by omega), if_neg (by rw [dmemBase]; omega)]

end

/-! ### Register-window accesses (20_memory R96) -/

/-- What a register reads as does not depend on the port or the latency. -/
theorem readWord_port (s : State) (port : List Access) (delay o : Nat) :
    ({ s with port := port, delay := delay } : State).readWord o = s.readWord o := by
  unfold State.readWord
  split
  · rename_i r _
    cases r <;> rfl
  · rfl

section
variable (a : Access) (o : Nat) (s : State)

theorem accessRegister_write (v : BitVec 64) (hw : a.width = .w32) (ho : o % 4 = 0) (hop : a.op = .write v) :
    s.accessRegister a o = (s.writeWord o (v.setWidth 32)).respond { status := .ok, data := none } := by
  rw [State.accessRegister, if_pos ⟨hw, ho⟩, hop, ← BitVec.ofNat_toNat]

theorem accessRegister_read (hw : a.width = .w32) (ho : o % 4 = 0) (hop : a.op = .read) :
    s.accessRegister a o = s.respond { status := .ok, data := some ((s.readWord o).setWidth 64) } := by
  rw [State.accessRegister, if_pos ⟨hw, ho⟩, hop, ← BitVec.ofNat_toNat]

/-- An access of another width or alignment is refused. -/
theorem accessRegister_refused (h : a.width ≠ .w32 ∨ o % 4 ≠ 0) : s.accessRegister a o = s.busError a :=
  if_neg (by tauto)

/-- An access is refused in the register window unless it is 32 bits wide and aligned, and at every unmapped offset. -/
theorem access_refused
    (h : (a.offset.toNat < 0x1000 ∧ (a.width ≠ .w32 ∨ a.offset.toNat % 4 ≠ 0)) ∨
      (0x1000 ≤ a.offset.toNat ∧ a.offset.toNat < 0x01000000) ∨ 0x01000000 + s.config.dmemBytes ≤ a.offset.toNat) :
    s.access a = s.busError a := by
  rcases h with ⟨hr, h⟩ | h
  · rw [State.access, a.target_of_register s.config hr]
    exact accessRegister_refused a _ s h
  · rw [State.access, a.target_of_unmapped s.config h]

end

/-- The step of the port performs its oldest access. -/
theorem step_of_port (s : State) (a : Access) (rest : List Access) (h : s.turn = .port a rest) :
    step s = .next (({ s with port := rest, delay := s.delay - 1 } : State).access a) := by
  rw [step, h]
  rfl

/-- Settles O22, by where the access falls and whether it is 32 bits wide and aligned. -/
theorem registerWindowAccess : Obligations.RegisterWindowAccess := by
  intro s a rest ht s'
  rw [step_of_port s a rest ht]
  have haccess : a.offset.toNat < 0x1000 → s'.access a = s'.accessRegister a a.offset.toNat := fun h => by
    rw [State.access, a.target_of_register s'.config h]
  refine ⟨fun v h hw ho hop => ?_, fun h hw ho hop => ?_, fun h => ?_⟩
  · rw [haccess h, accessRegister_write a _ s' v hw ho hop]
  · rw [haccess h, accessRegister_read a _ s' hw ho hop, readWord_port]
  · rw [access_refused a s' h, State.busError]
    exact ⟨fun hop => by rw [hop], fun v hop => by rw [hop]⟩

/-! ### DMEM accesses (20_memory R81, R97) -/

theorem Width.bytes_le (w : Width) : w.bytes ≤ 8 := by cases w <;> decide

/-- Byte k of a value stored little-endian is its bits from 8k. -/
theorem extractLsb'_byte (v : BitVec 64) (k : Nat) : v.extractLsb' (8 * k) 8 = BitVec.ofNat 8 (v.toNat / 256 ^ k) := by
  rw [BitVec.extractLsb', Nat.shiftRight_eq_div_pow, Nat.pow_mul]

theorem Memory.readFree_lt (m : Memory) (a f n : Nat) : m.readFree a f n < 256 ^ n := by
  induction n generalizing a f with
  | zero => simp [Memory.readFree]
  | succ n ih =>
    have hrest := ih (a + 1) (f + 1)
    have hbyte : ∀ b : Byte, b.toNat + 256 * m.readFree (a + 1) (f + 1) n < 256 ^ (n + 1) := fun b => by
      have := b.isLt
      rw [pow_succ]
      omega
    rw [Memory.readFree]
    split
    · exact hbyte _
    · exact hbyte _

/-- Byte k of what a host read gives: the byte there, or the free value drawn for an unspecified one (93 I1). -/
theorem Memory.readFree_byte (m : Memory) (a f n k : Nat) (hk : k < n) :
    BitVec.ofNat 8 (m.readFree a f n / 256 ^ k) = (m.readByte (a + k)).getD (Config.freeByte (f + k)) := by
  induction n generalizing a f k with
  | zero => omega
  | succ n ih =>
    have hstep : m.readFree a f (n + 1) =
        ((m.readByte a).getD (Config.freeByte f)).toNat + 256 * m.readFree (a + 1) (f + 1) n := by
      rw [Memory.readFree]
      cases m.readByte a <;> rfl
    have hb := ((m.readByte a).getD (Config.freeByte f)).isLt
    rw [hstep]
    cases k with
    | zero =>
      apply BitVec.eq_of_toNat_eq
      simpa using hb
    | succ k =>
      rw [pow_succ', ← Nat.div_div_eq_div_mul, Nat.add_mul_div_left _ _ (by decide), Nat.div_eq_of_lt hb, Nat.zero_add,
        ih _ _ k (by omega), Nat.add_right_comm, Nat.add_right_comm f]
      rfl

section
variable (m : Memory) (a f : Nat) (w : Width)

/-- What a host read gives fits the 64 bits of a response. -/
theorem Memory.toNat_readFree : (BitVec.ofNat 64 (m.readFree a f w.bytes)).toNat = m.readFree a f w.bytes := by
  refine Nat.mod_eq_of_lt ((m.readFree_lt a f _).trans_le ?_)
  exact (Nat.pow_le_pow_right (by decide) w.bytes_le).trans (by decide)

theorem Memory.extractLsb'_readFree (k : Nat) (hk : k < w.bytes) :
    (BitVec.ofNat 64 (m.readFree a f w.bytes)).extractLsb' (8 * k) 8 = (m.readByte (a + k)).getD (Config.freeByte (f + k)) := by
  rw [extractLsb'_byte, m.toNat_readFree, m.readFree_byte a f _ k hk]

/-- The data of a narrow read stands in the low bits (log 5). -/
theorem Memory.getLsbD_readFree (k : Nat) (hk : 8 * w.bytes ≤ k) :
    (BitVec.ofNat 64 (m.readFree a f w.bytes)).getLsbD k = false := by
  rw [← BitVec.testBit_toNat, m.toNat_readFree]
  refine Nat.testBit_lt_two_pow ((m.readFree_lt a f _).trans_le ?_)
  rw [show 256 = 2 ^ 8 from rfl, ← Nat.pow_mul]
  exact Nat.pow_le_pow_right (by decide) hk

end

/-- Settles O23, by the alignment of the access and whether it reads or writes. -/
theorem dmemAccess : Obligations.DmemAccess := by
  intro s a rest d ht ha hd
  have hstep : step s = .next (({ s with port := rest, delay := s.delay - 1 } : State).accessDmem a d) := by
    rw [step_of_port s a rest ht, State.access, a.target_of_dmem _ d ha hd]
  refine ⟨fun v hop hal => ⟨_, hstep, ?_⟩, fun hop hal => ?_, fun hal => ?_⟩
  · rw [State.accessDmem, if_pos hal, hop]
    refine ⟨fun k hk => ?_, fun b hb => Memory.readByte_writeLE_other _ s.mem d v.toNat b hb, rfl⟩
    exact (Memory.readByte_writeLE_self _ s.mem d v.toNat k hk).trans (by rw [extractLsb'_byte])
  · have hbyte := s.mem.extractLsb'_readFree d s.fresh a.width
    refine ⟨BitVec.ofNat 64 (s.mem.readFree d s.fresh a.width.bytes), ?_, fun k hk b hb => ?_, fun k hk hb => ?_,
      s.mem.getLsbD_readFree d s.fresh a.width⟩
    · rw [hstep, State.accessDmem, if_pos hal, hop]
      rfl
    · rw [hbyte k hk, hb, Option.getD_some]
    · rw [hbyte k hk, hb, Option.getD_none]
  · rw [hstep, State.accessDmem, if_neg hal]
    rfl

/-! ### Accesses that wait for a completion (20_memory R98) -/

/-- A completion does not touch the port. -/
theorem complete_port (e : Option CmdError) (s : State) :
    (s.complete e).port = s.port ∧ (s.complete e).responses = s.responses ∧ (s.complete e).resetPin = s.resetPin ∧
      (s.complete e).accessInReset = s.accessInReset := by
  cases h : s.srstPending
  · cases e <;> simp [complete_none, complete_some, h]
  · simp [complete_pending, h]

/-- The step of a due completion is the effect of a command, if any, and the completion bookkeeping. -/
theorem step_of_completion_cases (s : State) (h : s.turn = .completion) :
    ∃ m w e, step s = .next (({ s with mem := m, twN := w } : State).complete e) := by
  cases hd : decode s.latch.cmd with
  | error e => exact ⟨s.mem, s.twN, some { code := .illegalCmd, src := none }, by rw [step, h, hd]; rfl⟩
  | ok i =>
    rw [step_of_completion s i h hd]
    rcases exec_cases i s with ⟨e, _, hx⟩ | ⟨_, hx⟩
    · exact ⟨s.mem, s.twN, some e, hx⟩
    · exact ⟨_, _, none, hx⟩

/-- An IDLE unit performs the oldest access at its port. -/
theorem turn_of_idle (s : State) (a : Access) (rest : List Access) (hv : s.accessInReset = false) (hp : s.resetPin = false)
    (he : s.eng = .idle) (hq : s.port = a :: rest) : s.turn = .port a rest := by
  simp [State.turn, hv, hp, he, hq]

/-- Settles O24: a DMEM access is held, so the completion is due; it leaves the unit IDLE with the port as it was. -/
theorem dmemAccessHeldWhileBusy : Obligations.DmemAccessHeldWhileBusy := by
  intro s a rest hv hp he hq
  refine ⟨fun hlo hhi => ?_, fun hr hdelay => ?_⟩
  · have hheld : a.held s.config = true := by
      rw [Access.held, a.target_of_dmem s.config (a.offset.toNat - 0x01000000) (by omega) (by omega)]
    have hturn : s.turn = .completion := by simp [State.turn, hv, hp, he, hq, hheld]
    obtain ⟨m, w, e, hstep⟩ := step_of_completion_cases s hturn
    obtain ⟨hport, hresp, hpin, hreset⟩ := complete_port e { s with mem := m, twN := w }
    have hidle := complete_eng e { s with mem := m, twN := w }
    refine ⟨hturn, _, hstep, hidle, hport, hresp, ?_⟩
    exact turn_of_idle _ a rest (hreset.trans hv) (hpin.trans hp) hidle (hport.trans hq)
  · have hheld : a.held s.config = false := by rw [Access.held, a.target_of_register s.config hr]
    simp [State.turn, hv, hp, he, hq, hheld, Nat.ne_of_gt hdelay]

end Sys2Proof.Machine
end

section
/-! SUPPORT. The frame of the thirteen commands (20_memory R92), and the FFT family on an unspecified input (R99, 93 I2, log 9). -/

namespace Sys2Proof.Machine

/-! ### The frame of a command (20_memory R92) -/

/-- A command that passes its checks ends with success, and its effect is all it does (60_exceptions R246). -/
theorem exec_of_accepts (i : Instr) (s : State) (h : Accepts i s) (hp : s.srstPending = false) :
    exec i s = .next (s.succeeded (effect i s).1 (effect i s).2) := by
  rw [exec_eq, (commandError_eq_none_iff i s).mpr h]
  exact finishOk_eq _ _ s hp

/-- DMEM after a command that passed its checks is what its effect leaves. -/
theorem mem_of_exec {i : Instr} {s t : State} (h : Accepts i s) (hp : s.srstPending = false) (ht : exec i s = .next t) :
    t.mem = (effect i s).1 := by
  rw [exec_of_accepts i s h hp] at ht
  cases ht
  rfl

/-- Settles O46: a command that fails a check only reports it, and one that passes has its stores in its write regions. -/
theorem commandFrame : Obligations.CommandFrame := by
  intro i s hp
  rw [exec_eq]
  cases he : commandError i s with
  | some e =>
    have hcode := (commandError_code i s e he).1
    exact ⟨s.failed e, finishError_eq e s hp, by simp [State.failed, hcode], fun _ => rfl, fun _ _ => rfl⟩
  | none => exact ⟨_, finishOk_eq _ _ s hp, by simp [State.succeeded], effect_twN i s, effect_other i s⟩

/-! ### Stores of unspecified values -/

/-- Marking bytes ⊥ makes no byte specified. -/
theorem Memory.readByte_undefine_of_none (m : Memory) (hm : m.wf) (a n b : Nat) (h : m.readByte b = none) :
    (m.undefine a n).readByte b = none := by
  by_cases hb : a ≤ b ∧ b < a + n
  · exact Memory.readByte_undefine_self n m hm a b hb
  · rw [Memory.readByte_undefine_other n m a b (by omega), h]

/-- After stores of unspecified values every byte they cover is ⊥, and so is every byte that was ⊥ before. -/
theorem readByte_storeAll_unspecified (P : Prec) (b : Nat) (ws : List (Store P)) (hv : ∀ w ∈ ws, w.value = none) (m : Memory)
    (hm : m.wf) (h : m.readByte b = none ∨ ∃ w ∈ ws, w.addr ≤ b ∧ b < w.addr + P.esize) : (storeAll P m ws).readByte b = none := by
  induction ws generalizing m with
  | nil => exact h.resolve_right (by simp)
  | cons w ws ih =>
    have hw : writeElem P m w.addr w.value = m.undefine w.addr P.esize := by rw [hv w (List.mem_cons_self ..), writeElem]
    rw [storeAll_cons, hw]
    refine ih (fun u hu => hv u (List.mem_cons_of_mem _ hu)) _ (Memory.undefine_wf _ m hm _) ?_
    rcases h with h | ⟨u, hu, h1, h2⟩
    · exact .inl (m.readByte_undefine_of_none hm _ _ _ h)
    · rcases List.mem_cons.mp hu with rfl | hu
      · exact .inl (Memory.readByte_undefine_self _ m hm _ _ ⟨h1, h2⟩)
      · exact .inr ⟨u, hu, h1, h2⟩

section
variable (P : Prec) (v : SplitVec)

/-- The stores of unspecified elements store unspecified values. -/
theorem splitStores_unspecified (i n : Nat) (w : Store P) (hw : w ∈ splitStores P v i (List.replicate n none)) : w.value = none := by
  induction n generalizing i with
  | zero => simp [splitStores] at hw
  | succ n ih =>
    simp only [List.replicate_succ, splitStores, List.mem_cons] at hw
    rcases hw with rfl | rfl | hw
    · rfl
    · rfl
    · exact ih _ hw

/-- Both components of every element are stored. -/
theorem exists_mem_splitStores (i : Nat) (zs : List (Option (Cplx (Elem P)))) (j : Nat) (hj : j < zs.length) :
    (∃ w ∈ splitStores P v i zs, w.addr = eaNat v.re v.stride (i + j) P) ∧
      ∃ w ∈ splitStores P v i zs, w.addr = eaNat v.im v.stride (i + j) P := by
  induction zs generalizing i j with
  | nil => simp at hj
  | cons z zs ih =>
    rw [splitStores]
    cases j with
    | zero => exact ⟨⟨_, .head _, rfl⟩, ⟨_, .tail _ (.head _), rfl⟩⟩
    | succ j =>
      obtain ⟨⟨w, hw, hre⟩, ⟨u, hu, him⟩⟩ := ih (i + 1) j (by simpa using hj)
      rw [show i + (j + 1) = i + 1 + j by omega]
      exact ⟨⟨w, .tail _ (.tail _ hw), hre⟩, ⟨u, .tail _ (.tail _ hu), him⟩⟩

end

/-! ### What a command of the FFT family writes -/

/-- The vector a command of the FFT family writes (20_memory R86): Y for RFFT.OP, X in place for the others. -/
def fftTarget (i : Instr) (L : OperandRegs) : SplitVec :=
  match i with
  | .rfftOp _ => L.y
  | _ => L.x

/-- How many elements a command of the FFT family reads and writes (R86): half the size for the real transforms. -/
def fftCount (i : Instr) (L : OperandRegs) : Nat :=
  match i with
  | .rfftIp _ | .rfftOp _ => L.n.toNat / 2
  | _ => L.n.toNat

/-- On an unspecified input every element is stored as unspecified (93 I2, log 9). -/
theorem effectStores_of_unspecified (i : Instr) (s : State) (hi : Instr.isFft i = true)
    (h : loadSplit i.prec s.mem s.latch.ops.x (fftCount i s.latch.ops) = none) :
    effectStores i s = splitStores i.prec (fftTarget i s.latch.ops) 0 (List.replicate (fftCount i s.latch.ops) none) := by
  cases i with
  | nop | twbuild | twfree | pack | unpack | conv => cases hi
  | _ =>
    simp only [Instr.prec, fftCount] at h
    simp only [effectStores, h]
    rfl

/-- The write regions of a command of the FFT family are the two components of the vector it writes. -/
theorem written_region_fft (i : Instr) (L : OperandRegs) (hi : Instr.isFft i = true) (r : Region) (hr : r ∈ regions i L)
    (hw : r.written = true) :
    r.kind = .elem ∧ r.count = fftCount i L ∧ r.stride = (fftTarget i L).stride ∧
      (r.base = (fftTarget i L).re ∨ r.base = (fftTarget i L).im) := by
  cases i with
  | nop | twbuild | twfree | pack | unpack | conv => cases hi
  | rfftOp =>
    simp only [regions, List.mem_cons, List.not_mem_nil, or_false] at hr
    rcases hr with rfl | rfl | rfl | rfl
    · cases hw
    · cases hw
    · exact ⟨rfl, rfl, rfl, .inl rfl⟩
    · exact ⟨rfl, rfl, rfl, .inr rfl⟩
  | _ =>
    simp only [regions, inPlaceRegions, List.mem_cons, List.not_mem_nil, or_false] at hr
    rcases hr with rfl | rfl
    · exact ⟨rfl, rfl, rfl, .inl rfl⟩
    · exact ⟨rfl, rfl, rfl, .inr rfl⟩

/-- Every byte a command of the FFT family may write lies in an element of the vector it writes. -/
theorem exists_slot_of_mem_writtenAddrs_fft (i : Instr) (L : OperandRegs) (hi : Instr.isFft i = true) (a : Nat)
    (ha : a ∈ writtenAddrs i L) :
    ∃ j < fftCount i L, ∃ base, (base = (fftTarget i L).re ∨ base = (fftTarget i L).im) ∧
      eaNat base (fftTarget i L).stride j i.prec ≤ a ∧ a < eaNat base (fftTarget i L).stride j i.prec + i.prec.esize := by
  obtain ⟨r, hr, hw, hra⟩ := (mem_writtenAddrs i L a).mp ha
  obtain ⟨j, hj, h1, h2⟩ := (r.mem_addrs i.prec a).mp hra
  obtain ⟨hkind, hcount, hstride, hbase⟩ := written_region_fft i L hi r hr hw
  rw [Region.slotBytes, hkind] at h2
  rw [hstride] at h1 h2
  exact ⟨j, hcount ▸ hj, r.base, hbase, h1, h2⟩

/-- Settles O35: the vector loads as unspecified, so every element is stored as unspecified. -/
theorem unspecifiedInputMarksOutput : Obligations.UnspecifiedInputMarksOutput := by
  intro i s j hi hacc hp hm hreal hj hnone
  have hcount : j < fftCount i s.latch.ops := by
    cases i with
    | rfftIp P => exact hreal P (.inl rfl)
    | rfftOp P => exact hreal P (.inr rfl)
    | _ => exact hj
  have hstores := effectStores_of_unspecified i s hi (loadSplit_eq_none _ _ _ _ j hcount hnone)
  have htw : (effect i s).2 = s.twN := effect_twN i s fun P => ⟨(by rintro rfl; cases hi), (by rintro rfl; cases hi)⟩
  refine ⟨(effect i s).1, htw ▸ exec_of_accepts i s hacc hp, fun a => ?_⟩
  split
  · rename_i ha
    obtain ⟨k, hk, base, hbase, h1, h2⟩ := exists_slot_of_mem_writtenAddrs_fft i _ hi a ha
    obtain ⟨⟨w, hw, hre⟩, ⟨u, hu, him⟩⟩ :=
      exists_mem_splitStores i.prec (fftTarget i s.latch.ops) 0 (List.replicate (fftCount i s.latch.ops) none) k (by simpa using hk)
    rw [Nat.zero_add] at hre him
    rw [effect_mem, hstores]
    refine readByte_storeAll_unspecified _ a _ (splitStores_unspecified _ _ 0 _) s.mem hm (.inr ?_)
    rcases hbase with rfl | rfl
    · exact ⟨w, hw, hre ▸ h1, hre ▸ h2⟩
    · exact ⟨u, hu, him ▸ h1, him ▸ h2⟩
  · exact effect_other i s a ‹_›

end Sys2Proof.Machine
end

section
/-! SUPPORT. What PACK and UNPACK leave in their arrays and pairs (43_pack): stores made index by index, of which a later one to the same element
wins (00_scope R19). -/

namespace Sys2Proof.Machine

/-! ### Stores made index by index -/

/-- The elements at two offsets share no byte. -/
abbrev ElemsApart (P : Prec) (a b : Nat) : Prop := a + P.esize ≤ b ∨ b + P.esize ≤ a

/-- An element reads as the store w made there at index k, where no store after w touches it. -/
theorem readElem_storeAll_range (P : Prec) (m : Memory) (hm : m.wf) (f : Nat → List (Store P)) (n k : Nat) (hk : k < n)
    (before : List (Store P)) (w : Store P) (after : List (Store P)) (hf : f k = before ++ w :: after)
    (hafter : ∀ u ∈ after, ElemsApart P w.addr u.addr)
    (hlater : ∀ j, k < j → j < n → ∀ u ∈ f j, ElemsApart P w.addr u.addr) :
    readElem P (storeAll P m ((List.range n).flatMap f)) w.addr = w.value := by
  obtain ⟨d, rfl⟩ := Nat.exists_eq_add_of_lt hk
  have hcut : (List.range (k + d + 1)).flatMap f =
      ((List.range k).flatMap f ++ before) ++ w :: (after ++ ((List.range d).map (k + 1 + ·)).flatMap f) := by
    rw [Nat.add_right_comm, List.range_add, List.range_succ]
    simp [hf]
  rw [hcut]
  refine readElem_storeAll_last P m _ w _ (.inl hm) fun u hu => ?_
  rcases List.mem_append.mp hu with hu | hu
  · exact hafter u hu
  · obtain ⟨j, hj, hu⟩ := List.mem_flatMap.mp hu
    obtain ⟨i, hi, rfl⟩ := List.mem_map.mp hj
    exact hlater _ (by omega) (by have := List.mem_range.mp hi; omega) u hu

/-! ### PACK -/

/-- The arrays PACK writes have their slots apart. -/
theorem slotsApart_pack (P : Prec) (s : State) (h : Accepts (.pack P) s) : SlotsApart P s.latch.ops.y s.latch.ops.len.toNat := by
  have hc := (commandError_eq_none_iff _ s).mpr h
  have hre : ({ id := .yRe, kind := .elem, role := .write, base := s.latch.ops.yRe, stride := s.latch.ops.yStride,
                count := s.latch.ops.len.toNat } : Region) ∈ regions (.pack P) s.latch.ops := .tail _ (.head _)
  have him : ({ id := .yIm, kind := .elem, role := .write, base := s.latch.ops.yIm, stride := s.latch.ops.yStride,
                count := s.latch.ops.len.toNat } : Region) ∈ regions (.pack P) s.latch.ops := .tail _ (.tail _ (.head _))
  exact ⟨fun j hj k hk hjk => slots_apart_of_pass _ s hc _ hre j k hj hk hjk,
    fun j hj k hk hjk => slots_apart_of_pass _ s hc _ him j k hj hk hjk,
    fun j hj k hk => regions_apart_of_pass _ s hc _ _ hre him (.head _) j k hj hk⟩

/-- PACK copies the two elements of pair k to element k of the two arrays (43_pack R220). -/
theorem readElem_pack (P : Prec) (s : State) (h : Accepts (.pack P) s) (hm : s.mem.wf) (k : Nat) (hk : k < s.latch.ops.len.toNat) :
    readElem P (effect (.pack P) s).1 (eaNat s.latch.ops.yRe s.latch.ops.yStride k P) =
        readElem P s.mem (eaNat s.latch.ops.xRe s.latch.ops.xStride k P) ∧
      readElem P (effect (.pack P) s).1 (eaNat s.latch.ops.yIm s.latch.ops.yStride k P) =
        readElem P s.mem (eaNat s.latch.ops.xRe s.latch.ops.xStride k P + P.esize) := by
  have hy := slotsApart_pack P s h
  constructor
  · refine readElem_storeAll_range P s.mem hm _ _ k hk [] ⟨_, _⟩ [_] rfl (fun u hu => ?_) fun j hkj hj u hu => ?_
    · obtain rfl := List.mem_singleton.mp hu
      exact hy.cross k hk k hk
    · simp only [packStores, List.mem_cons, List.not_mem_nil, or_false] at hu
      rcases hu with rfl | rfl
      · exact hy.re k hk j hj hkj.ne
      · exact hy.cross k hk j hj
  · refine readElem_storeAll_range P s.mem hm _ _ k hk [_] ⟨_, _⟩ [] rfl (by simp) fun j hkj hj u hu => ?_
    simp only [packStores, List.mem_cons, List.not_mem_nil, or_false] at hu
    rcases hu with rfl | rfl
    · exact (hy.cross j hj k hk).symm
    · exact hy.im k hk j hj hkj.ne

/-- Settles O36: every element of the two arrays is stored once. -/
theorem packSplitsPairs : Obligations.PackSplitsPairs := fun P s h hp hm =>
  ⟨_, exec_of_accepts _ s h hp, readElem_pack P s h hm, effect_other _ s⟩

/-! ### The offsets of pairs -/

/-- The distance of two slots of a vector (20_memory R83). -/
theorem ea_sub_ea (base stride : Word) (P : Prec) (j k : Nat) :
    ea base stride j P - ea base stride k P = ((j : Int) - k) * (stride.toInt * P.esize) := by
  rw [ea_eq, ea_eq]
  ring

section
variable {base stride : Word} {P : Prec} {n : Nat} (hcast : ∀ j < n, (eaNat base stride j P : Int) = ea base stride j P)
include hcast

/-- With a stride of size at least 2 two pairs share no byte. -/
theorem eaNat_pairs_apart (hs : 2 ≤ stride.toInt.natAbs) (j k : Nat) (hj : j < n) (hk : k < n) (hjk : j ≠ k) :
    eaNat base stride k P + 2 * P.esize ≤ eaNat base stride j P ∨ eaNat base stride j P + 2 * P.esize ≤ eaNat base stride k P := by
  have hd := ea_sub_ea base stride P j k
  have habs : 2 ≤ (((j : Int) - k) * stride.toInt).natAbs := by
    rw [Int.natAbs_mul]
    exact hs.trans (Nat.le_mul_of_pos_left _ (by omega))
  have hbytes := Nat.mul_le_mul_right P.esize habs
  rw [← Int.natAbs_natCast P.esize, ← Int.natAbs_mul, mul_assoc, ← hd, Int.natAbs_natCast] at hbytes
  have := hcast j hj
  have := hcast k hk
  omega

/-- With stride 1 consecutive slots follow one another. -/
theorem eaNat_add_of_stride_one (hs : stride.toInt = 1) (k d : Nat) (h : k + d < n) :
    eaNat base stride (k + d) P = eaNat base stride k P + d * P.esize := by
  have hd := ea_sub_ea base stride P (k + d) k
  rw [← hcast _ h, ← hcast k (by omega), hs, one_mul, Nat.cast_add, add_sub_cancel_left, ← Nat.cast_mul] at hd
  omega

/-- With stride −1 they run downwards. -/
theorem eaNat_add_of_stride_neg_one (hs : stride.toInt = -1) (k d : Nat) (h : k + d < n) :
    eaNat base stride (k + d) P + d * P.esize = eaNat base stride k P := by
  have hd := ea_sub_ea base stride P (k + d) k
  rw [← hcast _ h, ← hcast k (by omega), hs, neg_one_mul, mul_neg, Nat.cast_add, add_sub_cancel_left, ← Nat.cast_mul] at hd
  omega

end

/-- The three kinds of stride of a region that passes its checks. -/
theorem stride_cases (stride : Word) (h : stride ≠ 0) :
    2 ≤ stride.toInt.natAbs ∨ stride.toInt = 1 ∨ stride.toInt = -1 := by
  have h0 : stride.toInt ≠ 0 := fun h0 => h (BitVec.eq_of_toInt_eq (by simpa using h0))
  omega

/-! ### UNPACK -/

section
variable (P : Prec) (s : State) (hm : s.mem.wf) (k : Nat) (hk : k < s.latch.ops.len.toNat)
include hm hk

/-- The first element of pair k is element k of the real array, unless a later pair lies on it. -/
theorem readElem_unpack_first
    (h : ∀ j, k < j → j < s.latch.ops.len.toNat →
      eaNat s.latch.ops.yRe s.latch.ops.yStride k P + P.esize ≤ eaNat s.latch.ops.yRe s.latch.ops.yStride j P ∨
        eaNat s.latch.ops.yRe s.latch.ops.yStride j P + 2 * P.esize ≤ eaNat s.latch.ops.yRe s.latch.ops.yStride k P) :
    readElem P (effect (.unpack P) s).1 (eaNat s.latch.ops.yRe s.latch.ops.yStride k P) =
      loadElem P s.mem s.latch.ops.xRe s.latch.ops.xStride k := by
  refine readElem_storeAll_range P s.mem hm _ _ k hk [] ⟨_, _⟩ [_] rfl (fun u hu => ?_) fun j hkj hj u hu => ?_
  · obtain rfl := List.mem_singleton.mp hu
    exact .inl le_rfl
  · have := h j hkj hj
    simp only [unpackStores, List.mem_cons, List.not_mem_nil, or_false] at hu
    rcases hu with rfl | rfl
    · show ElemsApart P (eaNat _ _ k P) (eaNat _ _ j P)
      omega
    · show ElemsApart P (eaNat _ _ k P) (eaNat _ _ j P + P.esize)
      omega

/-- The second element of pair k is element k of the imaginary array, unless a later pair lies on it. -/
theorem readElem_unpack_second
    (h : ∀ j, k < j → j < s.latch.ops.len.toNat →
      eaNat s.latch.ops.yRe s.latch.ops.yStride k P + 2 * P.esize ≤ eaNat s.latch.ops.yRe s.latch.ops.yStride j P ∨
        eaNat s.latch.ops.yRe s.latch.ops.yStride j P + P.esize ≤ eaNat s.latch.ops.yRe s.latch.ops.yStride k P) :
    readElem P (effect (.unpack P) s).1 (eaNat s.latch.ops.yRe s.latch.ops.yStride k P + P.esize) =
      loadElem P s.mem s.latch.ops.xIm s.latch.ops.xStride k := by
  refine readElem_storeAll_range P s.mem hm _ _ k hk [_] ⟨_, _⟩ [] rfl (by simp) fun j hkj hj u hu => ?_
  have := h j hkj hj
  simp only [unpackStores, List.mem_cons, List.not_mem_nil, or_false] at hu
  rcases hu with rfl | rfl
  · show ElemsApart P (eaNat _ _ k P + P.esize) (eaNat _ _ j P)
    omega
  · show ElemsApart P (eaNat _ _ k P + P.esize) (eaNat _ _ j P + P.esize)
    omega

end

/-- The pairs UNPACK writes: a nonzero stride, and offsets that are the EAs. -/
theorem unpack_pairs (P : Prec) (s : State) (h : Accepts (.unpack P) s) (hn : s.latch.ops.len.toNat ≠ 0) :
    s.latch.ops.yStride ≠ 0 ∧ ∀ j < s.latch.ops.len.toNat,
      (eaNat s.latch.ops.yRe s.latch.ops.yStride j P : Int) = ea s.latch.ops.yRe s.latch.ops.yStride j P :=
  region_of_pass (.unpack P) s ((commandError_eq_none_iff _ s).mpr h)
    { id := .yRe, kind := .pair, role := .write, base := s.latch.ops.yRe, stride := s.latch.ops.yStride,
      count := s.latch.ops.len.toNat } (.tail _ (.tail _ (.head _))) hn

section
variable (P : Prec) (s : State) (h : Accepts (.unpack P) s) (hm : s.mem.wf) (k : Nat) (hk : k < s.latch.ops.len.toNat)
include h hm hk

/-- With a stride of size at least 2 both elements of pair k are those of index k. -/
theorem readElem_unpack_of_stride_ge_two (hs : 2 ≤ s.latch.ops.yStride.toInt.natAbs) :
    readElem P (effect (.unpack P) s).1 (eaNat s.latch.ops.yRe s.latch.ops.yStride k P) =
        loadElem P s.mem s.latch.ops.xRe s.latch.ops.xStride k ∧
      readElem P (effect (.unpack P) s).1 (eaNat s.latch.ops.yRe s.latch.ops.yStride k P + P.esize) =
        loadElem P s.mem s.latch.ops.xIm s.latch.ops.xStride k := by
  have hapart := fun j (hkj : k < j) hj => eaNat_pairs_apart (unpack_pairs P s h (by omega)).2 hs j k hj hk hkj.ne'
  constructor
  · exact readElem_unpack_first P s hm k hk fun j hkj hj => (hapart j hkj hj).imp_left (by omega)
  · exact readElem_unpack_second P s hm k hk fun j hkj hj => (hapart j hkj hj).imp_right (by omega)

/-- With stride 1 the first element of pair k is that of index k: the second element of the pair before was stored earlier. -/
theorem readElem_unpack_first_of_stride_one (hs : s.latch.ops.yStride.toInt = 1) :
    readElem P (effect (.unpack P) s).1 (eaNat s.latch.ops.yRe s.latch.ops.yStride k P) =
      loadElem P s.mem s.latch.ops.xRe s.latch.ops.xStride k := by
  refine readElem_unpack_first P s hm k hk fun j hkj hj => .inl ?_
  obtain ⟨d, rfl⟩ := Nat.exists_eq_add_of_lt hkj
  have hnext := eaNat_add_of_stride_one (unpack_pairs P s h (by omega)).2 hs k (d + 1) hj
  rw [Nat.add_mul, Nat.one_mul] at hnext
  rw [Nat.add_assoc, hnext]
  omega

/-- With stride 1 the second element of pair k is the first of the next pair, if there is one. -/
theorem readElem_unpack_second_of_stride_one (hs : s.latch.ops.yStride.toInt = 1) :
    readElem P (effect (.unpack P) s).1 (eaNat s.latch.ops.yRe s.latch.ops.yStride k P + P.esize) =
      if k + 1 < s.latch.ops.len.toNat then loadElem P s.mem s.latch.ops.xRe s.latch.ops.xStride (k + 1)
      else loadElem P s.mem s.latch.ops.xIm s.latch.ops.xStride k := by
  split
  · rename_i hlt
    have hnext := eaNat_add_of_stride_one (unpack_pairs P s h (by omega)).2 hs k 1 hlt
    rw [← readElem_unpack_first_of_stride_one P s h hm (k + 1) hlt hs, hnext, Nat.one_mul]
  · exact readElem_unpack_second P s hm k hk fun j hkj hj => by omega

/-- With stride −1 the second element of pair k is that of index k: the first element of the pair before was stored earlier. -/
theorem readElem_unpack_second_of_stride_neg_one (hs : s.latch.ops.yStride.toInt = -1) :
    readElem P (effect (.unpack P) s).1 (eaNat s.latch.ops.yRe s.latch.ops.yStride k P + P.esize) =
      loadElem P s.mem s.latch.ops.xIm s.latch.ops.xStride k := by
  refine readElem_unpack_second P s hm k hk fun j hkj hj => .inr ?_
  obtain ⟨d, rfl⟩ := Nat.exists_eq_add_of_lt hkj
  have hnext := eaNat_add_of_stride_neg_one (unpack_pairs P s h (by omega)).2 hs k (d + 1) hj
  rw [Nat.add_mul, Nat.one_mul] at hnext
  rw [Nat.add_assoc]
  omega

/-- With stride −1 the first element of pair k is the second of the next pair, if there is one. -/
theorem readElem_unpack_first_of_stride_neg_one (hs : s.latch.ops.yStride.toInt = -1) :
    readElem P (effect (.unpack P) s).1 (eaNat s.latch.ops.yRe s.latch.ops.yStride k P) =
      if k + 1 < s.latch.ops.len.toNat then loadElem P s.mem s.latch.ops.xIm s.latch.ops.xStride (k + 1)
      else loadElem P s.mem s.latch.ops.xRe s.latch.ops.xStride k := by
  split
  · rename_i hlt
    have hnext := eaNat_add_of_stride_neg_one (unpack_pairs P s h (by omega)).2 hs k 1 hlt
    rw [← readElem_unpack_second_of_stride_neg_one P s h hm (k + 1) hlt hs, ← hnext, Nat.one_mul]
  · exact readElem_unpack_first P s hm k hk fun j hkj hj => by omega

end

/-- Settles O37: the stride decides which later pairs lie on an element. -/
theorem unpackInterleaves : Obligations.UnpackInterleaves := by
  intro P s h hp hm
  refine ⟨_, exec_of_accepts _ s h hp, fun k hk => ⟨fun hs => ?_, fun hs => ?_, fun hs => ?_⟩, effect_other _ s⟩
  · exact readElem_unpack_of_stride_ge_two P s h hm k hk hs
  · exact ⟨readElem_unpack_first_of_stride_one P s h hm k hk hs, fun hlast =>
      (readElem_unpack_second_of_stride_one P s h hm k hk hs).trans (if_neg hlast.not_lt)⟩
  · exact ⟨readElem_unpack_first_of_stride_neg_one P s h hm k hk hs, fun _ =>
      readElem_unpack_second_of_stride_neg_one P s h hm k hk hs⟩

/-! ### UNPACK after PACK -/

/-- The pairs PACK reads: offsets that are the EAs. -/
theorem pack_pairs (P : Prec) (s : State) (h : Accepts (.pack P) s) (j : Nat) (hj : j < s.latch.ops.len.toNat) :
    (eaNat s.latch.ops.xRe s.latch.ops.xStride j P : Int) = ea s.latch.ops.xRe s.latch.ops.xStride j P :=
  (region_of_pass (.pack P) s ((commandError_eq_none_iff _ s).mpr h)
    { id := .xRe, kind := .pair, role := .read, base := s.latch.ops.xRe, stride := s.latch.ops.xStride,
      count := s.latch.ops.len.toNat } (.head _) (Nat.ne_of_gt (Nat.zero_lt_of_lt hj))).2 j hj

/-- Settles O38: where two pairs share an element, PACK read one element for both, so the later write stores what the earlier did. -/
theorem unpackUndoesPack : Obligations.UnpackUndoesPack := by
  intro P s t u v hs hps hm hst hmem hu hpu huv hlen hxre hxim hxs hys k hk
  have htm := mem_of_exec hs hps hst
  have hum : u.mem.wf := by
    rw [hmem, htm]
    exact effect_wf _ s hm
  have hre : ∀ j < s.latch.ops.len.toNat, loadElem P u.mem u.latch.ops.xRe u.latch.ops.xStride j =
      readElem P s.mem (eaNat s.latch.ops.xRe s.latch.ops.xStride j P) := fun j hj => by
    rw [loadElem, hmem, htm, hxre, hxs, (readElem_pack P s hs hm j hj).1]
  have him : ∀ j < s.latch.ops.len.toNat, loadElem P u.mem u.latch.ops.xIm u.latch.ops.xStride j =
      readElem P s.mem (eaNat s.latch.ops.xRe s.latch.ops.xStride j P + P.esize) := fun j hj => by
    rw [loadElem, hmem, htm, hxim, hxs, (readElem_pack P s hs hm j hj).2]
  have hx := pack_pairs P s hs
  have hk' : k < u.latch.ops.len.toNat := hlen ▸ hk
  rw [mem_of_exec hu hpu huv]
  rcases stride_cases _ (unpack_pairs P u hu (by omega)).1 with h | h | h
  · obtain ⟨h1, h2⟩ := readElem_unpack_of_stride_ge_two P u hu hum k hk' h
    exact ⟨h1.trans (hre k hk), h2.trans (him k hk)⟩
  · refine ⟨(readElem_unpack_first_of_stride_one P u hu hum k hk' h).trans (hre k hk), ?_⟩
    rw [readElem_unpack_second_of_stride_one P u hu hum k hk' h, hlen]
    split
    · rename_i hlt
      rw [hre _ hlt, eaNat_add_of_stride_one hx (hys ▸ h) k 1 hlt, Nat.one_mul]
    · exact him k hk
  · refine ⟨?_, (readElem_unpack_second_of_stride_neg_one P u hu hum k hk' h).trans (him k hk)⟩
    rw [readElem_unpack_first_of_stride_neg_one P u hu hum k hk' h, hlen]
    split
    · rename_i hlt
      rw [him _ hlt, ← eaNat_add_of_stride_neg_one hx (hys ▸ h) k 1 hlt, Nat.one_mul]
    · exact hre k hk

end Sys2Proof.Machine
end

section
/-! SUPPORT. CONV (44_conv): where its outputs stand, what each depends on, and the filter read backwards (R232). -/

namespace Sys2Proof.Machine

/-- Output i of CONV is stored in element i of the result, and no other output touches it (44_conv R230). -/
theorem loadElem_conv (P : Prec) (s : State) (h : Accepts (.conv P) s) (hm : s.mem.wf) (i : Nat) (hi : i < s.latch.ops.len.toNat) :
    loadElem P (effect (.conv P) s).1 s.latch.ops.yRe s.latch.ops.yStride i = convOutput P s.mem s.latch.ops i := by
  have hc := (commandError_eq_none_iff _ s).mpr h
  rw [loadElem, effect, List.map_eq_flatMap]
  refine readElem_storeAll_range P s.mem hm _ _ i hi [] (convStore P s.mem s.latch.ops i) [] rfl nofun fun j hij hj u hu => ?_
  obtain rfl := List.mem_singleton.mp hu
  exact slots_apart_of_pass (.conv P) s hc
    { id := .yRe, kind := .elem, role := .write, base := s.latch.ops.yRe, stride := s.latch.ops.yStride,
      count := s.latch.ops.len.toNat } (.tail _ (.head _)) i j hi hj hij.ne

/-- Output i depends on its window of the signal and on the filter alone. -/
theorem convOutput_congr (P : Prec) (m m' : Memory) (L L' : OperandRegs) (i : Nat) (hf : L'.flen = L.flen)
    (hsignal : ∀ j < L.flen.toNat, loadElem P m' L'.xRe L'.xStride (i + j) = loadElem P m L.xRe L.xStride (i + j))
    (hfilter : ∀ j < L.flen.toNat, loadElem P m' L'.fBase L'.fStride j = loadElem P m L.fBase L.fStride j) :
    convOutput P m' L' i = convOutput P m L i := by
  rw [convOutput, convOutput, hf]
  congr 2
  refine List.map_congr_left fun j hj => ?_
  have hj := List.mem_range.mp hj
  rw [convTerm, convTerm, hsignal j hj, hfilter j hj]

/-- Element j of a vector read upwards from b. -/
theorem eaNat_of_stride_one (base stride : Word) (j : Nat) (P : Prec) (h : stride.toInt = 1) :
    eaNat base stride j P = base.toNat + j * P.esize := by
  rw [eaNat, ea, h, mul_one]
  exact Int.toNat_natCast (base.toNat + j * P.esize)

/-- Element j of n elements stored from b and read from the last one downwards. -/
theorem eaNat_of_stride_neg_one (base stride : Word) (b n j : Nat) (P : Prec) (h : stride.toInt = -1)
    (hb : base.toNat = b + (n - 1) * P.esize) (hj : j < n) : eaNat base stride j P = b + (n - 1 - j) * P.esize := by
  have hn : (n - 1) * P.esize = (n - 1 - j) * P.esize + j * P.esize := by
    rw [← Nat.add_mul, Nat.sub_add_cancel (by omega)]
  rw [eaNat, ea, h, hb, hn]
  push_cast
  rw [mul_neg_one, neg_mul]
  omega

/-- Settles O40: element j of the filter is the same element in both runs, and so is every window of the signal. -/
theorem reversedFilterIsReversedStride : Obligations.ReversedFilterIsReversedStride := by
  intro P s s' t t' b b' h h' hp hp' hm hm' ht ht' hb hs hb' hs' hflen hlen hfilter hsignal i hi
  rw [mem_of_exec h hp ht, mem_of_exec h' hp' ht', loadElem_conv P s h hm i hi, loadElem_conv P s' h' hm' i (hlen ▸ hi)]
  refine convOutput_congr P _ _ _ _ i hflen (fun j hj => hsignal _ ?_) fun j hj => ?_
  · rw [signalCount, if_pos (by omega)]
    omega
  · rw [loadElem, loadElem, eaNat_of_stride_one _ _ j P hs', eaNat_of_stride_neg_one _ _ b _ j P hs hb hj, hb']
    exact hfilter j hj

end Sys2Proof.Machine
end

section
/-! SUPPORT. The command word (30_encoding): its five fields, the triples (OP, PREC, STAGE) that are commands, and decoding as a statement about the
fields, from which both directions of decode and encode, and the words that are ILLEGAL, follow. -/

namespace Sys2Proof

/-! ### The fields of a word (R120) -/

/-- Word w has the fields of command i, and zeros in its reserved bits (R120, R124). -/
structure IsWordOf (w : Word) (i : Instr) : Prop where
  op : w.toNat % 64 = i.op
  prec : w.toNat / 64 % 2 = i.prec.bit
  rsv0 : w.toNat / 128 % 2 = 0
  stage : w.toNat / 256 % 32 = i.stage
  rsv1 : w.toNat / 8192 = 0

/-- The five fields cover the 32 bits. -/
theorem IsWordOf.unique {v w : Word} {i : Instr} (hv : IsWordOf v i) (hw : IsWordOf w i) : v = w := by
  obtain ⟨hop, hprec, hrsv0, hstage, hrsv1⟩ := hv
  obtain ⟨hop', hprec', hrsv0', hstage', hrsv1'⟩ := hw
  apply BitVec.eq_of_toNat_eq
  omega

theorem IsWordOf.wf {w : Word} {i : Instr} (h : IsWordOf w i) : i.wf = true := by
  rw [Instr.wf, ← h.stage]
  exact decide_eq_true (Nat.mod_lt _ (by decide))

theorem wordFields (i : Instr) : Laws.WordFields.Statement i := by
  cases i with
  | nop P => exact Laws.WordFields.nop P
  | twbuild P => exact Laws.WordFields.twbuild P
  | twfree P => exact Laws.WordFields.twfree P
  | bitrev P => exact Laws.WordFields.bitrev P
  | bflyF P st => exact Laws.WordFields.bflyF P st
  | bflyI P st => exact Laws.WordFields.bflyI P st
  | fftF P => exact Laws.WordFields.fftF P
  | fftI P => exact Laws.WordFields.fftI P
  | rfftIp P => exact Laws.WordFields.rfftIp P
  | rfftOp P => exact Laws.WordFields.rfftOp P
  | pack P => exact Laws.WordFields.pack P
  | unpack P => exact Laws.WordFields.unpack P
  | conv P => exact Laws.WordFields.conv P

theorem isWordOf_encode (i : Instr) (h : i.wf = true) : IsWordOf (encode i) i :=
  have ⟨hop, hprec, hrsv0, hstage, hrsv1⟩ := wordFields i h
  ⟨hop, hprec, hrsv0, hstage, hrsv1⟩

/-! ### The fields as the decoder reads them (R11) -/

@[simp] theorem field_op (w : Word) : field w 0 6 = w.toNat % 64 := by
  rw [field, pow_zero, Nat.div_one]
  rfl

@[simp] theorem field_prec (w : Word) : field w 6 1 = w.toNat / 64 % 2 := rfl

@[simp] theorem field_rsv0 (w : Word) : field w 7 1 = w.toNat / 128 % 2 := rfl

@[simp] theorem field_stage (w : Word) : field w 8 5 = w.toNat / 256 % 32 := rfl

@[simp] theorem field_rsv1 (w : Word) : field w 13 19 = w.toNat / 8192 :=
  Nat.mod_eq_of_lt (by have := w.isLt; omega)

@[simp] theorem Prec.ofBit_bit (P : Prec) : Prec.ofBit P.bit = P := by
  cases P <;> rfl

theorem Prec.bit_ofBit (b : Nat) (h : b < 2) : (Prec.ofBit b).bit = b := by
  obtain rfl | rfl := Nat.le_one_iff_eq_zero_or_eq_one.mp (Nat.le_of_lt_succ h) <;> rfl

/-! ### The opcode map (R121) -/

@[simp] theorem Instr.ofOp_op (i : Instr) : Instr.ofOp i.op i.prec i.stage = some i := by
  cases i <;> rfl

theorem Instr.op_prec_of_ofOp {op st : Nat} {P : Prec} {i : Instr} (h : Instr.ofOp op P st = some i) : i.op = op ∧ i.prec = P := by
  unfold Instr.ofOp at h
  split at h <;> cases h <;> exact ⟨rfl, rfl⟩

/-- The opcodes that stand in the map. -/
def opcodes : List Nat := [0x00, 0x01, 0x02, 0x08, 0x09, 0x0A, 0x0B, 0x0C, 0x0D, 0x0E, 0x10, 0x11, 0x18]

theorem Instr.op_mem_opcodes (i : Instr) : i.op ∈ opcodes := by
  cases i <;> simp [Instr.op, opcodes]

/-- Only BFLY.F and BFLY.I have a STAGE (R123). -/
theorem Instr.stage_eq_zero (i : Instr) (h : i.op ∉ [0x09, 0x0A]) : i.stage = 0 := by
  cases i with
  | bflyF => exact absurd (.head _) h
  | bflyI => exact absurd (.tail _ (.head _)) h
  | _ => rfl

/-- An opcode of the map, a precision, and a STAGE that is 0 outside BFLY.F and BFLY.I are the fields of a command. -/
theorem Instr.exists_of_fields (op st : Nat) (P : Prec) (hop : op ∈ opcodes) (hst : op ∉ [0x09, 0x0A] → st = 0) :
    ∃ i : Instr, i.op = op ∧ i.prec = P ∧ i.stage = st := by
  by_cases hb : op ∈ [0x09, 0x0A]
  · fin_cases hb
    · exact ⟨.bflyF P st, rfl, rfl, rfl⟩
    · exact ⟨.bflyI P st, rfl, rfl, rfl⟩
  · obtain rfl := hst hb
    fin_cases hop
    · exact ⟨.nop P, rfl, rfl, rfl⟩
    · exact ⟨.twbuild P, rfl, rfl, rfl⟩
    · exact ⟨.twfree P, rfl, rfl, rfl⟩
    · exact ⟨.bitrev P, rfl, rfl, rfl⟩
    · exact ⟨.bflyF P 0, rfl, rfl, rfl⟩
    · exact ⟨.bflyI P 0, rfl, rfl, rfl⟩
    · exact ⟨.fftF P, rfl, rfl, rfl⟩
    · exact ⟨.fftI P, rfl, rfl, rfl⟩
    · exact ⟨.rfftIp P, rfl, rfl, rfl⟩
    · exact ⟨.rfftOp P, rfl, rfl, rfl⟩
    · exact ⟨.pack P, rfl, rfl, rfl⟩
    · exact ⟨.unpack P, rfl, rfl, rfl⟩
    · exact ⟨.conv P, rfl, rfl, rfl⟩

/-! ### Decoding (R125) -/

/-- Decoding answers the command whose fields the word has; `isWordOf_of_decode` is the converse. -/
theorem IsWordOf.decode_eq {w : Word} {i : Instr} (h : IsWordOf w i) : decode w = .ok i := by
  simp [decode, h.op, h.prec, h.rsv0, h.stage, h.rsv1]

theorem isWordOf_of_decode {w : Word} {i : Instr} (h : decode w = .ok i) : IsWordOf w i := by
  unfold decode at h
  split at h
  case isTrue => cases h
  case isFalse hrsv =>
    split at h
    case h_1 => cases h
    case h_2 j hj =>
      split at h
      case isTrue => cases h
      case isFalse hstage =>
        cases h
        simp only [field_op, field_prec, field_rsv0, field_stage, field_rsv1, not_or, not_not] at hrsv hj hstage
        obtain ⟨hop, hprec⟩ := Instr.op_prec_of_ofOp hj
        refine ⟨hop.symm, ?_, hrsv.1, hstage.symm, hrsv.2⟩
        rw [hprec, Prec.bit_ofBit _ (Nat.mod_lt _ (by decide))]

/-- The words that are ILLEGAL, as R125's pseudocode has them. -/
def IllegalWord (w : Word) : Prop :=
  w.toNat / 128 % 2 ≠ 0 ∨ w.toNat / 8192 ≠ 0 ∨ w.toNat % 64 ∉ opcodes ∨ (w.toNat % 64 ∉ [0x09, 0x0A] ∧ w.toNat / 256 % 32 ≠ 0)

theorem IsWordOf.not_illegal {w : Word} {i : Instr} (h : IsWordOf w i) : ¬ IllegalWord w := by
  rintro (hrsv0 | hrsv1 | hop | ⟨hop, hstage⟩)
  · exact hrsv0 h.rsv0
  · exact hrsv1 h.rsv1
  · exact hop (h.op ▸ i.op_mem_opcodes)
  · exact hstage (h.stage.trans (i.stage_eq_zero (h.op ▸ hop)))

theorem exists_isWordOf {w : Word} (h : ¬ IllegalWord w) : ∃ i, IsWordOf w i := by
  simp only [IllegalWord, not_or, not_and, not_not] at h
  obtain ⟨hrsv0, hrsv1, hop, hstage⟩ := h
  obtain ⟨i, hi, hP, hs⟩ := Instr.exists_of_fields _ _ (Prec.ofBit (w.toNat / 64 % 2)) hop hstage
  exact ⟨i, hi.symm, by rw [hP, Prec.bit_ofBit _ (Nat.mod_lt _ (by decide))], hrsv0, hs.symm, hrsv1⟩

theorem IllegalWord.decode_eq_error {w : Word} (h : IllegalWord w) : ∃ e, decode w = .error e := by
  cases hd : decode w with
  | error e => exact ⟨e, rfl⟩
  | ok i => exact absurd h (isWordOf_of_decode hd).not_illegal

/-- RSV0 is bit 7 and RSV1 is bits [31:13] (R124). -/
theorem illegalWord_of_reserved_bit {w : Word} {b : Nat} (hb : b = 7 ∨ (13 ≤ b ∧ b < 32)) (h : w.getLsbD b = true) : IllegalWord w := by
  obtain rfl | ⟨hlo, _⟩ := hb
  · left
    have hbit : w.toNat / 2 ^ 7 % 2 = 1 :=
      of_decide_eq_true (Nat.testBit_eq_decide_div_mod_eq.symm.trans h)
    omega
  · right; left
    intro hrsv1
    have hlt : w.toNat < 2 ^ b :=
      calc w.toNat < 2 ^ 13 := by omega
        _ ≤ 2 ^ b := Nat.pow_le_pow_right (by decide) hlo
    exact absurd h (Bool.eq_false_iff.mp (Nat.testBit_lt_two_pow hlt))

/-! ### Decode and encode agree (R125, R128) -/

/-- Settles O1: the encoding has the fields of the command. -/
theorem decodeOfEncode : Obligations.DecodeOfEncode := fun i h => (isWordOf_encode i h).decode_eq

/-- Settles O2: the word and the encoding have the same fields, so they are the same word. -/
theorem encodeOfDecode : Obligations.EncodeOfDecode := by
  intro w i hd
  have hw := isWordOf_of_decode hd
  exact ⟨hw.wf, (isWordOf_encode i hw.wf).unique hw⟩

/-- Settles O5: six closed words, each decoded. -/
theorem specWordsDecode : Obligations.SpecWordsDecode := by
  refine ⟨?_, ?_, ?_, ?_, ?_, ?_⟩ <;> decide

end Sys2Proof
end

section
/-! SUPPORT. Completions that are not a plain success or a failed check: an ILLEGAL word (30_encoding R125), and a soft reset performed in the same step
(70_reset R282). -/

namespace Sys2Proof.Machine

/-! ### ILLEGAL words (30_encoding R125) -/

theorem step_of_illegal (s : State) (ht : s.turn = .completion) (hd : ∃ e, decode s.latch.cmd = .error e) : step s = completeIllegal s := by
  obtain ⟨e, he⟩ := hd
  rw [step, ht, he]

/-- An ILLEGAL word reports ILLEGAL_CMD and does nothing else; the latch stays (log 3). -/
theorem step_of_illegal_failed (s : State) (ht : s.turn = .completion) (hd : ∃ e, decode s.latch.cmd = .error e) (hp : s.srstPending = false) :
    ∃ l, step s = .next { s.failed { code := .illegalCmd, src := none } with latch := l } :=
  ⟨s.latch, (step_of_illegal s ht hd).trans (finishError_eq _ s hp)⟩

/-- Settles O3: a reserved bit makes the word ILLEGAL. -/
theorem reservedBitsDecodeToIllegal : Obligations.ReservedBitsDecodeToIllegal := by
  intro w b hb h
  have hd := (illegalWord_of_reserved_bit hb h).decode_eq_error
  exact ⟨hd, fun s hw ht hp => step_of_illegal_failed s ht (hw ▸ hd) hp⟩

/-- Settles O4: an ILLEGAL word decodes to no command, and any other word has the fields of one. -/
theorem decodeFollowsPseudocode : Obligations.DecodeFollowsPseudocode := by
  intro w op st illegal
  refine ⟨fun h => ?_, fun h => ?_⟩
  · have hd := IllegalWord.decode_eq_error h
    exact ⟨hd, fun s hw ht hp => step_of_illegal_failed s ht (hw ▸ hd) hp⟩
  · obtain ⟨i, hi⟩ := exists_isWordOf h
    refine ⟨i, hi.decode_eq, hi.op.symm, ?_, hi.stage.symm⟩
    rw [hi.prec]
    exact (Prec.ofBit_bit i.prec).symm

/-! ### A pending soft reset (70_reset R282) -/

theorem finishError_pending (e : CmdError) (s : State) (h : s.srstPending = true) : finishError e s = .next s.softReset := by
  rw [finishError, complete_pending _ s h]

theorem finishOk_pending (m : Memory) (w : Word) (s : State) (h : s.srstPending = true) :
    finishOk m w s = .next ({ s with mem := m } : State).softReset :=
  congrArg Host.Outcome.next (complete_pending none { s with mem := m, twN := w } h)

/-- A command checks and stores the same with a soft reset pending as without, and the reset is performed as it completes. -/
theorem exec_pending (i : Instr) (s : State) (h : s.srstPending = true) :
    ∃ t u, exec i { s with srstPending := false } = .next t ∧ exec i s = .next u ∧ u.mem = t.mem ∧ ResetRegisters s u := by
  have hchecks : commandError i { s with srstPending := false } = commandError i s := commandError_congr i rfl rfl rfl
  have heffect : effect i { s with srstPending := false } = effect i s := effect_congr i rfl rfl rfl
  rw [exec_eq i { s with srstPending := false }, exec_eq i s, hchecks, heffect]
  cases commandError i s with
  | some e => exact ⟨_, _, finishError_eq e _ rfl, finishError_pending e s h, rfl, rfl⟩
  | none => exact ⟨_, _, finishOk_eq _ _ _ rfl, finishOk_pending _ _ s h, rfl, rfl⟩

/-- Settles O12: the completion is that of a command or of an ILLEGAL word, and each ends in the reset. -/
theorem pendingSoftResetAtCompletion : Obligations.PendingSoftResetAtCompletion := by
  intro s h
  refine ⟨fun i => exec_pending i s h, fun ht => ?_⟩
  cases hd : decode s.latch.cmd with
  | ok i =>
    obtain ⟨_, u, _, hu, _, hreset⟩ := exec_pending i s h
    exact ⟨u, (step_of_completion s i ht hd).trans hu, hreset, nofun⟩
  | error e =>
    exact ⟨s.softReset, (step_of_illegal s ht ⟨e, hd⟩).trans (finishError_pending _ s h), resetRegisters_softReset s, fun _ => rfl⟩

end Sys2Proof.Machine
end

section
/-! SUPPORT. What BITREV, the butterfly stages and the whole transforms leave in X (42_fft R190 to R194): one lemma for the commands that transform X in
place, and the elements of a bit reversal (40_datapath R160) and of a stage (R159). -/

namespace Sys2Proof.Machine

/-! ### Elements of a transformed vector -/

section
variable {α : Type} (A : Arith α)

theorem elemAt_map_range (n : Nat) (z : Nat → Cplx α) (i : Nat) (hi : i < n) : elemAt A ((List.range n).map z) i = z i := by
  rw [elemAt_of_lt A _ i (by simpa using hi), List.getElem_map, List.getElem_range]

/-- The bit reversal of a vector of 2^k elements takes every element from inside the vector (R160). -/
theorem elemAt_bitRev_map_range (n : Nat) (hn : ∃ k, n = 2 ^ k) (z : Nat → Cplx α) (i : Nat) (hi : i < n) :
    elemAt A (bitRev A ((List.range n).map z)) i = z (bitRevIndex n.log2 i) := by
  obtain ⟨k, rfl⟩ := hn
  rw [elemAt_bitRev A _ i (by simpa using hi), List.length_map, List.length_range, Nat.log2_two_pow,
    elemAt_map_range A _ z _ (bitRevIndex_lt k i)]

/-- A stage replaces the pair at position j of the block at b by its butterfly (R158, R159). -/
theorem elemAt_stage_pair (z : List (Cplx α)) (st : Nat) (dir : Dir) (k b j : Nat) (hst : 1 ≤ st) (hb : 2 ^ st ∣ b)
    (hj : j < 2 ^ (st - 1)) (hlen : b + j + 2 ^ (st - 1) < z.length) :
    let out := bfly A (elemAt A z (b + j)) (elemAt A z (b + j + 2 ^ (st - 1))) (twiddle A k (j * (2 ^ k / 2 ^ st)) dir)
    elemAt A (stage A z st dir k) (b + j) = out.1 ∧ elemAt A (stage A z st dir k) (b + j + 2 ^ (st - 1)) = out.2 := by
  have hm : 2 ^ st = 2 * 2 ^ (st - 1) := by rw [← pow_succ', Nat.sub_add_cancel hst]
  have hhalf : 2 ^ st / 2 = 2 ^ (st - 1) := by omega
  obtain ⟨c, rfl⟩ := hb
  have upper : (2 ^ st * c + j) % 2 ^ st = j := by rw [Nat.mul_add_mod, Nat.mod_eq_of_lt (by omega)]
  have lower : (2 ^ st * c + j + 2 ^ (st - 1)) % 2 ^ st = j + 2 ^ (st - 1) := by
    rw [Nat.add_assoc, Nat.mul_add_mod, Nat.mod_eq_of_lt (by omega)]
  constructor
  · rw [elemAt_stage A z st dir k _ (by omega), stageElem, upper, hhalf, if_pos hj]
  · rw [elemAt_stage A z st dir k _ hlen, stageElem, lower, hhalf, if_neg (by omega), Nat.add_sub_cancel, Nat.add_sub_cancel]

end

/-! ### Commands that transform X in place -/

/-- A command that passes its checks and transforms n elements of X in place leaves the transform of the loaded vector in X, and changes nothing
outside its write regions (42_fft R198). -/
theorem exec_inPlace (i : Instr) (s : State) (n : Nat) (f : List (Cplx (Elem i.prec)) → List (Cplx (Elem i.prec)))
    (z : Nat → Cplx (Elem i.prec)) (heff : effect i s = (transform i.prec s.mem s.latch.ops.x s.latch.ops.x n f, s.twN))
    (hr : regions i s.latch.ops = inPlaceRegions s.latch.ops n) (hp : overlapPairs i = [(.xRe, .xIm)])
    (hf : ∀ z, (f z).length = z.length) (h : Accepts i s) (hs : s.srstPending = false)
    (hz : ∀ j < n, loadCplx i.prec s.mem s.latch.ops.x j = some (z j)) :
    ∃ m, exec i s = .next (s.succeeded m s.twN) ∧
      (∀ j < n, loadCplx i.prec m s.latch.ops.x j = some (elemAt (ieee i.prec) (f ((List.range n).map z)) j)) ∧
      ∀ a, a ∉ writtenAddrs i s.latch.ops → m.readByte a = s.mem.readByte a := by
  have hexec := exec_of_accepts i s h hs
  have hframe := effect_other i s
  rw [heff] at hexec hframe
  have hapart := slotsApart_inPlace i s n hr hp ((commandError_eq_none_iff i s).mpr h)
  exact ⟨_, hexec, loadCplx_transform i.prec s.mem _ _ n f hf z hz hapart, hframe⟩

/-- Settles O28: BITREV transforms X in place by the bit reversal. -/
theorem bitrevPermutes : Obligations.BitrevPermutes := by
  intro P s z h hs hz
  obtain ⟨m, hexec, hload, hframe⟩ := exec_inPlace (.bitrev P) s _ (bitRev (ieee P)) z rfl rfl rfl (bitRev_length _) h hs hz
  obtain ⟨k, _, _, hn⟩ := h.size rfl
  exact ⟨m, hexec, fun j hj => (hload j hj).trans (congrArg some (elemAt_bitRev_map_range (ieee P) _ ⟨k, hn⟩ z j hj)), hframe⟩

/-! ### Butterfly stages -/

/-- Where X holds stage st of a vector of 2^k elements, every pair of X holds a butterfly (R191, R192). -/
theorem loadCplx_stage_pair (P : Prec) (m : Memory) (v : SplitVec) (z : Nat → Cplx (Elem P)) (st k n : Nat) (dir : Dir)
    (hn : n = 2 ^ k) (hst : 1 ≤ st ∧ 2 ^ st ≤ n)
    (hload : ∀ j < n, loadCplx P m v j = some (elemAt (ieee P) (stage (ieee P) ((List.range n).map z) st dir n.log2) j))
    (b j : Nat) (hb : 2 ^ st ∣ b) (hbn : b < n) (hj : j < 2 ^ (st - 1)) :
    let out := bfly (ieee P) (z (b + j)) (z (b + j + 2 ^ (st - 1))) (twiddle (ieee P) n.log2 (j * (n / 2 ^ st)) dir)
    loadCplx P m v (b + j) = some out.1 ∧ loadCplx P m v (b + j + 2 ^ (st - 1)) = some out.2 := by
  have hm : 2 ^ st = 2 * 2 ^ (st - 1) := by rw [← pow_succ', Nat.sub_add_cancel hst.1]
  have hdvd : 2 ^ st ∣ n := by
    rw [hn] at hst ⊢
    exact pow_dvd_pow 2 ((Nat.pow_le_pow_iff_right (by decide)).mp hst.2)
  have hlast : b + 2 ^ st ≤ n := Nat.le_of_lt_add_of_dvd (by omega) (Nat.dvd_add_self_right.mpr hb) hdvd
  have hlt : b + j + 2 ^ (st - 1) < n := by omega
  have hpow : 2 ^ n.log2 = n := by rw [hn, Nat.log2_two_pow]
  have hpair := elemAt_stage_pair (ieee P) ((List.range n).map z) st dir n.log2 b j hst.1 hb hj (by simpa using hlt)
  rw [elemAt_map_range _ n z _ (by omega), elemAt_map_range _ n z _ hlt, hpow] at hpair
  rw [hload _ (by omega), hload _ hlt, hpair.1, hpair.2]
  exact ⟨rfl, rfl⟩

/-- Settles O29: the forward stage, pair by pair. -/
theorem forwardStageOfButterflies : Obligations.ForwardStageOfButterflies := by
  intro P st s z h hs hz
  obtain ⟨m, hexec, hload, hframe⟩ := exec_inPlace (.bflyF P st) s _ (fun z => stage (ieee P) z st .fwd s.log2N) z rfl rfl rfl
    (fun z => stage_length _ z _ _ _) h hs hz
  obtain ⟨k, _, _, hn⟩ := h.size rfl
  exact ⟨m, hexec, loadCplx_stage_pair P m _ z st k _ .fwd hn (h.stage rfl) hload, hframe⟩

/-- Settles O30: the inverse stage, pair by pair. -/
theorem inverseStageOfButterflies : Obligations.InverseStageOfButterflies := by
  intro P st s z h hs hz
  obtain ⟨m, hexec, hload, hframe⟩ := exec_inPlace (.bflyI P st) s _ (fun z => stage (ieee P) z st .inv s.log2N) z rfl rfl rfl
    (fun z => stage_length _ z _ _ _) h hs hz
  obtain ⟨k, _, _, hn⟩ := h.size rfl
  exact ⟨m, hexec, loadCplx_stage_pair P m _ z st k _ .inv hn (h.stage rfl) hload, hframe⟩

/-! ### Whole transforms -/

/-- Settles O31: FFT.F transforms X in place by the forward transform. -/
theorem forwardFftResult : Obligations.ForwardFftResult := fun P s z h hs hz =>
  exec_inPlace (.fftF P) s _ (fft (ieee P) .fwd s.log2N) z rfl rfl rfl (fft_length _ _ _) h hs hz

/-- Settles O32: FFT.I transforms X in place by the inverse transform. -/
theorem inverseFftResult : Obligations.InverseFftResult := fun P s z h hs hz =>
  exec_inPlace (.fftI P) s _ (fft (ieee P) .inv s.log2N) z rfl rfl rfl (fft_length _ _ _) h hs hz

end Sys2Proof.Machine
end

section
/-! SUPPORT. NaNs, infinities and signed zeros (40_datapath R151, R152): what the special elements mean, and what an addition or a multiplication can
answer. -/

namespace Sys2Proof.Machine

/-! ### The special elements -/

theorem unpack_infinity (P : Prec) (s : Bool) : unpack P (infinity P s) = .inf s := by
  cases P <;> cases s <;> decide

theorem unpack_zero (P : Prec) (s : Bool) : unpack P (zero P s) = .finite s 0 := by
  cases P <;> cases s <;> decide

theorem fneg_infinity (P : Prec) (s : Bool) : fneg P (infinity P s) = infinity P (!s) := by
  cases P <;> cases s <;> decide

theorem fneg_zero (P : Prec) (s : Bool) : fneg P (zero P s) = zero P (!s) := by
  cases P <;> cases s <;> decide

theorem isNaN_iff (P : Prec) (x : Elem P) : isNaN P x = true ↔ unpack P x = .nan := beq_iff_eq

theorem isNaN_fneg (P : Prec) (x : Elem P) : isNaN P (fneg P x) = isNaN P x := by
  rw [Bool.eq_iff_iff, isNaN_iff, isNaN_iff, unpack, unpack, expField_fneg, fracField_fneg]
  split
  · split <;> simp
  · split <;> simp

/-- Magnitude bits up to those of infinity are no NaN. -/
theorem isNaN_withSign (P : Prec) (s : Bool) (mag : Nat) (h : mag ≤ infBits P) : isNaN P (withSign P s mag) = false := by
  rw [Bool.eq_false_iff, ne_eq, isNaN_iff]
  rcases h.lt_or_eq with hlt | rfl
  · rw [unpack_withSign P s mag hlt]
    nofun
  · rw [← infinity, unpack_infinity]
    nofun

section
variable {P : Prec} {x : Elem P} {s : Bool}

/-- The sign of an infinity is its top bit (20_memory R82). -/
theorem msb_of_unpack_inf (h : unpack P x = .inf s) : x.msb = s := by
  unfold unpack at h
  split at h
  · split at h <;> cases h
    rfl
  · split at h <;> cases h

/-- The sign of a finite element is its top bit. -/
theorem msb_of_unpack_finite {m : Nat} (h : unpack P x = .finite s m) : x.msb = s := by
  unfold unpack at h
  split at h
  · split at h <;> cases h
  · split at h <;> cases h <;> rfl

end

/-! ### What an addition or a multiplication can answer -/

/-- The canonical NaN, or an element of sign s with the magnitude bits of a number or of infinity. -/
def CanonicalOrSigned (P : Prec) (s : Bool) (x : Elem P) : Prop := x = qNaN P ∨ ∃ mag ≤ infBits P, x = withSign P s mag

theorem canonicalOrSigned_infinity (P : Prec) (s : Bool) : CanonicalOrSigned P s (infinity P s) := .inr ⟨_, le_rfl, rfl⟩

theorem canonicalOrSigned_zero (P : Prec) (s : Bool) : CanonicalOrSigned P s (zero P s) := .inr ⟨0, Nat.zero_le _, rfl⟩

theorem canonicalOrSigned_roundPack (P : Prec) (s : Bool) (n scale : Nat) : CanonicalOrSigned P s (roundPack P s n scale) :=
  .inr ⟨_, min_le_right _ _, rfl⟩

theorem CanonicalOrSigned.eq_qNaN {P : Prec} {s : Bool} {x : Elem P} (h : CanonicalOrSigned P s x) (hx : isNaN P x = true) : x = qNaN P := by
  rcases h with h | ⟨mag, hmag, rfl⟩
  · exact h
  · rw [isNaN_withSign P s mag hmag] at hx
    cases hx

theorem CanonicalOrSigned.msb_eq {P : Prec} {s : Bool} {x : Elem P} (h : CanonicalOrSigned P s x) (hx : isNaN P x = false) : x.msb = s := by
  rcases h with rfl | ⟨mag, hmag, rfl⟩
  · cases P <;> cases hx
  · exact msb_withSign P s mag (hmag.trans_lt (infBits_lt P))

theorem fadd_canonicalOrSigned (P : Prec) (a b : Elem P) : ∃ s, CanonicalOrSigned P s (fadd P a b) := by
  cases ha : unpack P a <;> cases hb : unpack P b <;> simp only [fadd, ha, hb]
  case inf.inf =>
    split
    · exact ⟨_, canonicalOrSigned_infinity P _⟩
    · exact ⟨false, .inl rfl⟩
  case inf.finite => exact ⟨_, canonicalOrSigned_infinity P _⟩
  case finite.inf => exact ⟨_, canonicalOrSigned_infinity P _⟩
  case finite.finite =>
    split
    · exact ⟨_, canonicalOrSigned_zero P _⟩
    · exact ⟨_, canonicalOrSigned_roundPack P _ _ _⟩
  all_goals exact ⟨false, .inl rfl⟩

/-- The sign of a product is the exclusive or of the signs of its factors (R152). -/
theorem fmul_canonicalOrSigned (P : Prec) (a b : Elem P) : CanonicalOrSigned P (a.msb ^^ b.msb) (fmul P a b) := by
  cases ha : unpack P a <;> cases hb : unpack P b <;> simp only [fmul, ha, hb]
  case inf.inf =>
    rw [msb_of_unpack_inf ha, msb_of_unpack_inf hb]
    exact canonicalOrSigned_infinity P _
  case inf.finite =>
    rw [msb_of_unpack_inf ha, msb_of_unpack_finite hb]
    split
    · exact .inl rfl
    · exact canonicalOrSigned_infinity P _
  case finite.inf =>
    rw [msb_of_unpack_finite ha, msb_of_unpack_inf hb]
    split
    · exact .inl rfl
    · exact canonicalOrSigned_infinity P _
  case finite.finite =>
    rw [msb_of_unpack_finite ha, msb_of_unpack_finite hb]
    exact canonicalOrSigned_roundPack P _ _ _
  all_goals exact .inl rfl

/-! ### NaN results (R151) -/

section
variable (P : Prec) (a b : Elem P) (h : isNaN P a = true ∨ isNaN P b = true)
include h

theorem fadd_of_isNaN : fadd P a b = qNaN P := by
  rw [isNaN_iff, isNaN_iff] at h
  rcases h with h | h
  · simp only [fadd, h]
  · cases ha : unpack P a <;> simp only [fadd, ha, h]

theorem fsub_of_isNaN : fsub P a b = qNaN P :=
  fadd_of_isNaN P a (fneg P b) (by rwa [isNaN_fneg])

theorem fmul_of_isNaN : fmul P a b = qNaN P := by
  rw [isNaN_iff, isNaN_iff] at h
  rcases h with h | h
  · simp only [fmul, h]
  · cases ha : unpack P a <;> simp only [fmul, ha, h]

end

/-- Infinities of opposite signs have no sum. -/
theorem fadd_opposite_infinities (P : Prec) (s : Bool) : fadd P (infinity P s) (infinity P (!s)) = qNaN P := by
  simp [fadd, unpack_infinity]

/-- Settles O51: what an operation answers is the canonical NaN or no NaN. -/
theorem nanResultsAreCanonical : Obligations.NanResultsAreCanonical := by
  refine ⟨rfl, rfl, fun P a b s t => ⟨?_, ?_, ?_, ?_, ?_, fadd_opposite_infinities P s, ?_, ?_⟩⟩
  · exact (fadd_canonicalOrSigned P a b).choose_spec.eq_qNaN
  · exact (fadd_canonicalOrSigned P a (fneg P b)).choose_spec.eq_qNaN
  · exact (fmul_canonicalOrSigned P a b).eq_qNaN
  · exact fun h => ⟨fadd_of_isNaN P a b h, fsub_of_isNaN P a b h, fmul_of_isNaN P a b h⟩
  · rw [fsub, fneg_infinity, fadd_opposite_infinities]
  · simp [fmul, unpack_zero, unpack_infinity]
  · simp [fmul, unpack_zero, unpack_infinity]

/-! ### Signed zeros and infinities (R152) -/

/-- A sum of zeros is −0 only of two. -/
theorem fadd_zero_zero (P : Prec) (s t : Bool) : fadd P (zero P s) (zero P t) = zero P (s && t) := by
  simp [fadd, unpack_zero, signed]

theorem fmul_infinity_infinity (P : Prec) (s t : Bool) : fmul P (infinity P s) (infinity P t) = infinity P (s ^^ t) := by
  simp only [fmul, unpack_infinity]

section
variable (P : Prec) (a : Elem P) (u : Int) (h : finiteUnits P a = some u)
include h

/-- A finite element and its negation cancel to +0. -/
theorem fadd_fneg_self : fadd P a (fneg P a) = zero P false := by
  obtain ⟨s, m, ha, _⟩ := (finiteUnits_eq_some_iff P a u).mp h
  have hcancel : signed s m + signed (!s) m = 0 := by cases s <;> simp [signed]
  simp [fadd, ha, unpack_fneg_of_finite P a s m ha, hcancel]

/-- An infinity absorbs a finite term. -/
theorem fadd_infinity_finite (s : Bool) : fadd P (infinity P s) a = infinity P s ∧ fadd P a (infinity P s) = infinity P s := by
  obtain ⟨t, m, ha, _⟩ := (finiteUnits_eq_some_iff P a u).mp h
  simp only [fadd, unpack_infinity, ha, and_self]

/-- An infinity times a number other than 0 is an infinity. -/
theorem fmul_infinity_finite (hu : u ≠ 0) (s : Bool) : fmul P (infinity P s) a = infinity P (s ^^ a.msb) := by
  obtain ⟨t, m, ha, rfl⟩ := (finiteUnits_eq_some_iff P a u).mp h
  have hm : m ≠ 0 := by
    rintro rfl
    cases t <;> simp [signed] at hu
  simp only [fmul, unpack_infinity, ha, if_neg hm, msb_of_unpack_finite ha]

end

/-- Settles O52: each rule is one branch of the operation, and the sign of a product that is no NaN is what fmul gives it. -/
theorem signedZerosAndInfinities : Obligations.SignedZerosAndInfinities := by
  intro P a b u s t h
  refine ⟨fadd_fneg_self P a u h, fadd_zero_zero P false true, fadd_zero_zero P true true, ?_, (fmul_canonicalOrSigned P a b).msb_eq,
    (fadd_infinity_finite P a u h s).1, (fadd_infinity_finite P a u h s).2, fun hu => fmul_infinity_finite P a u h hu s,
    fmul_infinity_infinity P s t⟩
  rw [fsub, fneg_zero]
  exact fadd_zero_zero P true true

end Sys2Proof.Machine
end

section
/-! SUPPORT. The bit reversal of an index (40_datapath R155): its digits from either end. -/

namespace Sys2Proof.Machine

/-- rev_k as a sum over the digits of i (R155). -/
theorem bitRevIndex_eq_sum (k i : Nat) : bitRevIndex k i = ∑ b ∈ Finset.range k, i / 2 ^ b % 2 * 2 ^ (k - 1 - b) := by
  induction k generalizing i with
  | zero => rfl
  | succ k ih =>
    have shift : ∀ b ∈ Finset.range k, i / 2 / 2 ^ b % 2 * 2 ^ (k - 1 - b) = i / 2 ^ (b + 1) % 2 * 2 ^ (k + 1 - 1 - (b + 1)) := by
      intro b _
      rw [Nat.div_div_eq_div_mul, ← pow_succ', show k + 1 - 1 - (b + 1) = k - 1 - b by omega]
    rw [bitRevIndex, ih, Finset.sum_congr rfl shift, Finset.sum_range_succ', Nat.add_comm]
    simp

/-- The highest digit of an index becomes the lowest of its reversal. -/
theorem bitRevIndex_high (k c i : Nat) (hc : c < 2) (hi : i < 2 ^ k) : bitRevIndex (k + 1) (c * 2 ^ k + i) = 2 * bitRevIndex k i + c := by
  induction k generalizing i with
  | zero =>
    obtain rfl : i = 0 := by simpa using hi
    simp [bitRevIndex, Nat.mod_eq_of_lt hc]
  | succ k ih =>
    have hsplit : c * 2 ^ (k + 1) + i = 2 * (c * 2 ^ k) + i := by rw [pow_succ]; ring
    have hmod : (c * 2 ^ (k + 1) + i) % 2 = i % 2 := by omega
    have hdiv : (c * 2 ^ (k + 1) + i) / 2 = c * 2 ^ k + i / 2 := by omega
    rw [bitRevIndex, hmod, hdiv, ih (i / 2) (by rw [pow_succ] at hi; omega), bitRevIndex, pow_succ]
    ring

/-- Reversing twice gives the index back. -/
theorem bitRevIndex_bitRevIndex (k i : Nat) (hi : i < 2 ^ k) : bitRevIndex k (bitRevIndex k i) = i := by
  induction k generalizing i with
  | zero =>
    obtain rfl : i = 0 := by simpa using hi
    rfl
  | succ k ih =>
    calc bitRevIndex (k + 1) (bitRevIndex (k + 1) i)
        = 2 * bitRevIndex k (bitRevIndex k (i / 2)) + i % 2 :=
          bitRevIndex_high k (i % 2) _ (Nat.mod_lt i (by decide)) (bitRevIndex_lt k _)
      _ = 2 * (i / 2) + i % 2 := by rw [ih (i / 2) (by rw [pow_succ] at hi; omega)]
      _ = i := Nat.div_add_mod i 2

/-- Settles O53: the sum, the range and the involution, and an index below 2^{k−1}, whose highest digit is 0. -/
theorem bitReversalIsInvolution : Obligations.BitReversalIsInvolution := by
  refine ⟨rfl, fun k i hi => ⟨bitRevIndex_eq_sum k i, bitRevIndex_lt k i, bitRevIndex_bitRevIndex k i hi, ?_⟩⟩
  rintro k' rfl hi'
  simpa using bitRevIndex_high k' 0 i (by decide) hi'

end Sys2Proof.Machine
end

section
/-! SUPPORT. The twiddle table as integers (40_datapath R153, R154): one step of the enclosure, the entries that are exact, and the indices whose
enclosures are the same. -/

namespace Sys2Proof.Machine

/-! ### One step of the enclosure -/

/-- From an enclosure of |cos φ| and the sign of cos φ to the enclosure of |cos(φ/2)|. -/
def halfAngle (neg : Bool) (e : Nat × Nat) : Nat × Nat :=
  let onePlus := if neg then (2 ^ twPlaces - e.2, 2 ^ twPlaces - e.1) else (2 ^ twPlaces + e.1, 2 ^ twPlaces + e.2)
  (sqrtLo (onePlus.1 * 2 ^ (twPlaces - 1)), sqrtHi (onePlus.2 * 2 ^ (twPlaces - 1)))

theorem cosEnclosure_succ (j k : Nat) : cosEnclosure j (k + 1) = halfAngle (cosNeg j k) (cosEnclosure j k) := rfl

/-- The enclosure of 1, both of whose ends are 1. -/
def unitEnclosure : Nat × Nat := (2 ^ twPlaces, 2 ^ twPlaces)

/-- cos 0 = 1 gives cos 0 = 1: the square root is found exactly. -/
theorem halfAngle_false_unit : halfAngle false unitEnclosure = unitEnclosure := by decide +kernel

/-- cos π = −1 gives cos(π/2) = 0. -/
theorem halfAngle_true_unit : halfAngle true unitEnclosure = (0, 0) := by decide +kernel

/-- An enclosure depends on its index by the signs at the smaller table sizes alone. -/
theorem cosEnclosure_congr (i j k : Nat) (h : ∀ l < k, cosNeg i l = cosNeg j l) : cosEnclosure i k = cosEnclosure j k := by
  induction k with
  | zero => rfl
  | succ k ih => rw [cosEnclosure_succ, cosEnclosure_succ, ih fun l hl => h l (by omega), h k (by omega)]

theorem cosRounded_of_neg (P : Prec) (j k : Nat) (h : cosNeg j k = true) :
    cosRounded P j k = fneg P (roundEnclosure P (cosEnclosure j k)) := if_pos h

theorem cosRounded_of_not_neg (P : Prec) (j k : Nat) (h : cosNeg j k = false) :
    cosRounded P j k = roundEnclosure P (cosEnclosure j k) := if_neg (by simp [h])

/-! ### Entries that are exact -/

theorem cosNeg_of_dvd (j k : Nat) (h : 2 ^ k ∣ j) : cosNeg j k = false := by
  simp [cosNeg, Nat.mod_eq_zero_of_dvd h]

/-- Whole turns. -/
theorem cosEnclosure_of_dvd (j k : Nat) (h : 2 ^ k ∣ j) : cosEnclosure j k = unitEnclosure := by
  induction k with
  | zero => rfl
  | succ k ih =>
    have hk : 2 ^ k ∣ j := (pow_dvd_pow 2 (Nat.le_succ k)).trans h
    rw [cosEnclosure_succ, cosNeg_of_dvd j k hk, ih hk, halfAngle_false_unit]

/-- An enclosure with one end is settled. -/
theorem roundEnclosure_self (P : Prec) (v : Nat) : roundEnclosure P (v, v) = withSign P false (roundFixed P v) := if_pos rfl

theorem roundEnclosure_unit (P : Prec) : roundEnclosure P unitEnclosure = one P := by
  rw [unitEnclosure, roundEnclosure_self]
  cases P <;> decide +kernel

theorem roundEnclosure_zero (P : Prec) : roundEnclosure P (0, 0) = zero P false := by
  rw [roundEnclosure_self, zero]
  simp [roundFixed, roundMag, roundShift]

theorem cosRounded_of_dvd (P : Prec) (j k : Nat) (h : 2 ^ k ∣ j) : cosRounded P j k = one P := by
  rw [cosRounded_of_not_neg P j k (cosNeg_of_dvd j k h), cosEnclosure_of_dvd j k h, roundEnclosure_unit]

/-- Odd numbers of quarter turns. -/
theorem cosEnclosure_quarter (c k : Nat) (hc : c % 2 = 1) : cosEnclosure (c * 2 ^ k) (k + 2) = (0, 0) := by
  have hodd : c * 2 ^ k % 2 ^ (k + 1) = 2 ^ k := by rw [pow_succ', Nat.mul_mod_mul_right, hc, Nat.one_mul]
  have hneg : cosNeg (c * 2 ^ k) (k + 1) = true := by
    have := Nat.two_pow_pos k
    rw [cosNeg, hodd, pow_succ]
    simp
    omega
  have hk : 2 ^ k ∣ c * 2 ^ k := Nat.dvd_mul_left _ _
  rw [cosEnclosure_succ, hneg, cosEnclosure_succ, cosNeg_of_dvd _ k hk, cosEnclosure_of_dvd _ k hk, halfAngle_false_unit,
    halfAngle_true_unit]

theorem cosRounded_quarter (P : Prec) (c k : Nat) (hc : c % 2 = 1) : cosRounded P (c * 2 ^ k) (k + 2) = zero P false := by
  have hneg : cosNeg (c * 2 ^ k) (k + 2) = false := by
    have hmod : c * 2 ^ k % 2 ^ (k + 2) = c % 4 * 2 ^ k := by
      rw [Nat.pow_add', Nat.mul_mod_mul_right]
    rw [cosNeg, hmod, pow_add]
    rcases (by omega : c % 4 = 1 ∨ c % 4 = 3) with h | h <;> simp [h] <;> omega
  rw [cosRounded_of_not_neg P _ _ hneg, cosEnclosure_quarter c k hc, roundEnclosure_zero]

/-! ### Indices with the same entry -/

/-- The sign of the cosine is the same at opposite angles. -/
theorem cosNeg_of_dvd_add (i j k : Nat) (h : 2 ^ k ∣ i + j) : cosNeg i k = cosNeg j k := by
  have hsum : (i % 2 ^ k + j % 2 ^ k) % 2 ^ k = 0 := by rw [← Nat.add_mod, Nat.mod_eq_zero_of_dvd h]
  have hi : i % 2 ^ k < 2 ^ k := Nat.mod_lt i (Nat.two_pow_pos k)
  have hj : j % 2 ^ k < 2 ^ k := Nat.mod_lt j (Nat.two_pow_pos k)
  have hcases : i % 2 ^ k + j % 2 ^ k = 0 ∨ i % 2 ^ k + j % 2 ^ k = 2 ^ k := by
    obtain ⟨c, hc⟩ := Nat.dvd_of_mod_eq_zero hsum
    rcases c with _ | _ | c
    · exact .inl hc
    · exact .inr (by omega)
    · rw [Nat.mul_add, Nat.mul_add] at hc
      omega
  rw [cosNeg, cosNeg, Bool.eq_iff_iff]
  simp
  omega

/-- The enclosures are the same where the angles are opposite in every smaller table: the last step uses the signs of those tables alone. -/
theorem cosEnclosure_of_dvd_add (i j k : Nat) (h : ∀ l < k, 2 ^ l ∣ i + j) : cosEnclosure i k = cosEnclosure j k :=
  cosEnclosure_congr i j k fun l hl => cosNeg_of_dvd_add i j l (h l hl)

/-- The entries at opposite angles are the same. -/
theorem cosRounded_of_dvd_add (P : Prec) (i j k : Nat) (h : 2 ^ k ∣ i + j) : cosRounded P i k = cosRounded P j k := by
  rw [cosRounded, cosRounded, cosNeg_of_dvd_add i j k h, cosEnclosure_of_dvd_add i j k fun l hl => (pow_dvd_pow 2 hl.le).trans h]

/-- The entries at two angles that add to half a turn are negations of each other. -/
theorem cosRounded_half_sub (P : Prec) (j k : Nat) (h0 : 0 < j) (hj : j < 2 ^ k) :
    cosRounded P (2 ^ (k + 1) - j) (k + 2) = fneg P (cosRounded P j (k + 2)) := by
  have h1 : 2 ^ (k + 1) = 2 * 2 ^ k := pow_succ' 2 k
  have h2 : 2 ^ (k + 2) = 4 * 2 ^ k := Nat.pow_add' 2 k 2
  have hneg : cosNeg (2 ^ (k + 1) - j) (k + 2) = true := by
    rw [cosNeg, Nat.mod_eq_of_lt (by omega)]
    simp
    omega
  have hpos : cosNeg j (k + 2) = false := by
    rw [cosNeg, Nat.mod_eq_of_lt (by omega)]
    simp
    omega
  have henc : cosEnclosure (2 ^ (k + 1) - j) (k + 2) = cosEnclosure j (k + 2) := by
    refine cosEnclosure_of_dvd_add _ j _ fun l hl => ?_
    rw [Nat.sub_add_cancel (by omega)]
    exact pow_dvd_pow 2 (by omega)
  rw [cosRounded_of_neg P _ _ hneg, cosRounded_of_not_neg P _ _ hpos, henc]

theorem cosNeg_two_mul (j k : Nat) : cosNeg (2 * j) (k + 1) = cosNeg j k := by
  rw [cosNeg, cosNeg, pow_succ', Nat.mul_mod_mul_left, Bool.eq_iff_iff]
  simp
  omega

/-- Twice the index in a table of twice the size. -/
theorem cosEnclosure_two_mul (j k : Nat) : cosEnclosure (2 * j) (k + 1) = cosEnclosure j k := by
  induction k with
  | zero =>
    rw [cosEnclosure_succ, cosNeg_of_dvd _ 0 (one_dvd _)]
    exact halfAngle_false_unit
  | succ k ih => rw [cosEnclosure_succ, ih, cosNeg_two_mul, ← cosEnclosure_succ]

theorem cosRounded_two_mul (P : Prec) (j k : Nat) : cosRounded P (2 * j) (k + 1) = cosRounded P j k := by
  rw [cosRounded, cosRounded, cosNeg_two_mul, cosEnclosure_two_mul]

/-! ### The table -/

theorem twSin_zero (P : Prec) (k : Nat) : twSin P k 0 = zero P false := by
  rw [twSin, Nat.mul_zero, Nat.zero_add, cosRounded_quarter P 3 k rfl]

theorem twCos_quarter (P : Prec) (k : Nat) : twCos P (k + 2) (2 ^ k) = zero P false := by
  rw [twCos, ← Nat.one_mul (2 ^ k), cosRounded_quarter P 1 k rfl]

theorem twSin_quarter (P : Prec) (k : Nat) : twSin P (k + 2) (2 ^ k) = one P :=
  cosRounded_of_dvd P _ _ ⟨1, by ring⟩

theorem twSin_half_sub (P : Prec) (k j : Nat) (hj : j < 2 ^ k) : twSin P (k + 2) (2 ^ (k + 1) - j) = twSin P (k + 2) j := by
  refine cosRounded_of_dvd_add P _ _ _ ⟨2, ?_⟩
  rw [Nat.pow_add' 2 (k + 2) 2, Nat.pow_add' 2 k 2, pow_succ]
  omega

theorem twSin_two_mul (P : Prec) (k j : Nat) : twSin P (k + 1) (2 * j) = twSin P k j := by
  have hindex : 4 * (2 * j) + 3 * 2 ^ (k + 1) = 2 * (4 * j + 3 * 2 ^ k) := by ring
  rw [twSin, twSin, hindex]
  exact cosRounded_two_mul P _ (k + 2)

/-- Settles O55: the exact entries are whole and quarter turns, the symmetric ones opposite angles and angles that add to half a turn. -/
theorem twiddleTableSymmetries : Obligations.TwiddleTableSymmetries := by
  intro P k j
  refine ⟨cosRounded_of_dvd P 0 k (dvd_zero _), twSin_zero P k, fun hk => ?_, fun hk h0 hj => ?_, cosRounded_two_mul P j k, twSin_two_mul P k j⟩
  all_goals obtain ⟨k, rfl⟩ := Nat.exists_eq_add_of_le' hk
  · exact ⟨twCos_quarter P k, twSin_quarter P k⟩
  · exact ⟨cosRounded_half_sub P j k h0 hj, twSin_half_sub P k j hj⟩

end Sys2Proof.Machine
end

section
/-! SUPPORT. The twiddle table against the exact cosine and sine (40_datapath R153): the enclosures contain the cosine, and where both ends round alike
the cosine rounds with them. -/

namespace Sys2Proof.Machine

/-! ### Nearest elements -/

/-- x is as near to r as y is, where r lies on the side of x of the point half way between them. -/
theorem abs_sub_le_abs_sub_iff (x y r : ℝ) : |x - r| ≤ |y - r| ↔ 0 ≤ (y - x) * (x + y - 2 * r) := by
  rw [← sq_le_sq, ← sub_nonneg, show (y - r) ^ 2 - (x - r) ^ 2 = (y - x) * (x + y - 2 * r) by ring]

theorem abs_sub_eq_abs_sub_iff (x y r : ℝ) (h : y ≠ x) : |x - r| = |y - r| ↔ x + y = 2 * r := by
  rw [← sq_eq_sq_iff_abs_eq_abs, eq_comm, ← sub_eq_zero, show (y - r) ^ 2 - (x - r) ^ 2 = (y - x) * (x + y - 2 * r) by ring,
    mul_eq_zero, or_iff_right (sub_ne_zero.mpr h), sub_eq_zero]

/-- The numbers that round to one element are an interval. -/
theorem IsNearest.between {P : Prec} {r₁ r₂ r : ℝ} {x : Elem P} (h₁ : IsNearest P r₁ x) (h₂ : IsNearest P r₂ x) (hr₁ : r₁ ≤ r) (hr₂ : r ≤ r₂) :
    IsNearest P r x := by
  obtain ⟨u, hu, near₁⟩ := h₁
  obtain ⟨u', hu', near₂⟩ := h₂
  obtain rfl : u = u' := Option.some.inj (hu.symm.trans hu')
  refine ⟨u, hu, fun y v hv => ?_⟩
  obtain ⟨le₁, tie₁⟩ := near₁ y v hv
  obtain ⟨le₂, tie₂⟩ := near₂ y v hv
  rcases eq_or_ne v u with rfl | hne
  · exact ⟨le_rfl, fun _ h => absurd rfl h⟩
  have hne' : (v : ℝ) ≠ u := by exact_mod_cast hne
  rw [abs_sub_le_abs_sub_iff] at le₁ le₂ ⊢
  rw [abs_sub_eq_abs_sub_iff _ _ _ hne'] at tie₁ tie₂ ⊢
  rcases hne'.lt_or_gt with hlt | hgt
  · have side : u + v - 2 * r₁ ≤ (0 : ℝ) := by
      by_contra hn
      exact absurd le₁ (not_le.mpr (mul_neg_of_neg_of_pos (by linarith) (not_le.mp hn)))
    exact ⟨mul_nonneg_of_nonpos_of_nonpos (by linarith) (by linarith), fun heq => tie₁ (by linarith)⟩
  · have side : (0 : ℝ) ≤ u + v - 2 * r₂ := nonneg_of_mul_nonneg_right le₂ (by linarith)
    exact ⟨mul_nonneg (by linarith) (by linarith), fun heq => tie₂ (by linarith)⟩

theorem fneg_toNat_mod_two (P : Prec) (x : Elem P) : (fneg P x).toNat % 2 = x.toNat % 2 := by
  have h := fneg_toNat_mod P x
  cases P <;> simp at h ⊢ <;> omega

/-- Rounding to nearest even is symmetric about 0. -/
theorem IsNearest.neg {P : Prec} {r : ℝ} {x : Elem P} (h : IsNearest P r x) : IsNearest P (-r) (fneg P x) := by
  obtain ⟨u, hu, near⟩ := h
  refine ⟨-u, finiteUnits_fneg P x u hu, fun y v hv => ?_⟩
  obtain ⟨hle, tie⟩ := near (fneg P y) (-v) (finiteUnits_fneg P y v hv)
  have flip : ∀ w : ℝ, |w - -r| = |-w - r| := fun w => by rw [← abs_neg]; congr 1; ring
  rw [flip, flip, fneg_toNat_mod_two]
  push_cast at hle tie ⊢
  rw [neg_neg]
  exact ⟨hle, fun heq hne => tie heq fun h => hne (by omega)⟩

/-! ### Enclosures -/

/-- e encloses x, in units of 2^−twPlaces. -/
def Encloses (e : Nat × Nat) (x : ℝ) : Prop := (e.1 : ℝ) ≤ x * 2 ^ twPlaces ∧ x * 2 ^ twPlaces ≤ e.2

theorem sqrtLo_mul_self_le (n : Nat) : sqrtLo n * sqrtLo n ≤ n := by
  unfold sqrtLo
  dsimp only
  split
  · assumption
  · split
    · assumption
    · omega

theorem le_sqrtHi_mul_self (n : Nat) : n ≤ sqrtHi n * sqrtHi n := by
  unfold sqrtHi
  dsimp only
  split
  · assumption
  · split
    · assumption
    · exact Nat.le_mul_self n

/-- The square roots of the ends of an enclosure of y, scaled, enclose the square root of y/2. -/
theorem encloses_sqrt (e : Nat × Nat) (x y : ℝ) (hx : 0 ≤ x) (hxy : x ^ 2 = y / 2) (h : Encloses e y) :
    Encloses (sqrtLo (e.1 * 2 ^ (twPlaces - 1)), sqrtHi (e.2 * 2 ^ (twPlaces - 1))) x := by
  have hsq : (x * 2 ^ twPlaces) ^ 2 = y * 2 ^ twPlaces * 2 ^ (twPlaces - 1) := by
    rw [mul_pow, hxy, twPlaces]
    ring
  have hlo : ((sqrtLo (e.1 * 2 ^ (twPlaces - 1)) : ℝ)) ^ 2 ≤ e.1 * 2 ^ (twPlaces - 1) := by
    rw [sq]
    exact_mod_cast sqrtLo_mul_self_le _
  have hhi : (e.2 * 2 ^ (twPlaces - 1) : ℝ) ≤ (sqrtHi (e.2 * 2 ^ (twPlaces - 1)) : ℝ) ^ 2 := by
    rw [sq]
    exact_mod_cast le_sqrtHi_mul_self _
  have hscale : (0 : ℝ) ≤ 2 ^ (twPlaces - 1) := by positivity
  constructor
  · refine le_of_sq_le_sq ?_ (by positivity)
    rw [hsq]
    exact hlo.trans (mul_le_mul_of_nonneg_right h.1 hscale)
  · refine le_of_sq_le_sq ?_ (by positivity)
    rw [hsq]
    exact (mul_le_mul_of_nonneg_right h.2 hscale).trans hhi

/-- One plus an enclosed number. -/
theorem Encloses.one_add {e : Nat × Nat} {x : ℝ} (h : Encloses e x) : Encloses (2 ^ twPlaces + e.1, 2 ^ twPlaces + e.2) (1 + x) := by
  obtain ⟨hlo, hhi⟩ := h
  constructor <;> push_cast <;> linarith

/-- One minus an enclosed number of at most 1. The upper end of its enclosure may lie above 1. -/
theorem Encloses.one_sub {e : Nat × Nat} {x : ℝ} (h : Encloses e x) (hx : x ≤ 1) :
    Encloses (2 ^ twPlaces - e.2, 2 ^ twPlaces - e.1) (1 - x) := by
  obtain ⟨hlo, hhi⟩ := h
  have hle : x * 2 ^ twPlaces ≤ 2 ^ twPlaces := mul_le_of_le_one_left (by positivity) hx
  have hlo' : e.1 ≤ 2 ^ twPlaces := by exact_mod_cast hlo.trans hle
  constructor
  · rcases Nat.le_total e.2 (2 ^ twPlaces) with h2 | h2
    · push_cast [h2]
      linarith
    · rw [Nat.sub_eq_zero_of_le h2]
      push_cast
      linarith
  · push_cast [hlo']
    linarith

/-! ### The sign of the cosine -/

/-- 2πj/2^k. -/
noncomputable def angle (j k : Nat) : ℝ := 2 * Real.pi * j / 2 ^ k

theorem angle_halves (j k : Nat) : 2 * angle j (k + 1) = angle j k := by
  rw [angle, angle, pow_succ]
  field_simp

/-- Whole turns do not change the cosine. -/
theorem cos_angle_mod (j k : Nat) : Real.cos (angle (j % 2 ^ k) k) = Real.cos (angle j k) := by
  have hturns : angle j k = angle (j % 2 ^ k) k + (j / 2 ^ k : Nat) * (2 * Real.pi) := by
    have hj : (j : ℝ) = 2 ^ k * (j / 2 ^ k : Nat) + (j % 2 ^ k : Nat) := by exact_mod_cast (Nat.div_add_mod j (2 ^ k)).symm
    rw [angle, angle]
    conv_lhs => rw [hj]
    field_simp
    ring
  rw [hturns, Real.cos_add_nat_mul_two_pi]

/-- An angle against c quarter turns. -/
theorem quarters_le_angle (c j k : Nat) (h : c * 2 ^ k ≤ 4 * j) : c * (Real.pi / 2) ≤ angle j k := by
  have h' : (c * 2 ^ k : ℝ) ≤ 4 * j := by exact_mod_cast h
  rw [angle, le_div_iff₀ (by positivity)]
  linarith [mul_le_mul_of_nonneg_right h' Real.pi_pos.le]

theorem angle_le_quarters (c j k : Nat) (h : 4 * j ≤ c * 2 ^ k) : angle j k ≤ c * (Real.pi / 2) := by
  have h' : (4 * j : ℝ) ≤ c * 2 ^ k := by exact_mod_cast h
  rw [angle, div_le_iff₀ (by positivity)]
  linarith [mul_le_mul_of_nonneg_right h' Real.pi_pos.le]

theorem cos_angle_nonpos (j k : Nat) (h : cosNeg j k = true) : Real.cos (angle j k) ≤ 0 := by
  simp only [cosNeg, Bool.and_eq_true, decide_eq_true_eq] at h
  have h1 := quarters_le_angle 1 (j % 2 ^ k) k (by omega)
  have h3 := angle_le_quarters 3 (j % 2 ^ k) k (by omega)
  push_cast at h1 h3
  rw [← cos_angle_mod]
  exact Real.cos_nonpos_of_pi_div_two_le_of_le (by linarith) (by linarith)

theorem cos_angle_nonneg (j k : Nat) (h : cosNeg j k = false) : 0 ≤ Real.cos (angle j k) := by
  simp only [cosNeg, Bool.and_eq_false_iff, decide_eq_false_iff_not, not_lt] at h
  have hmod : j % 2 ^ k < 2 ^ k := Nat.mod_lt j (Nat.two_pow_pos k)
  rw [← cos_angle_mod]
  rcases h with h | h
  · have h0 := quarters_le_angle 0 (j % 2 ^ k) k (by omega)
    have h1 := angle_le_quarters 1 (j % 2 ^ k) k (by omega)
    push_cast at h0 h1
    exact Real.cos_nonneg_of_neg_pi_div_two_le_of_le (by linarith [Real.pi_pos]) (by linarith)
  · have h3 := quarters_le_angle 3 (j % 2 ^ k) k (by omega)
    have h4 := angle_le_quarters 4 (j % 2 ^ k) k (by omega)
    push_cast at h3 h4
    rw [← Real.cos_sub_two_pi]
    exact Real.cos_nonneg_of_neg_pi_div_two_le_of_le (by linarith) (by linarith [Real.pi_pos])

/-- cosNeg is the sign of the cosine. -/
theorem cos_angle (j k : Nat) : Real.cos (angle j k) = if cosNeg j k then -|Real.cos (angle j k)| else |Real.cos (angle j k)| := by
  cases h : cosNeg j k
  · exact (abs_of_nonneg (cos_angle_nonneg j k h)).symm
  · simp [abs_of_nonpos (cos_angle_nonpos j k h)]

/-- The enclosure holds |cos(2πj/2^k)|, by the half-angle formula (R153). -/
theorem encloses_cosEnclosure (j k : Nat) : Encloses (cosEnclosure j k) |Real.cos (angle j k)| := by
  induction k with
  | zero =>
    have : Real.cos (angle j 0) = 1 := by
      rw [← cos_angle_mod, pow_zero, Nat.mod_one]
      simp [angle]
    simp [cosEnclosure, Encloses, this]
  | succ k ih =>
    have hsq : |Real.cos (angle j (k + 1))| ^ 2 = (1 + Real.cos (angle j k)) / 2 := by
      rw [sq_abs, Real.cos_sq, angle_halves]
      ring
    rw [cos_angle j k] at hsq
    rw [cosEnclosure_succ, halfAngle]
    refine encloses_sqrt _ _ _ (abs_nonneg _) hsq ?_
    split
    · exact ih.one_sub (Real.abs_cos_le_one _)
    · exact ih.one_add

/-! ### Rounding an enclosed number -/

theorem roundMag_lt_infBits_iff (P : Prec) (n scale : Nat) : roundMag P n scale < infBits P ↔ n < overflowUnits P * 2 ^ scale := by
  rw [← magnitude_lt_infBits_iff, roundMag_eq, min_lt_iff, or_iff_left (lt_irrefl _)]

/-- An end of an enclosure that rounds to a finite element is nearest to it. -/
theorem isNearest_roundFixed (P : Prec) (v : Nat) (h : roundFixed P v < infBits P) :
    IsNearest P (v / 2 ^ twPlaces * 2 ^ unitPlaces P) (withSign P false (roundFixed P v)) := by
  have hnear := isNearest_roundPack P false (v * 2 ^ unitPlaces P) twPlaces ((roundMag_lt_infBits_iff P _ _).mp h)
  have hvalue : (signed false (v * 2 ^ unitPlaces P) : ℝ) / 2 ^ twPlaces = v / 2 ^ twPlaces * 2 ^ unitPlaces P := by
    simp only [signed, Bool.false_eq_true, if_false]
    push_cast
    ring
  rwa [hvalue] at hnear

/-- One is far below the overflow threshold. -/
theorem unit_lt_overflowUnits (P : Prec) : 2 ^ unitPlaces P < overflowUnits P := by cases P <;> decide +kernel

theorem roundFixed_lt_infBits (P : Prec) (v : Nat) (h : v ≤ 2 ^ twPlaces) : roundFixed P v < infBits P := by
  rw [roundFixed, roundMag_lt_infBits_iff, Nat.mul_comm (overflowUnits P)]
  exact Nat.mul_lt_mul_of_le_of_lt h (unit_lt_overflowUnits P) (Nat.two_pow_pos _)

/-- A number whose enclosure settles its rounding rounds with it. -/
theorem isNearest_roundEnclosure (P : Prec) (e : Nat × Nat) (x : ℝ) (hx : x ≤ 1) (he : Encloses e x) (hs : roundFixed P e.1 = roundFixed P e.2) :
    IsNearest P (x * 2 ^ unitPlaces P) (roundEnclosure P e) := by
  obtain ⟨hlo, hhi⟩ := he
  have hscale : (0 : ℝ) < 2 ^ twPlaces := by positivity
  have hunits : (0 : ℝ) ≤ 2 ^ unitPlaces P := by positivity
  have hlt : roundFixed P e.1 < infBits P := by
    refine roundFixed_lt_infBits P e.1 ?_
    exact_mod_cast hlo.trans (mul_le_of_le_one_left hscale.le hx)
  have hnear₁ := isNearest_roundFixed P e.1 hlt
  have hnear₂ := isNearest_roundFixed P e.2 (hs ▸ hlt)
  rw [← hs] at hnear₂
  rw [roundEnclosure, if_pos hs]
  exact hnear₁.between hnear₂ (mul_le_mul_of_nonneg_right ((div_le_iff₀ hscale).mpr hlo) hunits)
    (mul_le_mul_of_nonneg_right ((le_div_iff₀ hscale).mpr hhi) hunits)

/-- An entry of the table whose enclosure settles its rounding is the cosine rounded. -/
theorem isNearest_cosRounded (P : Prec) (j k : Nat) (hs : roundFixed P (cosEnclosure j k).1 = roundFixed P (cosEnclosure j k).2) :
    IsNearest P (Real.cos (angle j k) * 2 ^ unitPlaces P) (cosRounded P j k) := by
  have hnear := isNearest_roundEnclosure P _ _ (Real.abs_cos_le_one _) (encloses_cosEnclosure j k) hs
  rw [cos_angle]
  cases h : cosNeg j k
  · rw [cosRounded_of_not_neg P j k h]
    exact hnear
  · rw [cosRounded_of_neg P j k h, if_pos rfl, neg_mul]
    exact hnear.neg

/-- The sine of an index is the cosine three quarters of a turn on (R153). -/
theorem cos_angle_three_quarters (j k : Nat) : Real.cos (angle (4 * j + 3 * 2 ^ k) (k + 2)) = Real.sin (angle j k) := by
  have hturn : angle (4 * j + 3 * 2 ^ k) (k + 2) = angle j k - Real.pi / 2 + 2 * Real.pi := by
    rw [angle, angle, pow_add]
    push_cast
    field_simp
    ring
  rw [hturn, Real.cos_add_two_pi, Real.cos_sub_pi_div_two]

/-- Settles O54: the enclosure contains the cosine, and rounding is monotone. -/
theorem twiddlesAreRoundedCosines : Obligations.TwiddlesAreRoundedCosines := by
  refine fun P k j => ⟨isNearest_cosRounded P j k, fun hs => ?_⟩
  have hnear := isNearest_cosRounded P (4 * j + 3 * 2 ^ k) (k + 2) hs
  rwa [cos_angle_three_quarters] at hnear

end Sys2Proof.Machine
end

section
/-! SUPPORT. The control commands (41_control R180 to R182): when each passes its checks, and the whole state each leaves. -/

namespace Sys2Proof.Machine

/-! ### The checks of the control commands (60_exceptions R244) -/

theorem accepts_nop (P : Prec) (s : State) : Accepts (.nop P) s := (commandError_eq_none_iff _ s).mp (commandError_nop P s)

theorem accepts_twfree (P : Prec) (s : State) : Accepts (.twfree P) s := (commandError_eq_none_iff _ s).mp (commandError_twfree P s)

/-- The size is all that is checked of TWBUILD: it is no FFT command, has no stage and accesses no region. -/
theorem accepts_twbuild_iff (P : Prec) (s : State) : Accepts (.twbuild P) s ↔ SizeOk s.config s.latch.ops.n.toNat where
  mp h := h.size rfl
  mpr h := { size := fun _ => h, table := nofun, stage := nofun, stride := nofun, align := nofun, bounds := nofun, overlap := nofun }

/-! ### A command that fails a check (R243) -/

/-- A command that fails a check ends with its first error, and does nothing else. -/
theorem exec_of_firstError (i : Instr) (s : State) (e : CmdError) (h : FirstError i s e) (hs : s.srstPending = false) :
    exec i s = .next (s.failed e) := by
  rw [exec_of_error i s e ((commandError_eq_some_iff_firstError i s e).mpr h), complete_some e s hs]

/-! ### The obligations -/

/-- Settles O26: TWBUILD passes its checks exactly for a valid size, and the size check is the first to fail. -/
theorem twbuildSetsTable : Obligations.TwbuildSetsTable := by
  intro P s hs
  constructor
  · intro hsize
    exact exec_of_accepts (.twbuild P) s ((accepts_twbuild_iff P s).mpr hsize) hs
  · intro hsize
    have herror : FirstError (.twbuild P) s { code := .invalidSize, src := none } := .size fun hpass => hsize (hpass rfl)
    exact exec_of_firstError (.twbuild P) s _ herror hs

/-- Settles O25: NOP always passes its checks, and its effect keeps DMEM and TW_N. -/
theorem nopCompletes : Obligations.NopCompletes := fun P s hs => exec_of_accepts (.nop P) s (accepts_nop P s) hs

/-- Settles O27: TWFREE always passes its checks, and its effect keeps DMEM and clears TW_N. -/
theorem twfreeClearsTable : Obligations.TwfreeClearsTable := fun P s hs => exec_of_accepts (.twfree P) s (accepts_twfree P s) hs

end Sys2Proof.Machine
end

section
/-! SUPPORT. What the real transforms leave in X and Y (42_fft R201 to R203): the slots of the real post-processing, and the read regions of a command
whose overlap with every written region is tested. -/

namespace Sys2Proof.Machine

/-! ### The real post-processing (42_fft R203) -/

/-- Slot j of a real transform is computed from the half-length forward transform. -/
theorem elemAt_realFft {α : Type} (A : Arith α) (k : Nat) (z : List (Cplx α)) (j : Nat) (hj : j < z.length) :
    elemAt A (realFft A k z) j = realPostElem A k (fft A .fwd k z) j := by
  rw [elemAt_of_lt A _ j (by simpa using hj)]
  simp [realFft, realPost]

/-- On the unit's arithmetic the slots of a real transform of H elements are those R203 writes out. -/
theorem elemAt_realFft_ieee (P : Prec) (k H : Nat) (z : Nat → Cplx (Elem P)) (j : Nat) (hj : j < H) :
    elemAt (ieee P) (realFft (ieee P) k ((List.range H).map z)) j =
      roundedRealSlot P k H (fun i => elemAt (ieee P) (fft (ieee P) .fwd k ((List.range H).map z)) i) j := by
  have hlen : (fft (ieee P) .fwd k ((List.range H).map z)).length = H := by simp
  rw [elemAt_realFft (ieee P) k _ j (by simpa using hj), realPostElem, hlen]
  rfl

/-- Settles O33: RFFT.IP transforms the n/2 slots of X in place by the real transform. -/
theorem realFftInPlaceResult : Obligations.RealFftInPlaceResult := by
  intro P s z h hs hz
  obtain ⟨m, hexec, hload, hframe⟩ := exec_inPlace (.rfftIp P) s _ (realFft (ieee P) s.log2N) z rfl rfl rfl (realFft_length _ _) h hs hz
  exact ⟨m, hexec, fun j hj => (hload j hj).trans (congrArg some (elemAt_realFft_ieee P _ _ z j hj)), hframe⟩

/-! ### Regions a command only reads -/

section
variable (i : Instr) (s : State) (hc : commandError i s = none) (r : Region) (hr : r ∈ regions i s.latch.ops)
  (htested : ∀ w ∈ regions i s.latch.ops, w.written = true → (w.id, r.id) ∈ overlapPairs i)
include hc hr htested

/-- A command that passes its checks keeps the bytes of a region whose overlap with every written region is tested (20_memory R90). -/
theorem readByte_effect_of_tested (j : Nat) (hj : j < r.count) (t : Nat) (ht : t < r.slotBytes i.prec) :
    (effect i s).1.readByte (eaNat r.base r.stride j i.prec + t) = s.mem.readByte (eaNat r.base r.stride j i.prec + t) := by
  refine effect_other i s _ fun hmem => ?_
  obtain ⟨w, hw, hwritten, haddr⟩ := (mem_writtenAddrs i s.latch.ops _).mp hmem
  obtain ⟨k, hk, hlo, hhi⟩ := (w.mem_addrs i.prec _).mp haddr
  have hapart := regions_apart_of_pass i s hc w r hw hr (htested w hw hwritten) k j hk hj
  omega

/-- So the elements of such a region read as before. -/
theorem loadElem_effect_of_tested (helem : r.kind = .elem) (j : Nat) (hj : j < r.count) :
    loadElem i.prec (effect i s).1 r.base r.stride j = loadElem i.prec s.mem r.base r.stride j := by
  refine readElem_congr i.prec _ _ _ fun t ht => readByte_effect_of_tested i s hc r hr htested j hj t ?_
  rwa [Region.slotBytes, helem]

end

/-- RFFT.OP keeps every slot of X: the overlap of both components with both written ones is tested (42_fft R202). -/
theorem loadCplx_effect_rfftOp_x (P : Prec) (s : State) (hc : commandError (.rfftOp P) s = none) (j : Nat)
    (hj : j < s.latch.ops.n.toNat / 2) :
    loadCplx P (effect (.rfftOp P) s).1 s.latch.ops.x j = loadCplx P s.mem s.latch.ops.x j := by
  have hre := loadElem_effect_of_tested (.rfftOp P) s hc
    { id := .xRe, kind := .elem, role := .read, base := s.latch.ops.xRe, stride := s.latch.ops.xStride, count := s.latch.ops.n.toNat / 2 }
    (.head _) (by simp [regions, overlapPairs, Region.written]) rfl j hj
  have him := loadElem_effect_of_tested (.rfftOp P) s hc
    { id := .xIm, kind := .elem, role := .read, base := s.latch.ops.xIm, stride := s.latch.ops.xStride, count := s.latch.ops.n.toNat / 2 }
    (.tail _ (.head _)) (by simp [regions, overlapPairs, Region.written]) rfl j hj
  simp only [Instr.prec] at hre him
  simp only [loadCplx, OperandRegs.x, hre, him]

/-- Settles O34: RFFT.OP stores the real transform of X in Y, and X lies apart from Y. -/
theorem realFftOutOfPlaceResult : Obligations.RealFftOutOfPlaceResult := by
  intro P s z h hs hz
  have hc := (commandError_eq_none_iff _ s).mpr h
  refine ⟨_, exec_of_accepts (.rfftOp P) s h hs, fun j hj => ?_, fun j hj => ?_, effect_other _ s⟩
  · rw [← elemAt_realFft_ieee P _ _ z j hj]
    exact loadCplx_transform P s.mem _ _ _ _ (realFft_length _ _) z hz (slotsApart_rfftOp P s hc) j hj
  · rw [loadCplx_effect_rfftOp_x P s hc j hj, hz j hj]

end Sys2Proof.Machine
end

section
/-! SUPPORT. FFT.F and FFT.I as BITREV and the butterfly stages one after another (42_fft R196): stores that overwrite stores, transforms of X one after
another, and the commands run in turn. -/

namespace Sys2Proof.Machine

/-! ### Stores that overwrite stores -/

/-- The bytes of a store do not depend on what was there before; every other byte is kept. -/
theorem readByte_writeElem_congr (P : Prec) (m m' : Memory) (hm : m.wf) (hm' : m'.wf) (a : Nat) (v : Option (Elem P)) (b : Nat)
    (h : m.readByte b = m'.readByte b ∨ a ≤ b ∧ b < a + P.esize) :
    (writeElem P m a v).readByte b = (writeElem P m' a v).readByte b := by
  by_cases hb : a ≤ b ∧ b < a + P.esize
  · obtain ⟨t, rfl⟩ := Nat.exists_eq_add_of_le hb.1
    cases v with
    | none => exact (Memory.readByte_undefine_self _ m hm _ _ hb).trans (Memory.readByte_undefine_self _ m' hm' _ _ hb).symm
    | some v => exact (Memory.readByte_writeLE_self _ m a _ t (by omega)).trans (Memory.readByte_writeLE_self _ m' a _ t (by omega)).symm
  · rw [readByte_writeElem_other P m a v b (by omega), readByte_writeElem_other P m' a v b (by omega)]
    exact h.resolve_right hb

/-- A byte that a store covers does not depend on what was there before the stores. -/
theorem readByte_storeAll_congr (P : Prec) (ws : List (Store P)) (m m' : Memory) (hm : m.wf) (hm' : m'.wf) (b : Nat)
    (h : m.readByte b = m'.readByte b ∨ ∃ w ∈ ws, w.addr ≤ b ∧ b < w.addr + P.esize) :
    (storeAll P m ws).readByte b = (storeAll P m' ws).readByte b := by
  induction ws generalizing m m' with
  | nil => exact h.resolve_right (by simp)
  | cons w ws ih =>
    refine ih _ _ (writeElem_wf P m hm _ _) (writeElem_wf P m' hm' _ _) ?_
    rcases h with h | ⟨u, hu, hb⟩
    · exact .inl (readByte_writeElem_congr P m m' hm hm' _ _ b (.inl h))
    · rcases List.mem_cons.mp hu with rfl | hu
      · exact .inl (readByte_writeElem_congr P m m' hm hm' _ _ b (.inr hb))
      · exact .inr ⟨u, hu, hb⟩

/-- Stores at the offsets of earlier stores leave nothing of the earlier ones. -/
theorem storeAll_storeAll (P : Prec) (m : Memory) (hm : m.wf) (us ws : List (Store P)) (h : ∀ u ∈ us, ∃ w ∈ ws, w.addr = u.addr) :
    storeAll P (storeAll P m us) ws = storeAll P m ws := by
  have hus := storeAll_wf P us m hm
  refine Memory.ext_of_readByte _ _ (storeAll_wf P ws _ hus) (storeAll_wf P ws m hm) fun b => readByte_storeAll_congr P ws _ m hus hm b ?_
  by_cases hb : ∃ u ∈ us, u.addr ≤ b ∧ b < u.addr + P.esize
  · obtain ⟨u, hu, hlo, hhi⟩ := hb
    obtain ⟨w, hw, haddr⟩ := h u hu
    exact .inr ⟨w, hw, haddr ▸ hlo, haddr ▸ hhi⟩
  · refine .inl (readByte_storeAll_other P b us m fun u hu => ?_)
    by_contra hn
    exact hb ⟨u, hu, by omega, by omega⟩

/-- A vector stored over a vector of its length leaves nothing of it. -/
theorem storeSplit_storeSplit (P : Prec) (m : Memory) (hm : m.wf) (v : SplitVec) (ys zs : List (Option (Cplx (Elem P))))
    (hlen : ys.length = zs.length) : storeSplit P (storeSplit P m v ys) v zs = storeSplit P m v zs := by
  refine storeAll_storeAll P m hm _ _ fun u hu => ?_
  obtain ⟨j, _, hj, haddr⟩ := mem_splitStores P v ys 0 u hu
  obtain ⟨⟨w, hw, hre⟩, ⟨w', hw', him⟩⟩ := exists_mem_splitStores P v 0 zs j (by omega)
  rw [Nat.zero_add] at hre him
  rcases haddr with haddr | haddr
  · exact ⟨w, hw, hre.trans haddr.symm⟩
  · exact ⟨w', hw', him.trans haddr.symm⟩

/-! ### Transforms one after another -/

section
variable (P : Prec) (m : Memory) (v : SplitVec) (n : Nat)

theorem length_of_loadSplit {z : List (Cplx (Elem P))} (h : loadSplit P m v n = some z) : z.length = n := by
  rw [loadSplit, allSome_eq_some_iff] at h
  simpa using (congrArg List.length h).symm

/-- A transform depends on what it makes of vectors of n elements alone. -/
theorem transform_congr (dst : SplitVec) {f g : List (Cplx (Elem P)) → List (Cplx (Elem P))} (h : ∀ z, z.length = n → f z = g z) :
    transform P m v dst n f = transform P m v dst n g := by
  rw [transform, transform]
  cases hz : loadSplit P m v n with
  | none => rfl
  | some z => rw [fftOutput, h z (length_of_loadSplit P m v n hz), fftOutput]

/-- Element j reads, after a vector was stored, as what was stored there. -/
theorem loadCplx_storeSplit (zs : List (Option (Cplx (Elem P)))) (hm : m.wf) (h : SlotsApart P v zs.length) (j : Nat) (hj : j < zs.length) :
    loadCplx P (storeSplit P m v zs) v j = zs[j] := by
  obtain ⟨hre, him⟩ := loadElem_storeSplit P m v zs (.inl hm) h j hj
  rw [loadCplx, hre, him]
  cases zs[j] <;> rfl

/-- What a stored vector loads as. -/
theorem loadSplit_storeSplit (zs : List (Option (Cplx (Elem P)))) (hm : m.wf) (h : SlotsApart P v zs.length) :
    loadSplit P (storeSplit P m v zs) v zs.length = allSome zs := by
  rw [loadSplit]
  congr 1
  refine List.ext_getElem (by simp) fun j _ hj => ?_
  rw [List.getElem_map, List.getElem_range, loadCplx_storeSplit P m v zs hm h j hj]

variable (f g : List (Cplx (Elem P)) → List (Cplx (Elem P))) (hf : ∀ z, (f z).length = z.length)
include hf

/-- After a transform in place the vector loads as the transform of what it held; an unspecified one stays unspecified (log 9). -/
theorem loadSplit_transform (hm : m.wf) (h : SlotsApart P v n) :
    loadSplit P (transform P m v v n f) v n = (loadSplit P m v n).map f := by
  have hlen := fftOutput_length P f n hf m v
  have hload := loadSplit_storeSplit P m v (fftOutput P f n (loadSplit P m v n)) hm (hlen.symm ▸ h)
  rw [hlen] at hload
  rw [transform, hload]
  cases hz : loadSplit P m v n with
  | some z => exact (allSome_eq_some_iff _ _).mpr rfl
  | none =>
    cases n with
    | zero => cases hz
    | succ n => rfl

/-- Two transforms in place, one after the other, are their composition in place. -/
theorem transform_transform (hm : m.wf) (h : SlotsApart P v n) (hg : ∀ z, (g z).length = z.length) :
    transform P (transform P m v v n f) v v n g = transform P m v v n (fun z => g (f z)) := by
  have hload := loadSplit_transform P m v n f hf hm h
  have hlen : (fftOutput P g n ((loadSplit P m v n).map f)).length = n := by
    rw [← hload]
    exact fftOutput_length P g n hg _ v
  rw [transform, hload, transform, storeSplit_storeSplit P m hm v _ _ ((fftOutput_length P f n hf m v).trans hlen.symm), transform]
  cases loadSplit P m v n <;> rfl

end

/-! ### Commands run in turn -/

/-- The sequence runs on from where its first part ends. -/
theorem runAll_append_of_next (L : OperandRegs) (is js : List Instr) {s t : State} (h : runAll L is s = .next t) :
    runAll L (is ++ js) s = runAll L js t := by
  induction is generalizing s with
  | nil =>
    cases h
    rfl
  | cons i is ih =>
    rw [List.cons_append, runAll]
    rw [runAll] at h
    cases he : exec i { s with latch := { cmd := encode i, ops := L } } with
    | next u =>
      rw [he] at h
      exact ih h
    | fault f =>
      rw [he] at h
      cases h
    | refused r =>
      rw [he] at h
      cases h

/-- The whole transform of a direction. -/
def fftCommand (P : Prec) : Dir → Instr
  | .fwd => .fftF P
  | .inv => .fftI P

/-- Its stage st. -/
def stageCommand (P : Prec) (st : Nat) : Dir → Instr
  | .fwd => .bflyF P st
  | .inv => .bflyI P st

/-- The commands FFT.F and FFT.I stand for, up to stage c (R196). -/
def stageSequence (P : Prec) (d : Dir) (c : Nat) : List Instr := .bitrev P :: (List.range c).map fun j => stageCommand P (j + 1) d

theorem stageSequence_succ (P : Prec) (d : Dir) (c : Nat) :
    stageSequence P d (c + 1) = stageSequence P d c ++ [stageCommand P (c + 1) d] := by
  simp [stageSequence, List.range_succ]

theorem stageOk_stageCommand {P : Prec} {d : Dir} {st n : Nat} (h : 1 ≤ st ∧ 2 ^ st ≤ n) : StageOk (stageCommand P st d) n := by
  cases d <;> exact fun _ => h

/-- The state in which runAll completes command i. -/
def State.latched (L : OperandRegs) (i : Instr) (t : State) : State := { t with latch := { cmd := encode i, ops := L } }

theorem runAll_singleton (L : OperandRegs) (i : Instr) (t : State) (h : Accepts i (t.latched L i)) (hp : t.srstPending = false) :
    runAll L [i] t = .next ((t.latched L i).succeeded (effect i (t.latched L i)).1 (effect i (t.latched L i)).2) := by
  have hexec := exec_of_accepts i (t.latched L i) h hp
  rw [State.latched] at hexec
  rw [runAll, hexec]
  rfl

section
variable (P : Prec) (d : Dir) (s : State)

/-- DMEM with the X of s bit-reversed and taken through c stages (40_datapath R161). -/
def memAfterStages (c : Nat) : Memory :=
  transform P s.mem s.latch.ops.x s.latch.ops.x s.latch.ops.n.toNat fun z => stages (ieee P) d s.log2N c (bitRev (ieee P) z)

/-- The whole transform of 2^k elements is the bit reversal and k stages. -/
theorem effect_fftCommand (k : Nat) (hk : s.latch.ops.n.toNat = 2 ^ k) : effect (fftCommand P d) s = (memAfterStages P d s k, s.twN) := by
  have hstages : transform P s.mem s.latch.ops.x s.latch.ops.x s.latch.ops.n.toNat (fft (ieee P) d s.log2N) = memAfterStages P d s k :=
    transform_congr P s.mem _ _ _ fun z hz => by rw [fft, hz, hk, Nat.log2_two_pow]
  rw [← hstages]
  cases d <;> rfl

theorem effect_stageCommand (st : Nat) : effect (stageCommand P st d) s =
    (transform P s.mem s.latch.ops.x s.latch.ops.x s.latch.ops.n.toNat (fun z => stage (ieee P) z st d s.log2N), s.twN) := by
  cases d <;> rfl

variable (hacc : Accepts (fftCommand P d) s)
include hacc

theorem slotsApart_fftCommand : SlotsApart P s.latch.ops.x s.latch.ops.n.toNat := by
  have hc := (commandError_eq_none_iff _ s).mpr hacc
  cases d with
  | fwd => exact slotsApart_inPlace (.fftF P) s _ rfl rfl hc
  | inv => exact slotsApart_inPlace (.fftI P) s _ rfl rfl hc

/-- Stage c + 1 goes on from where the stages before it end. -/
theorem transform_memAfterStages (hm : s.mem.wf) (c : Nat) :
    transform P (memAfterStages P d s c) s.latch.ops.x s.latch.ops.x s.latch.ops.n.toNat (fun z => stage (ieee P) z (c + 1) d s.log2N) =
      memAfterStages P d s (c + 1) :=
  transform_transform P s.mem _ _ _ _ (by simp) hm (slotsApart_fftCommand P d s hacc) (by simp)

section
variable (t : State) (hconfig : t.config = s.config) (htwN : t.twN = s.twN)
include hconfig htwN

/-- BITREV and the stages pass their checks where the whole transform does: they have its size, table and regions (R195). -/
theorem accepts_of_accepts_fft (i : Instr) (hi : i = .bitrev P ∨ ∃ st, i = stageCommand P st d) (hst : StageOk i s.latch.ops.n.toNat) :
    Accepts i (t.latched s.latch.ops i) := by
  obtain ⟨hsize, htable, _, hstride, halign, hbounds, hoverlap⟩ := hacc
  rw [SizePasses, ← hconfig] at hsize
  rw [TablePasses, ← htwN] at htable
  rw [← hconfig] at hbounds
  rcases hi with rfl | ⟨st, rfl⟩ <;> cases d <;> exact ⟨hsize, htable, hst, hstride, halign, hbounds, hoverlap⟩

end

variable (hp : s.srstPending = false) (hm : s.mem.wf)
include hp hm

/-- What the sequence leaves up to stage c: X bit-reversed and taken through c stages, and the bookkeeping of a completion (R196). -/
theorem runAll_stageSequence (c : Nat) (hc : 2 ^ c ≤ s.latch.ops.n.toNat) :
    ∃ l, runAll s.latch.ops (stageSequence P d c) s = .next { s.succeeded (memAfterStages P d s c) s.twN with latch := l } := by
  induction c with
  | zero => exact ⟨_, runAll_singleton _ _ s (accepts_of_accepts_fft P d s hacc s rfl rfl _ (.inl rfl) nofun) hp⟩
  | succ c ih =>
    obtain ⟨l, hl⟩ := ih ((Nat.pow_le_pow_right (by decide) c.le_succ).trans hc)
    have hstage := accepts_of_accepts_fft P d s hacc { s.succeeded (memAfterStages P d s c) s.twN with latch := l } rfl rfl
      (stageCommand P (c + 1) d) (.inr ⟨_, rfl⟩) (stageOk_stageCommand ⟨c.succ_pos, hc⟩)
    rw [stageSequence_succ, runAll_append_of_next _ _ _ hl, runAll_singleton _ _ _ hstage hp, effect_stageCommand,
      ← transform_memAfterStages P d s hacc hm c]
    exact ⟨_, rfl⟩

/-- The whole transform leaves what the sequence up to the last stage leaves. -/
theorem exec_fft_eq_runAll (k : Nat) (hk : s.latch.ops.n.toNat = 2 ^ k) :
    ∃ t l, exec (fftCommand P d) s = .next t ∧ runAll s.latch.ops (stageSequence P d k) s = .next { t with latch := l } := by
  obtain ⟨l, hl⟩ := runAll_stageSequence P d s hacc hp hm k hk.ge
  refine ⟨_, l, exec_of_accepts _ s hacc hp, ?_⟩
  rw [hl, effect_fftCommand P d s k hk]

end

/-- Settles O56: each command of the sequence transforms X in place, and transforms in place compose. -/
theorem fftIsBitrevThenStages : Obligations.FftIsBitrevThenStages := fun P s k hk hp hm =>
  ⟨fun h => exec_fft_eq_runAll P .fwd s h hp hm k hk, fun h => exec_fft_eq_runAll P .inv s h hp hm k hk⟩

end Sys2Proof.Machine
end

section
/-! SUPPORT. In exact arithmetic the real transforms leave the packed spectrum of the signal (42_fft R200, R201, R203): the symmetry of the DFT of a
real signal, and the even and odd halves the post-processing takes apart. -/

namespace Sys2Proof.Machine

open Complex Finset
open scoped ComplexConjugate

/-! ### The DFT of a real signal -/

theorem conj_root_mul_root (d : Dir) (L t : Nat) : conj (root d L t) * root d L t = 1 := by
  have harg : d.sign * (2 * Real.pi * I * t / L) = (d.sign.re * (2 * Real.pi * t / L) : ℝ) * I := by
    cases d <;> simp [Dir.sign] <;> ring
  rw [root, harg, conj_mul', norm_exp_ofReal_mul_I]
  simp

/-- The conjugate of a root of unity is the root that completes it to a whole number of turns. -/
theorem conj_root_mul (d : Dir) (L j n : Nat) (hL : L ≠ 0) (hj : j ≤ L) : conj (root d L (j * n)) = root d L ((L - j) * n) := by
  have hturns : root d L (j * n) * root d L ((L - j) * n) = 1 := by
    rw [← root_add, ← Nat.add_mul, Nat.add_sub_cancel' hj, root_mul_self d L n hL]
  exact left_inv_eq_right_inv (conj_root_mul_root d L _) hturns

/-- The spectrum of a real signal is its own conjugate, read backwards. -/
theorem conj_dft_ofReal (d : Dir) (L : Nat) (x : Nat → ℝ) (j : Nat) (hL : L ≠ 0) (hj : j ≤ L) :
    conj (dft d.sign L (fun n => (x n : ℂ)) j) = dft d.sign L (fun n => (x n : ℂ)) (L - j) := by
  simp only [dft_eq_sum_root, map_sum, map_mul, conj_ofReal, conj_root_mul d L j _ hL hj]

/-- The DC bin of a real signal is real. -/
theorem dft_ofReal_zero_im (d : Dir) (L : Nat) (x : Nat → ℝ) (hL : L ≠ 0) : (dft d.sign L (fun n => (x n : ℂ)) 0).im = 0 := by
  rw [← conj_eq_iff_im, conj_dft_ofReal d L x 0 hL (Nat.zero_le L), Nat.sub_zero]
  exact dft_add_period d L hL _ 0

/-- The DFT is linear: a signal of pairs is transformed component by component. -/
theorem dft_toComplex (d : Dir) (L : Nat) (z : Nat → Cplx ℝ) (j : Nat) :
    dft d.sign L (fun n => toComplex (z n)) j =
      dft d.sign L (fun n => ((z n).re : ℂ)) j + I * dft d.sign L (fun n => ((z n).im : ℂ)) j := by
  simp only [dft_eq_sum_root, mul_sum, ← sum_add_distrib]
  refine sum_congr rfl fun n _ => ?_
  have hparts : toComplex (z n) = (z n).re + (z n).im * I := mk_eq_add_mul_I _ _
  rw [hparts]
  ring

/-! ### The real post-processing in exact arithmetic (42_fft R203) -/

/-- The post-processing takes Z[j] and Z[H − j] apart into the even half e and the odd half o, and turns the odd one by the twiddle factor. -/
theorem toComplex_realPostSlot (a b : Cplx ℝ) (K t : Nat) (e o : ℂ) (ha : toComplex a = e + I * o)
    (hb : conj (toComplex b) = e - I * o) :
    toComplex (realPostSlot exact a b (exact.twc K t) (exact.tws K t)) = e + root .fwd (2 ^ K) t * o := by
  have he : e = (1 / 2 : ℝ) * (toComplex a + conj (toComplex b)) := by
    rw [ha, hb]; push_cast; ring
  have ho : o = -I * ((1 / 2 : ℝ) * (toComplex a - conj (toComplex b))) := by
    rw [ha, hb]; push_cast; linear_combination o * I_mul_I
  rw [← toComplex_twiddle, he, ho]
  apply Complex.ext <;> simp [toComplex, realPostSlot, twiddle, exact] <;> ring

/-- Slot 0 holds the sum and the difference of the two halves' DC bins, which are real. -/
theorem realPostFirst_exact (a : Cplx ℝ) (e o : ℂ) (ha : toComplex a = e + I * o) (he : e.im = 0) (ho : o.im = 0) :
    realPostFirst exact a = { re := (e + o).re, im := (e - o).re } := by
  have hre : a.re = e.re := by simpa [ho, toComplex] using congrArg re ha
  have him : a.im = o.re := by simpa [he, toComplex] using congrArg im ha
  simp [realPostFirst, exact, hre, him]

/-! ### The packed spectrum (R201) -/

section
variable (k : Nat) (x : Nat → ℝ) (j : Nat)

/-- The signal packed into 2^k elements: the even samples real, the odd samples imaginary (R201). -/
def packSignal : List (Cplx ℝ) := (List.range (2 ^ k)).map fun m => { re := x (2 * m), im := x (2 * m + 1) }

/-- The DFT of the even samples. -/
noncomputable def evenBin : ℂ := dft (-1) (2 ^ k) (fun n => (x (2 * n) : ℂ)) j

/-- The DFT of the odd samples. -/
noncomputable def oddBin : ℂ := dft (-1) (2 ^ k) (fun n => (x (2 * n + 1) : ℂ)) j

/-- The half-length transform of the packed signal holds both halves, one as real and one as imaginary signal. -/
theorem elemAt_fft_packSignal (hj : j < 2 ^ k) :
    toComplex (elemAt exact (fft exact .fwd (k + 1) (packSignal k x)) j) = evenBin k x j + I * oddBin k x j :=
  (fft_eq_dft k (k + 1) .fwd _ j (Nat.le_succ k) hj).trans (dft_toComplex .fwd (2 ^ k) _ j)

theorem conj_evenBin (hj : j ≤ 2 ^ k) : conj (evenBin k x j) = evenBin k x (2 ^ k - j) :=
  conj_dft_ofReal .fwd (2 ^ k) _ j (by positivity) hj

theorem conj_oddBin (hj : j ≤ 2 ^ k) : conj (oddBin k x j) = oddBin k x (2 ^ k - j) :=
  conj_dft_ofReal .fwd (2 ^ k) _ j (by positivity) hj

/-- Both halves read backwards and conjugated are themselves, so the same bin conjugated tells them apart. -/
theorem conj_elemAt_fft_packSignal (hj0 : 0 < j) (hj : j < 2 ^ k) :
    conj (toComplex (elemAt exact (fft exact .fwd (k + 1) (packSignal k x)) (2 ^ k - j))) = evenBin k x j - I * oddBin k x j := by
  have hback : 2 ^ k - (2 ^ k - j) = j := by omega
  rw [elemAt_fft_packSignal k x _ (by omega), map_add, map_mul, conj_evenBin k x _ (by omega), conj_oddBin k x _ (by omega), hback, conj_I,
    neg_mul, sub_eq_add_neg]

/-- The spectrum of the signal, by decimation in time. -/
theorem dft_signal : dft (-1) (2 ^ (k + 1)) (fun n => (x n : ℂ)) j = evenBin k x j + root .fwd (2 ^ (k + 1)) j * oddBin k x j := by
  rw [pow_succ']
  exact dft_two_mul .fwd (2 ^ k) _ j

/-- The Nyquist bin. -/
theorem dft_signal_nyquist : dft (-1) (2 ^ (k + 1)) (fun n => (x n : ℂ)) (2 ^ k) = evenBin k x 0 - oddBin k x 0 := by
  have h := dft_two_mul_high .fwd (2 ^ k) (by positivity) (fun n => (x n : ℂ)) 0
  rwa [root_zero, one_mul, ← pow_succ'] at h

/-- Slot 0 of the real transform (R201): the DC and the Nyquist bin. -/
theorem elemAt_realFft_packSignal_zero :
    elemAt exact (realFft exact (k + 1) (packSignal k x)) 0 =
      { re := (dft (-1) (2 ^ (k + 1)) (fun n => (x n : ℂ)) 0).re, im := (dft (-1) (2 ^ (k + 1)) (fun n => (x n : ℂ)) (2 ^ k)).re } := by
  have hpos : 0 < 2 ^ k := by positivity
  rw [elemAt_realFft exact _ _ 0 (by simp [packSignal]), realPostElem, if_pos rfl,
    realPostFirst_exact _ _ _ (elemAt_fft_packSignal k x 0 hpos) (dft_ofReal_zero_im .fwd _ _ hpos.ne') (dft_ofReal_zero_im .fwd _ _ hpos.ne'),
    dft_signal_nyquist, dft_signal, root_zero, one_mul]

/-- Every other slot j: the bin j. -/
theorem elemAt_realFft_packSignal (hj0 : 0 < j) (hj : j < 2 ^ k) :
    toComplex (elemAt exact (realFft exact (k + 1) (packSignal k x)) j) = dft (-1) (2 ^ (k + 1)) (fun n => (x n : ℂ)) j := by
  have hlen : (packSignal k x).length = 2 ^ k := by simp [packSignal]
  rw [elemAt_realFft exact _ _ j (by rwa [hlen]), realPostElem, if_neg hj0.ne', fft_length, hlen,
    toComplex_realPostSlot _ _ _ _ _ _ (elemAt_fft_packSignal k x j hj) (conj_elemAt_fft_packSignal k x j hj0 hj), dft_signal]

end

/-- Settles O58: the half-length transform holds the even and the odd half of the signal, and the post-processing joins them to its spectrum. -/
theorem exactRealFftIsPackedSpectrum : Obligations.ExactRealFftIsPackedSpectrum := by
  intro k x hk
  obtain ⟨k, rfl⟩ := Nat.exists_eq_add_of_le' hk
  exact ⟨elemAt_realFft_packSignal_zero k x, fun j hj0 hj => elemAt_realFft_packSignal k x j hj0 hj⟩

end Sys2Proof.Machine
end

section
/-! SUPPORT. The outputs of CONV (44_conv R230, R233): the dot product as a list and as a recursion on its length, and the boxcar, each of whose sums is
exact. -/

namespace Sys2Proof.Machine

/-! ### The dot product (40_datapath R163) -/

/-- The last pair of a dot product of two or more is added last. -/
theorem dot_concat {α : Type} (A : Arith α) (ps : List (α × α)) (hps : ps ≠ []) (q : α × α) :
    dot A (ps ++ [q]) = A.add (dot A ps) (A.mul q.1 q.2) := by
  obtain ⟨p, ps, rfl⟩ := List.exists_cons_of_ne_nil hps
  simp [dot, List.foldl_append]

theorem dot_map_range (P : Prec) (a c : Nat → Elem P) (n : Nat) :
    dot (ieee P) ((List.range n).map fun j => (a j, c j)) = dotSum P a c n := by
  induction n using dotSum.induct with
  | case1 => rfl
  | case2 => rfl
  | case3 n ih =>
    rw [List.range_succ, List.map_append, List.map_singleton, dot_concat _ _ (by simp), ih]
    rfl

/-! ### The outputs (44_conv R230) -/

theorem allSome_eq_none {α : Type} (l : List (Option α)) (h : none ∈ l) : allSome l = none := by
  cases hl : allSome l with
  | none => rfl
  | some v =>
    rw [(allSome_eq_some_iff l v).mp hl] at h
    simp at h

section
variable (P : Prec) (m : Memory) (L : OperandRegs) (i : Nat)

/-- An output whose window and filter are specified is their dot product. -/
theorem convOutput_of_specified (a c : Nat → Elem P)
    (h : ∀ j < L.flen.toNat, loadElem P m L.xRe L.xStride (i + j) = some (a j) ∧ loadElem P m L.fBase L.fStride j = some (c j)) :
    convOutput P m L i = some (dotSum P a c L.flen.toNat) := by
  have hterms : (List.range L.flen.toNat).map (convTerm P m L i) =
      ((List.range L.flen.toNat).map fun j => (a j, c j)).map some := by
    rw [List.map_map]
    refine List.map_congr_left fun j hj => ?_
    obtain ⟨ha, hc⟩ := h j (List.mem_range.mp hj)
    simp [convTerm, ha, hc]
  rw [convOutput, (allSome_eq_some_iff _ _).mpr hterms, Option.map_some, dot_map_range]

/-- An output one of whose elements is unspecified is unspecified (20_memory R99). -/
theorem convOutput_of_unspecified (j : Nat) (hj : j < L.flen.toNat)
    (h : loadElem P m L.xRe L.xStride (i + j) = none ∨ loadElem P m L.fBase L.fStride j = none) : convOutput P m L i = none := by
  have hterm : convTerm P m L i j = none := by
    rw [convTerm]
    split <;> simp_all
  rw [convOutput, allSome_eq_none _ (List.mem_map.mpr ⟨j, List.mem_range.mpr hj, hterm⟩), Option.map_none]

end

/-- A specified output reads back as stored in any DMEM, canonical or not. -/
theorem loadElem_conv_of_specified (P : Prec) (s : State) (h : Accepts (.conv P) s) (i : Nat) (hi : i < s.latch.ops.len.toNat) (x : Elem P)
    (hx : convOutput P s.mem s.latch.ops i = some x) :
    loadElem P (effect (.conv P) s).1 s.latch.ops.yRe s.latch.ops.yStride i = some x := by
  obtain ⟨before, after, hcut⟩ := List.append_of_mem (List.mem_range.mpr hi)
  have hnodup := hcut ▸ List.nodup_range (n := s.latch.ops.len.toNat)
  have hafter : ∀ j ∈ after, j < s.latch.ops.len.toNat ∧ i ≠ j := fun j hj =>
    ⟨List.mem_range.mp (by simp [hcut, hj]), fun hij => (List.nodup_cons.mp hnodup.of_append_right).1 (hij ▸ hj)⟩
  rw [loadElem, effect, hcut, List.map_append, List.map_cons, ← hx]
  refine readElem_storeAll_last P s.mem _ (convStore P s.mem s.latch.ops i) _ (.inr (by simp [convStore, hx])) fun u hu => ?_
  obtain ⟨j, hj, rfl⟩ := List.mem_map.mp hu
  exact slots_apart_of_pass (.conv P) s ((commandError_eq_none_iff _ s).mpr h)
    { id := .yRe, kind := .elem, role := .write, base := s.latch.ops.yRe, stride := s.latch.ops.yStride,
      count := s.latch.ops.len.toNat } (.tail _ (.head _)) i j hi (hafter j hj).1 (hafter j hj).2

/-- Settles O39: element i of the result is output i, and an output is decided by its window and the filter. -/
theorem convIsSlidingDotProduct : Obligations.ConvIsSlidingDotProduct := by
  refine fun P s h hp hm => ⟨_, exec_of_accepts _ s h hp, fun i hi => ⟨fun a c hac => ?_, fun ⟨j, hj, hn⟩ => ?_⟩, effect_other _ s⟩
  · rw [loadElem_conv P s h hm i hi, convOutput_of_specified P _ _ i a c hac]
  · rw [loadElem_conv P s h hm i hi, convOutput_of_unspecified P _ _ i j hj hn]

/-! ### Sums that need no rounding -/

/-- m·2^k units, m of at most fracBits + 1 bits or the power of two above them, are a multiple of the last place the rounding keeps of them. -/
theorem two_pow_lastPlace_dvd (P : Prec) (m k : Nat) (hm : m ≤ 2 ^ (fracBits P + 1)) : 2 ^ lastPlace P (m * 2 ^ k) 0 ∣ m * 2 ^ k := by
  rcases hm.lt_or_eq with hlt | rfl
  · refine Dvd.dvd.mul_left (pow_dvd_pow 2 ?_) m
    by_cases h0 : m * 2 ^ k = 0
    · simp [lastPlace, h0]
    · have hlog : (m * 2 ^ k).log2 < fracBits P + 1 + k := by
        rw [Nat.log2_lt h0, pow_add]
        exact Nat.mul_lt_mul_of_pos_right hlt (Nat.two_pow_pos k)
      rw [lastPlace]
      omega
  · rw [← pow_add, lastPlace, Nat.log2_two_pow]
    exact pow_dvd_pow 2 (by omega)

theorem roundShift_of_dvd (n d : Nat) (h : 2 ^ d ∣ n) : roundShift n d * 2 ^ d = n := by
  have hd : 0 < 2 ^ d := Nat.two_pow_pos d
  rw [roundShift, Nat.mod_eq_zero_of_dvd h, if_neg (by omega), Nat.div_mul_cancel h]

/-- A sum that is such a number of units and does not overflow is exact. -/
theorem finiteUnits_fadd_exact (P : Prec) (a b : Elem P) (u v : Int) (ha : finiteUnits P a = some u) (hb : finiteUnits P b = some v)
    (m k : Nat) (hsum : (u + v).natAbs = m * 2 ^ k) (hm : m ≤ 2 ^ (fracBits P + 1)) (hlt : m * 2 ^ k < overflowUnits P) :
    finiteUnits P (fadd P a b) = some (u + v) := by
  obtain ⟨neg, heq, hneg⟩ := fadd_eq_roundPack P a b u v ha hb
  rw [hsum] at heq hneg
  have hkept : keptBits P (m * 2 ^ k) 0 * 2 ^ lastPlace P (m * 2 ^ k) 0 = m * 2 ^ k := by
    rw [keptBits, Nat.zero_add]
    exact roundShift_of_dvd _ _ (two_pow_lastPlace_dvd P m k hm)
  rw [heq, finiteUnits_roundPack P neg _ 0 (by simpa using hlt), hkept, hneg]

/-! ### The boxcar (R233) -/

theorem finiteUnits_one (P : Prec) : finiteUnits P (one P) = some ((2 ^ unitPlaces P : Nat) : Int) := by cases P <;> decide +kernel

theorem fmul_one_one (P : Prec) : fmul P (one P) (one P) = one P := by cases P <;> decide +kernel

/-- The largest length R233 speaks of is far below the overflow threshold. -/
theorem boxcar_lt_overflowUnits (P : Prec) : 2 ^ (fracBits P + 1) * 2 ^ unitPlaces P < overflowUnits P := by cases P <;> decide +kernel

/-- Every partial sum of a boxcar is exact. -/
theorem finiteUnits_dotSum_one (P : Prec) (n : Nat) (hn : n ≤ 2 ^ (fracBits P + 1)) :
    finiteUnits P (dotSum P (fun _ => one P) (fun _ => one P) n) = some ((n * 2 ^ unitPlaces P : Nat) : Int) := by
  induction n using dotSum.induct with
  | case1 => simp [dotSum, finiteUnits, unpack_zero, signed]
  | case2 => rw [dotSum, fmul_one_one, finiteUnits_one, Nat.one_mul]
  | case3 n ih =>
    have hsum : (((n + 1) * 2 ^ unitPlaces P : Nat) + (2 ^ unitPlaces P : Nat) : Int) = ((n + 2) * 2 ^ unitPlaces P : Nat) := by
      push_cast
      ring
    have hlt : (n + 2) * 2 ^ unitPlaces P < overflowUnits P := (Nat.mul_le_mul_right _ hn).trans_lt (boxcar_lt_overflowUnits P)
    rw [dotSum, fmul_one_one, finiteUnits_fadd_exact P _ _ _ _ (ih (by omega)) (finiteUnits_one P) (n + 2) (unitPlaces P)
      (by rw [hsum, Int.natAbs_natCast]) hn hlt, hsum]

/-- Settles O41: every output is the same dot product of ones, and each of its partial sums is exact. -/
theorem boxcarIsFilterLength : Obligations.BoxcarIsFilterLength := by
  refine fun P s h hp hF hsignal hfilter => ⟨_, s.latch, exec_of_accepts _ s h hp, fun i hi => ⟨_, ?_, finiteUnits_dotSum_one P _ hF⟩⟩
  refine loadElem_conv_of_specified P s h i hi _ (convOutput_of_specified P _ _ i _ _ fun j hj => ⟨hsignal _ ?_, hfilter j hj⟩)
  rw [signalCount, if_pos (by omega)]
  omega

end Sys2Proof.Machine
end

section
/-! SUPPORT. A command from its acceptance to its completion (60_exceptions R243, R245 to R247): the CMD write, the port accesses that go before the
completion, and the completion of a command that fails its checks. -/

namespace Sys2Proof.Machine

/-! ### Acceptance (R245) -/

theorem writeCmd_idle (s : State) (w : Word) (h : s.eng = .idle) : s.writeCmd w = s.accept w := by
  rw [State.writeCmd, h]

theorem writeCmd_busy (s : State) (w : Word) (h : s.eng = .busy) : s.writeCmd w = { s with ovr := true } := by
  rw [State.writeCmd, h]

/-- Settles O21: the latency and the draw counter are those the acceptance draws. -/
theorem commandWrite : Obligations.CommandWrite := fun s w =>
  ⟨fun h => ⟨Config.latency s.fresh, s.fresh + 1, writeCmd_idle s w h⟩, writeCmd_busy s w⟩

/-! ### A command that fails its checks (R243) -/

/-- Settles O45: the first failing check is the error the command reports, and the report is the completion bookkeeping. -/
theorem failedCommandOnlyReports : Obligations.FailedCommandOnlyReports := by
  intro i s e he hp
  rw [exec_of_error i s e ((commandError_eq_some_iff_firstError i s e).mpr he), complete_some e s hp, State.failed]

/-! ### What a port access does to the command in flight (R247) -/

/-- What a host access can do: write a register, or touch DMEM and the draw counter alone; then it is answered (20_memory R95). -/
theorem access_cases (a : Access) (s : State) :
    ∃ r, (∃ q v, s.access a = (s.writeReg q v).respond r) ∨
      ∃ m f, s.access a = ({ s with mem := m, fresh := f } : State).respond r := by
  unfold State.access
  split
  · unfold State.accessRegister
    split
    · split
      · exact ⟨_, .inr ⟨s.mem, s.fresh, rfl⟩⟩
      · unfold State.writeWord
        split
        · exact ⟨_, .inl ⟨_, _, rfl⟩⟩
        · exact ⟨_, .inr ⟨s.mem, s.fresh, rfl⟩⟩
    · exact ⟨_, .inr ⟨s.mem, s.fresh, rfl⟩⟩
  · unfold State.accessDmem
    split
    · split <;> exact ⟨_, .inr ⟨_, _, rfl⟩⟩
    · exact ⟨_, .inr ⟨s.mem, s.fresh, rfl⟩⟩
  · exact ⟨_, .inr ⟨s.mem, s.fresh, rfl⟩⟩

/-- A command is in flight in a unit out of reset, and at most d port accesses go before its completion. -/
structure State.InFlight (d : Nat) (s : State) : Prop where
  busy : s.eng = .busy
  untouched : s.accessInReset = false
  released : s.resetPin = false
  latency : s.delay ≤ d

section
variable {s : State} {d : Nat} (h : s.InFlight d)
include h

/-- A register write while BUSY leaves the command in flight: a soft reset is only marked, and a CMD write only sets OVR. -/
theorem State.InFlight.writeReg (r : Reg) (v : Word) : (s.writeReg r v).InFlight d := by
  cases r with
  | ctrl =>
    show (s.writeCtrl v).InFlight d
    cases hv : v.getLsbD 31 with
    | true =>
      rw [writeCtrl_reset_busy s v hv h.busy]
      exact { h with }
    | false =>
      rw [writeCtrl_enables s v hv]
      exact { h with }
  | cmd =>
    show (s.writeCmd v).InFlight d
    rw [writeCmd_busy s v h.busy]
    exact { h with }
  | _ => exact { h with }

theorem State.InFlight.access (a : Access) : (s.access a).InFlight d := by
  obtain ⟨r, ⟨q, v, hx⟩ | ⟨m, f, hx⟩⟩ := access_cases a s <;> rw [hx]
  · exact { h.writeReg q v with }
  · exact { h with }

/-- A step with a command in flight completes it, or uses up one access of its latency. -/
theorem State.InFlight.step_cases :
    ∃ t, step s = .next t ∧ (t.eng = .idle ∨ ∃ n, d = n + 1 ∧ t.InFlight n) := by
  rcases turn_cases s with ⟨hv, _⟩ | ⟨_, hp, _⟩ | ⟨_, _, he, _⟩ | ⟨_, _, _, ht⟩ | ⟨_, _, a, rest, _, ht, hbusy⟩
  · simp [State.touchedInReset, h.untouched, h.released] at hv
  · simp [h.released] at hp
  · simp [h.busy] at he
  · obtain ⟨m, w, e, hstep⟩ := step_of_completion_cases s ht
    exact ⟨_, hstep, .inl (complete_eng e _)⟩
  · obtain ⟨n, rfl⟩ : ∃ n, d = n + 1 := ⟨d - 1, by have := (hbusy h.busy).2; have := h.latency; omega⟩
    have hnext : ({ s with port := rest, delay := s.delay - 1 } : State).InFlight n :=
      { h with latency := Nat.sub_le_of_le_add h.latency }
    exact ⟨_, step_of_port s a rest ht, .inr ⟨n, rfl, hnext.access a⟩⟩

end

/-! ### Completion (R247) -/

theorem run_succ_of_step (M : Host.Core) (k : Nat) {s t : M.State} (h : M.step s = .next t) : M.run (k + 1) s = M.run k t := by
  rw [Host.Core.run, h]

/-- A command in flight completes once its latency is used up, if not before. -/
theorem State.InFlight.completes (d : Nat) {s : State} (h : s.InFlight d) :
    ∃ k t, k ≤ d + 1 ∧ core.run k s = .next t ∧ t.eng = .idle := by
  induction d using Nat.strong_induction_on generalizing s with
  | _ d ih =>
    obtain ⟨t, hstep, hidle | ⟨n, rfl, ht⟩⟩ := h.step_cases
    · exact ⟨1, t, by omega, run_succ_of_step core 0 hstep, hidle⟩
    · obtain ⟨k, u, hk, hrun, hidle⟩ := ih n (Nat.lt_succ_self n) ht
      exact ⟨k + 1, u, by omega, (run_succ_of_step core k hstep).trans hrun, hidle⟩

/-- Settles O8, by induction on the latency: every step either completes the command or uses up one access of it. -/
theorem acceptedCommandCompletes : Obligations.AcceptedCommandCompletes := fun s hv hp he =>
  State.InFlight.completes s.delay ⟨he, hv, hp, Nat.le_refl _⟩

end Sys2Proof.Machine
end

section
/-! SUPPORT. The edges of a run (70_reset R280, R284, R292): the stop at a host access during reset, the unit that waits, and the observation of a final
state with what it does not depend on. -/

namespace Sys2Proof.Machine

/-! ### A host access during reset (R280, 93 I11) -/

theorem step_of_touchedInReset (s : State) (h : s.touchedInReset = true) : step s = .fault .hostAccessDuringReset := by
  have hturn : s.turn = .violation := if_pos h
  rw [step, hturn, violationStep]

/-- An access at the port while the reset input is asserted is one made during reset. -/
theorem touchedInReset_of_port (s : State) (hp : s.resetPin = true) (hq : s.port ≠ []) : s.touchedInReset = true := by
  simp [State.touchedInReset, hp, hq]

/-- Releasing the input does not forget an access made during reset (log 14). -/
theorem touchedInReset_releaseReset (s : State) (h : s.touchedInReset = true) : (s.stimulate .releaseReset).touchedInReset = true :=
  Bool.or_eq_true_iff.mpr (.inl h)

/-- Settles O14: waiting, arrived later, or left at the port by a released input, the access counts as one made during reset. -/
theorem hostAccessDuringResetFaults : Obligations.HostAccessDuringResetFaults := by
  intro s a rest
  have hwaiting (hq : s.port = a :: rest) : (s.stimulate .assertReset).touchedInReset = true :=
    touchedInReset_of_port _ rfl (hq.trans_ne (List.cons_ne_nil a rest))
  have harrived (hp : s.resetPin = true) : (s.stimulate (.access a)).touchedInReset = true :=
    touchedInReset_of_port _ hp (List.append_ne_nil_of_right_ne_nil s.port (List.cons_ne_nil a []))
  exact ⟨fun hq => step_of_touchedInReset _ (hwaiting hq), fun hp => step_of_touchedInReset _ (harrived hp),
    fun hp => step_of_touchedInReset _ (touchedInReset_releaseReset _ (harrived hp))⟩

/-! ### An IDLE unit (R284, log 21) -/

/-- Settles O15: the turn of an IDLE unit out of reset with an empty port is to wait. -/
theorem idleUnitWaits : Obligations.IdleUnitWaits := by
  intro s hv hp he hq
  have hturn : s.turn = .wait := by simp [State.turn, hv, hp, he, hq]
  rw [step, hturn]

/-! ### The observation of a final state (R292) -/

theorem finalObservation_of_final (s : State) (h : s.Final) : s.finalObservation = some s.observation := if_pos h

theorem finalObservation_of_not_final (s : State) (h : ¬ s.Final) : s.finalObservation = none := if_neg h

/-- A state with another latency, draw counter, port and list of responses, and all else the same. -/
def State.retimed (delay fresh : Nat) (port : List Access) (responses : List Response) (s : State) : State :=
  { s with delay := delay, fresh := fresh, port := port, responses := responses }

section
variable (delay fresh : Nat) (port : List Access) (responses : List Response)

theorem observation_retimed (s : State) : (s.retimed delay fresh port responses).observation = s.observation := rfl

theorem complete_retimed (e : Option CmdError) (s : State) :
    (s.retimed delay fresh port responses).complete e = (s.complete e).retimed delay fresh port responses := by
  have hsrst : (s.retimed delay fresh port responses).srstPending = s.srstPending := rfl
  cases h : s.srstPending with
  | true =>
    rw [complete_pending e s h, complete_pending e _ (hsrst.trans h)]
    rfl
  | false =>
    cases e with
    | none =>
      rw [complete_none s h, complete_none _ (hsrst.trans h)]
      rfl
    | some e =>
      rw [complete_some e s h, complete_some e _ (hsrst.trans h)]
      rfl

/-- A command neither reads nor changes the latency, the draw counter, the port and the responses. -/
theorem exec_retimed (i : Instr) (s : State) :
    ∃ t, exec i s = .next t ∧ exec i (s.retimed delay fresh port responses) = .next (t.retimed delay fresh port responses) := by
  have hchecks : commandError i (s.retimed delay fresh port responses) = commandError i s := commandError_congr i rfl rfl rfl
  have heffect : effect i (s.retimed delay fresh port responses) = effect i s := effect_congr i rfl rfl rfl
  rcases exec_cases i s with ⟨e, he, hx⟩ | ⟨he, hx⟩
  · refine ⟨_, hx, ?_⟩
    rw [exec_of_error i _ e (hchecks.trans he), complete_retimed]
  · refine ⟨_, hx, ?_⟩
    rw [exec_of_pass i _ (hchecks.trans he), heffect, ← complete_retimed]
    rfl

end

/-- Settles O60: only a final state is observed, and a completion leaves the timing apart from what is observed. -/
theorem observationIgnoresTiming : Obligations.ObservationIgnoresTiming := by
  refine ⟨fun s h => finalObservation_of_not_final s ?_, fun s hq he hp => ?_, fun i s delay fresh port responses => ?_⟩
  · rintro ⟨hq, he, hp⟩
    simp [hq, he, hp] at h
  · exact ⟨s.observation, finalObservation_of_final s ⟨hq, he, hp⟩, rfl, rfl, rfl⟩
  · obtain ⟨t, hx, hx'⟩ := exec_retimed delay fresh port responses i s
    exact ⟨t, _, hx, hx', observation_retimed delay fresh port responses t⟩

end Sys2Proof.Machine
end
